-- ==== Sys2Proof/Word.lean ====
section
/-! DEFINITION. The word types of HCORE: 32-bit registers (10_state.md R17) and 8-bit bytes (00_scope.md R9). -/

namespace Sys2Proof

/-- A 32-bit register value, bit 0 least significant (20_memory.md R60). -/
abbrev Word := BitVec 32

/-- A byte, bit 7 most significant (00_scope.md R9). -/
abbrev Byte := BitVec 8

end Sys2Proof
end

