-- ==== Sys2Proof/Config.lean ====
section
/-! DEFINITION. What is fixed for one HCORE: the parameters of 00_scope.md R6 and the constants of R7 and R8;
and the free value of the one read the spec leaves open (10_state.md R30). -/

namespace Sys2Proof

/-- The named parameters of 00_scope.md R6. No source gives them a value, so the machine's state carries them and a
statement about every state is a statement about every choice (log 1). -/
structure Params where
  /-- `P_W`: width in bits of a counter and of a weight. -/
  pW : Nat
  /-- `P_BB_CAP`: capacity of the bit buffer in bits. -/
  bbCap : Nat
  /-- `P_NODE_CAP`: capacity of the node store in nodes. -/
  nodeCap : Nat
  /-- `P_BASE`: byte address of the register block on the host bus. -/
  base : Nat
  deriving DecidableEq, Repr

/-- The legal ranges of 00_scope.md R6. -/
abbrev Params.Legal (p : Params) : Prop :=
  (9 ≤ p.pW ∧ p.pW ≤ 32) ∧
  (8 ≤ p.bbCap ∧ p.bbCap ≤ 2 ^ 32 - 8 ∧ p.bbCap % 8 = 0) ∧
  (513 ≤ p.nodeCap ∧ p.nodeCap ≤ 2 ^ 16) ∧
  p.base % 256 = 0

/-- `MAXW`, the largest weight (00_scope.md R8). -/
def Params.maxW (p : Params) : Nat := 2 ^ p.pW - 1

/-- DESIGN CHOICE (log 1, unsafe): the parameters of `State.reset`, the largest the ranges allow, the block at 0. -/
def Config.params : Params :=
  { pW := 32, bbCap := 2 ^ 32 - 8, nodeCap := 2 ^ 16, base := 0 }

/-- The value a host read returns while BUSY = 1, where 10_state.md R30 leaves it unspecified: a free value, fresh for
every such read (log 6). -/
opaque Config.busyRead : Nat → Word

end Sys2Proof
end

