-- ==== Sys2Proof/Syntax.lean ====
section
/-! DEFINITION. The commands of HCORE: what the host writes, and what it means once decoded (30_encoding.md R79 to R87). -/

namespace Sys2Proof

/-- What a command is as the host gives it: the 32-bit word written to CMD and the operand `A` latched from ARG at that
moment (30_encoding.md R79, 20_memory.md R54). -/
structure Command where
  word : Word
  arg : Word
  deriving DecidableEq, Repr

/-- The operand formats of 30_encoding.md R81 to R86. -/
inductive Format where
  | none | bit | idx | byte | sym | symidx
  deriving DecidableEq, Repr

/-- One constructor per row of the opcode map (30_encoding.md R87), with the operand its ARG format carries. Every
operand has exactly the width its field has, so no ill-formed instruction can be written; what can be ill-formed is a
`Command` (WellFormed.lean). -/
inductive Instr where
  | clear
  | bbClear
  | bbAppend (b : Bool)
  | bbRemoveLast
  | bbGet (i : Word)
  | bbReadByte (j : Word)
  | eCount
  | eBuild
  | eTable
  | eHeader
  | ePayload
  | eFlush
  | encode
  | dHeader
  | dPayload
  | dFinish
  | decode
  | freqRead (s : Byte)
  | cwLen (s : BitVec 9)
  | cwBit (s : BitVec 9) (k : Byte)
  deriving DecidableEq, Repr

end Sys2Proof
end

