-- ==== Sys2Proof/WellFormed.lean ====
section
/-! DEFINITION. Which commands are well-formed: the three checks of 30_encoding.md R80 that come before the OPSTATE
check. An `Instr` has no ill-formed terms; a `Command` has. -/

namespace Sys2Proof

/-- The ARG format of an opcode, none for the 236 unlisted values (30_encoding.md R87, R88). -/
def formatOf (op : Nat) : Option Format :=
  match op with
  | 0x01 => some .none
  | 0x10 => some .none
  | 0x11 => some .bit
  | 0x12 => some .none
  | 0x13 => some .idx
  | 0x14 => some .idx
  | 0x20 => some .none
  | 0x21 => some .none
  | 0x22 => some .none
  | 0x23 => some .none
  | 0x24 => some .none
  | 0x25 => some .none
  | 0x2F => some .none
  | 0x30 => some .none
  | 0x31 => some .none
  | 0x32 => some .none
  | 0x3F => some .none
  | 0x40 => some .byte
  | 0x41 => some .sym
  | 0x42 => some .symidx
  | _ => none

/-- The ARG bits a format reserves (30_encoding.md R81 to R86). -/
def Format.reserved : Format → Word
  | .none => 0x00000000#32
  | .bit => 0xFFFFFFFE#32
  | .idx => 0x00000000#32
  | .byte => 0xFFFFFF00#32
  | .sym => 0xFFFFFE00#32
  | .symidx => 0xFF00FE00#32

/-- First check of R80: CMD[31:8] is 0. -/
def Command.wordOk (c : Command) : Bool := c.word &&& 0xFFFFFF00#32 == 0#32

/-- Second check of R80: CMD[7:0] is an opcode of R87. -/
def Command.opcodeOk (c : Command) : Bool := (formatOf (c.word &&& 0x000000FF#32).toNat).isSome

/-- Third check of R80: no nonzero bit of A is one that the opcode's format reserves. -/
def Command.argOk (c : Command) : Bool :=
  match formatOf (c.word &&& 0x000000FF#32).toNat with
  | some f => c.arg &&& f.reserved == 0#32
  | none => true

/-- A command the engine does not end with ILLEGAL_COMMAND (30_encoding.md R80). -/
def Command.wellFormed (c : Command) : Bool := c.wordOk && c.opcodeOk && c.argOk

end Sys2Proof
end

