-- ==== Sys2Proof/Decode.lean ====
section
/-! DEFINITION. The decoder, total on every command and rejecting by name, and the encoder (30_encoding.md R79 to R88). -/

namespace Sys2Proof

/-- Why a command is not an instruction. Each ends the command with ILLEGAL_COMMAND (30_encoding.md R80). -/
inductive Reject where
  /-- CMD[31:8] is not 0. -/
  | reservedWordBits
  /-- CMD[7:0] is not an opcode of R87. -/
  | unknownOpcode
  /-- A has a nonzero bit that the opcode's ARG format reserves. -/
  | reservedArgBits
  deriving DecidableEq, Repr

/-- What the decoder answers. -/
inductive Decoded where
  | instr (i : Instr)
  | reject (r : Reject)
  deriving DecidableEq, Repr

/-- `v[lo+n-1:lo]`, as a field of its own width (00_scope.md R9). -/
abbrev field (v : Word) (lo n : Nat) : BitVec n := v.extractLsb' lo n

/-- OPC, the opcode field of a command word (30_encoding.md R79). -/
def Command.op (c : Command) : Byte := field c.word 0 8

/-- Answer the instruction if the reserved ARG bits are zero (third check of R80). -/
def ifArgOk (ok : Bool) (i : Instr) : Decoded := if ok then .instr i else .reject .reservedArgBits

/-- The opcode map of R87, with the operand of each format taken out of A (R81 to R86). -/
def decodeOpcode (op : Nat) (a : Word) : Decoded :=
  match op with
  | 0x01 => .instr .clear
  | 0x10 => .instr .bbClear
  | 0x11 => ifArgOk (field a 1 31 == 0#31) (.bbAppend (a.getLsbD 0))
  | 0x12 => .instr .bbRemoveLast
  | 0x13 => .instr (.bbGet a)
  | 0x14 => .instr (.bbReadByte a)
  | 0x20 => .instr .eCount
  | 0x21 => .instr .eBuild
  | 0x22 => .instr .eTable
  | 0x23 => .instr .eHeader
  | 0x24 => .instr .ePayload
  | 0x25 => .instr .eFlush
  | 0x2F => .instr .encode
  | 0x30 => .instr .dHeader
  | 0x31 => .instr .dPayload
  | 0x32 => .instr .dFinish
  | 0x3F => .instr .decode
  | 0x40 => ifArgOk (field a 8 24 == 0#24) (.freqRead (field a 0 8))
  | 0x41 => ifArgOk (field a 9 23 == 0#23) (.cwLen (field a 0 9))
  | 0x42 => ifArgOk (field a 9 7 == 0#7 && field a 24 8 == 0#8) (.cwBit (field a 0 9) (field a 16 8))
  | _ => .reject .unknownOpcode

/-- The checks of 30_encoding.md R80 that come before the OPSTATE check, in their order. -/
def decode (c : Command) : Decoded :=
  if field c.word 8 24 = 0#24 then decodeOpcode c.op.toNat c.arg else .reject .reservedWordBits

/-- OPC of each instruction (30_encoding.md R87). -/
def Instr.opcode : Instr → Byte
  | .clear => 0x01#8
  | .bbClear => 0x10#8
  | .bbAppend _ => 0x11#8
  | .bbRemoveLast => 0x12#8
  | .bbGet _ => 0x13#8
  | .bbReadByte _ => 0x14#8
  | .eCount => 0x20#8
  | .eBuild => 0x21#8
  | .eTable => 0x22#8
  | .eHeader => 0x23#8
  | .ePayload => 0x24#8
  | .eFlush => 0x25#8
  | .encode => 0x2F#8
  | .dHeader => 0x30#8
  | .dPayload => 0x31#8
  | .dFinish => 0x32#8
  | .decode => 0x3F#8
  | .freqRead _ => 0x40#8
  | .cwLen _ => 0x41#8
  | .cwBit _ _ => 0x42#8

/-- ARG of each instruction (30_encoding.md R81 to R86; R95 for CW_BIT), 0 in format N. -/
def Instr.argWord : Instr → Word
  | .bbAppend b => if b then 1#32 else 0#32
  | .bbGet i => i
  | .bbReadByte j => j
  | .freqRead s => s.setWidth 32
  | .cwLen s => s.setWidth 32
  | .cwBit s k => (k.setWidth 32 <<< 16) ||| s.setWidth 32
  | .clear | .bbClear | .bbRemoveLast => 0#32
  | .eCount | .eBuild | .eTable | .eHeader | .ePayload | .eFlush | .encode => 0#32
  | .dHeader | .dPayload | .dFinish | .decode => 0#32

/-- The command of an instruction: the word is `zext_32(OPC)` (30_encoding.md R87). -/
def encode (i : Instr) : Command := { word := i.opcode.setWidth 32, arg := i.argWord }

/-- The command a bare table word stands for: its low `nbits` bits as CMD and an operand word of zeros; none if the bits
do not fit in the 32 bits of CMD. -/
def tableCommand (nbits w : Nat) : Option Command :=
  if w % 2 ^ nbits < 2 ^ 32 then some { word := BitVec.ofNat 32 (w % 2 ^ nbits), arg := 0#32 } else none

/-- The instruction the decoder reads from a word of the opcode table, none where it rejects. -/
def decodeTableWord (nbits w : Nat) : Option Instr :=
  match tableCommand nbits w with
  | none => none
  | some c =>
    match decode c with
    | .instr i => some i
    | .reject _ => none

end Sys2Proof
end

