-- ==== Sys2Proof/Machine/State.lean ====
section
/-! DEFINITION. The state of HCORE and its devices as plain data, the reasons a step can stop, and the state after reset
(10_state.md R15 to R48). -/

namespace Sys2Proof.Machine

/-- One of the 257 symbols (00_scope.md R7): a byte value, or the end-of-stream sentinel 256. -/
inductive Sym where
  | byte (v : Byte)
  | eos
  deriving DecidableEq, Repr

/-- A node of a tree with the subtree it owns (10_state.md R39, 00_scope.md R13). `w` is the weight; a node the decoder
builds carries none (45_decoder.md R141). -/
inductive Node where
  | leaf (sym : Sym) (w : Option Nat)
  | internal (w : Option Nat) (l r : Node)
  deriving DecidableEq, Repr

/-- The error codes of 60_exceptions.md R157. -/
inductive ErrCode where
  | none | ioError | malformedHeader | truncatedPayload | allocationError | boundsError | illegalCommand
  | sequenceError | counterOverflow | sourceMismatch
  deriving DecidableEq, Repr

/-- The operation states of 10_state.md R33. -/
inductive OpState where
  | idle | eFreqCounted | eTreeBuilt | eTableBuilt | eHeaderWritten | ePayloadWritten | eDone
  | dHeaderParsed | dPayloadDecoded | dDone | failed
  deriving DecidableEq, Repr

/-- The bit buffer (10_state.md R44). `content` is `BBS[0..BB_LEN-1]`, index 0 first, so BB_LEN is its length; `stale`
is the storage from index BB_LEN on, as far as it was ever written: no command reads it (log 14). -/
structure BitBuf where
  content : List Bool
  stale : List Bool
  deriving DecidableEq, Repr

/-- The source device: its byte sequence `S` and position `p` (20_memory.md R71). -/
structure Source where
  bytes : List Byte
  pos : Nat
  deriving DecidableEq, Repr

/-- The sink device: its byte sequence `K` (20_memory.md R75) and how often it was told to flush (R76). -/
structure Sink where
  bytes : List Byte
  flushes : Nat
  deriving DecidableEq, Repr

/-- What the outside decides about one device call (20_memory.md R73, R74): whether it fails, and, if something other than
HCORE changed the source before it, what the source is then (log 5). -/
structure Draw where
  fails : Bool
  source : Option Source
  deriving DecidableEq, Repr

/-- What `SrcNext` answers when it does not fail (20_memory.md R71). -/
inductive SrcAnswer where
  | byte (v : Byte)
  | eoi
  deriving DecidableEq, Repr

/-- The four device calls (60_exceptions.md R165). -/
inductive CallKind where
  | srcRewind | srcNext | sinkWrite | sinkFlush
  deriving DecidableEq, Repr

/-- One entry of the list of device calls and their answers (20_memory.md R55). -/
inductive DevCall where
  | srcRewind
  | srcNext (r : SrcAnswer)
  | sinkWrite (v : Byte)
  | sinkFlush
  | failed (k : CallKind)
  deriving DecidableEq, Repr

/-- The two devices, the answers they are still to give (`draws`, next first; a call past the end of the list does not
fail and finds the source as HCORE left it) and the calls made so far (`calls`, newest first). -/
structure Devices where
  src : Source
  sink : Sink
  draws : List Draw
  calls : List DevCall
  deriving DecidableEq, Repr

/-- What can happen next to HCORE (10_state.md R15): an access of the host, `n` bytes wide (00_scope.md R12); a turn of
the engine; the reset input (70_reset_and_hazards.md R169), which strikes a running command after `calls` device calls;
the host attaching a source at a position or a fresh sink (20_memory.md R74, R78). -/
inductive Move where
  | busRead (addr n : Nat)
  | busWrite (addr n : Nat) (v : Word)
  | engine
  | reset (calls : Nat)
  | attachSource (src : Source)
  | attachSink
  deriving DecidableEq, Repr

/-- The state of HCORE, its devices, and what is still to happen to it. INVENTORY.md lists the rule of each field. -/
structure State where
  /-- The parameters (00_scope.md R6); no step writes them (log 1). -/
  cfg : Params
  arg : Word
  result : Word
  busy : Bool
  overrun : Bool
  errcode : ErrCode
  opstate : OpState
  operr : ErrCode
  /-- The command latch (10_state.md R36): OP is its word's low byte, A its arg. -/
  latch : Option Command
  /-- `FREQ[0..255]`, each below `2 ^ P_W` (R37; log 9). -/
  freq : Vector Nat 256
  n1 : Nat
  pl : List Node
  /-- NCOUNT, the number of nodes in use (R39). -/
  nodeCount : Nat
  root : Node
  /-- `CW[0..256]`: none where absent, else the codeword, whose length is `CW[s].len` (R42). -/
  cw : Vector (Option (List Bool)) 257
  path : List Bool
  bb : BitBuf
  dcur : Byte
  dcnt : Fin 9
  dnode : Node
  dbits : Word
  dout : Word
  dev : Devices
  /-- The model's own field: what is still to happen, next first (log 3). -/
  moves : List Move
  /-- The model's own field: the value the last host read returned. -/
  busData : Word
  /-- The model's own field: how many free values reads during BUSY have drawn (log 6). -/
  busyReads : Nat
  deriving DecidableEq, Repr

/-- Why the model stops with a fault. No run from reset with legal parameters reaches either; both are SAFE. -/
inductive Fault where
  /-- An engine turn with BUSY = 1 and an empty latch, a state R54 never makes; raised by `engineTurn` (log 12). -/
  | busyWithEmptyLatch
  /-- A loop of a command outlived the bound the model gives it; raised by `endCommand`; never happens (log 13). -/
  | loopBound
  deriving DecidableEq, Repr

/-- Why the model has no meaning for what it is asked. All are SAFE. -/
inductive Refusal where
  /-- An instruction with no meaning yet; raised by `exec`'s arm of that instruction. -/
  | notModelled (mnemonic : String)
  /-- A bus access that is not 4 bytes wide (20_memory.md R51); raised by `busTarget`. -/
  | accessWidth
  /-- A bus access at an address that is not a multiple of 4 (20_memory.md R51); raised by `busTarget`. -/
  | misalignedAccess
  /-- A bus access outside the register block, which is not addressed to HCORE; raised by `busTarget` (log 7). -/
  | outsideBlock
  deriving DecidableEq, Repr

/-- The state after reset (10_state.md R48, 70_reset_and_hazards.md R169). ARG, RESULT, BB_LEN, the STATUS fields and the
latch are the spec's; the tables, for which it gives none, are named in log 2, `cfg` in log 1, the devices and the model's
own fields in log 16. -/
def State.reset : State where
  cfg := Config.params
  arg := 0#32
  result := 0#32
  busy := false
  overrun := false
  errcode := .none
  opstate := .idle
  operr := .none
  latch := none
  freq := Vector.replicate 256 0
  n1 := 0
  pl := []
  nodeCount := 0
  root := .leaf .eos none
  cw := Vector.replicate 257 none
  path := []
  bb := { content := [], stale := [] }
  dcur := 0#8
  dcnt := 0
  dnode := .leaf .eos none
  dbits := 0#32
  dout := 0#32
  dev := { src := { bytes := [], pos := 0 }, sink := { bytes := [], flushes := 0 }, draws := [], calls := [] }
  moves := []
  busData := 0#32
  busyReads := 0

end Sys2Proof.Machine
end

