-- ==== Sys2Proof/Machine/Ops.lean ====
section
/-! DEFINITION. The named operations of HCORE over its devices, bit buffer, priority list and node store, and the two
ways a command ends (00_scope.md R12). -/

namespace Sys2Proof.Machine

/-! ## A part of a command: it goes on, raises an error, or (never) outlives its bound -/

/-- The outcome of a part of a command over a component `σ` of the state: `ok` goes on with a value, `raise` ends the
command with a code (60_exceptions.md R153); both hand back the component as the part left it, since effects made before
an error stay (R155). `stuck` says that a loop outlived the bound the model gave it; no command does (log 13). -/
inductive Res (σ α : Type) where
  | ok (v : α) (s : σ)
  | raise (e : ErrCode) (s : σ)
  | stuck
  deriving DecidableEq, Repr

/-- Run `f` after `r`; nothing after a `raise` runs (00_scope.md R12). -/
def Res.andThen {σ α β : Type} (r : Res σ α) (f : α → σ → Res σ β) : Res σ β :=
  match r with
  | .ok v s => f v s
  | .raise e s => .raise e s
  | .stuck => .stuck

/-- Put a component back into what it is a part of. -/
def Res.lift {σ τ α : Type} (r : Res σ α) (put : σ → τ) : Res τ α :=
  match r with
  | .ok v s => .ok v (put s)
  | .raise e s => .raise e (put s)
  | .stuck => .stuck

/-! ## Device calls (20_memory.md R71 to R76) -/

/-- The answer of a device call: a value, or failure (20_memory.md R73). -/
inductive Call (α : Type) where
  | answered (v : α) (d : Devices)
  | failed (d : Devices)
  deriving DecidableEq, Repr

/-- Take the next draw: does this call fail, and what does the source hold now (log 5). -/
def Devices.draw (d : Devices) : Bool × Devices :=
  match d.draws with
  | [] => (false, d)
  | x :: xs => (x.fails, { d with draws := xs, src := x.source.getD d.src })

/-- Add a call to the list of calls (20_memory.md R55). -/
def Devices.log (d : Devices) (c : DevCall) : Devices := { d with calls := c :: d.calls }

/-- One device call: if it fails it changes no position and no content (R73), else `k` says what it does. -/
def Devices.call {α : Type} (d : Devices) (kind : CallKind) (k : Devices → Call α) : Call α :=
  if d.draw.1 then .failed (d.draw.2.log (.failed kind)) else k d.draw.2

/-- `SrcRewind()` (20_memory.md R72). -/
def Devices.srcRewind (d : Devices) : Call Unit :=
  d.call .srcRewind fun d => .answered () ({ d with src := { d.src with pos := 0 } }.log .srcRewind)

/-- `SrcNext()` (20_memory.md R71): the byte at the position, which moves on, or end of input, which does not move it.
A position past the end also answers end of input (log 17). -/
def Devices.srcNext (d : Devices) : Call SrcAnswer :=
  d.call .srcNext fun d =>
    match d.src.bytes[d.src.pos]? with
    | none => .answered .eoi (d.log (.srcNext .eoi))
    | some v => .answered (.byte v) ({ d with src := { d.src with pos := d.src.pos + 1 } }.log (.srcNext (.byte v)))

/-- `SinkWrite(v)` (20_memory.md R75). -/
def Devices.sinkWrite (v : Byte) (d : Devices) : Call Unit :=
  d.call .sinkWrite fun d =>
    .answered () ({ d with sink := { d.sink with bytes := d.sink.bytes ++ [v] } }.log (.sinkWrite v))

/-- `SinkFlush()` (20_memory.md R76): the bytes do not change. -/
def Devices.sinkFlush (d : Devices) : Call Unit :=
  d.call .sinkFlush fun d =>
    .answered () ({ d with sink := { d.sink with flushes := d.sink.flushes + 1 } }.log .sinkFlush)

/-- The devices a call hands back, however it was answered. -/
def Call.devices {α : Type} : Call α → Devices
  | .answered _ d => d
  | .failed d => d

/-- Make a call of the list of calls again; one that failed took its draw and did nothing else (20_memory.md R73). -/
def Devices.again (d : Devices) : DevCall → Devices
  | .srcRewind => d.srcRewind.devices
  | .srcNext _ => d.srcNext.devices
  | .sinkWrite v => (d.sinkWrite v).devices
  | .sinkFlush => d.sinkFlush.devices
  | .failed kind => d.draw.2.log (.failed kind)

/-- Make calls again, oldest first. -/
def Devices.replay (d : Devices) (cs : List DevCall) : Devices := cs.foldl Devices.again d

/-- The most bytes `SrcNext` can still answer before it says end of input: those left in the source, and those of every
source a draw may put in its place. The bound of every loop over the source (log 13). -/
def Devices.bytesAhead (d : Devices) : Nat :=
  (d.src.bytes.length - d.src.pos) +
    (d.draws.map fun x => match x.source with | none => 0 | some c => c.bytes.length - c.pos).sum

/-! ## The bit buffer (40_bitbuffer.md R96 to R100) -/

/-- The bits of a byte, most significant first: `bits8(v)` (00_scope.md R10). -/
def bits8 (v : Byte) : List Bool :=
  [v.getLsbD 7, v.getLsbD 6, v.getLsbD 5, v.getLsbD 4, v.getLsbD 3, v.getLsbD 2, v.getLsbD 1, v.getLsbD 0]

/-- BB_LEN (10_state.md R44). -/
def BitBuf.len (q : BitBuf) : Nat := q.content.length

/-- `BBAppend(b)`, none where the storage is full (40_bitbuffer.md R96). The bit overwrites the storage bit it lands on. -/
def BitBuf.append (cap : Nat) (b : Bool) (q : BitBuf) : Option BitBuf :=
  if q.len = cap then none else some { content := q.content ++ [b], stale := q.stale.tail }

/-- Append bits one after another; the bits before a full buffer stay (42_header.md R120, 60_exceptions.md R155). -/
def BitBuf.appendAll (cap : Nat) : List Bool → BitBuf → Res BitBuf Unit
  | [], q => .ok () q
  | b :: bs, q =>
    match q.append cap b with
    | none => .raise .allocationError q
    | some q' => BitBuf.appendAll cap bs q'

/-- `BBGet(i)`, none where `i ≥ BB_LEN` (40_bitbuffer.md R97). -/
def BitBuf.get (q : BitBuf) (i : Nat) : Option Bool := q.content[i]?

/-- `BBRemoveLast()`: no effect on an empty buffer; the vacated storage bit is cleared (40_bitbuffer.md R98). -/
def BitBuf.removeLast (q : BitBuf) : BitBuf :=
  if q.len = 0 then q else { content := q.content.dropLast, stale := false :: q.stale }

/-- `BBClear()`: the length becomes 0, the storage stays as it was (40_bitbuffer.md R99). -/
def BitBuf.clear (q : BitBuf) : BitBuf := { content := [], stale := q.content ++ q.stale }

/-- `ceil(n/8)` (00_scope.md R11). -/
def ceilDiv8 (n : Nat) : Nat := (n + 7) / 8

/-- Byte `j` of a packed bit sequence: bit `8·j + t` is bit `7 - t` of the byte, and a bit beyond the end is 0
(40_bitbuffer.md R100, 20_memory.md R57). -/
def packedByte (bits : List Bool) (j : Nat) : Byte :=
  BitVec.ofBoolListBE [bits.getD (8 * j) false, bits.getD (8 * j + 1) false, bits.getD (8 * j + 2) false,
    bits.getD (8 * j + 3) false, bits.getD (8 * j + 4) false, bits.getD (8 * j + 5) false,
    bits.getD (8 * j + 6) false, bits.getD (8 * j + 7) false]

/-- A bit sequence packed into `ceil(n/8)` bytes, the last one padded with zeros (30_encoding.md R89). -/
def packBytes (bits : List Bool) : List Byte := (List.range (ceilDiv8 bits.length)).map (packedByte bits)

/-- `BBRawBytes()` (40_bitbuffer.md R100). -/
def BitBuf.rawBytes (q : BitBuf) : List Byte := packBytes q.content

/-! ## Nodes and the priority list (41_tree_builder.md R107 to R111) -/

/-- `isLeaf(n)` (00_scope.md R13). -/
def Node.isLeaf : Node → Bool
  | .leaf _ _ => true
  | .internal _ _ _ => false

/-- The weight of a node, 0 for a node of the decoder, which carries none and which no rule weighs (log 11). -/
def Node.weight : Node → Nat
  | .leaf _ w => w.getD 0
  | .internal w _ _ => w.getD 0

/-- The child a step takes: left on 0, right on 1 (45_decoder.md R143). A leaf has no child and stays itself; the walk
never asks it. -/
def Node.child : Node → Bool → Node
  | .leaf sym w, _ => .leaf sym w
  | .internal _ l _, false => l
  | .internal _ _ r, true => r

/-- `PLInsert(n)`: after every item of weight at most `n.w`, before the first heavier one (41_tree_builder.md R107). -/
def plInsert (n : Node) : List Node → List Node
  | [] => [n]
  | x :: xs => if x.weight ≤ n.weight then x :: plInsert n xs else n :: x :: xs

/-- `PLRemoveLowest()`: the first item and the rest, none (EMPTY) on the empty list (41_tree_builder.md R108). -/
def plRemoveLowest : List Node → Option (Node × List Node)
  | [] => none
  | x :: xs => some (x, xs)

/-- `AllocNode()`: the new NCOUNT, none where the node store is full (41_tree_builder.md R111). -/
def allocNode (cap count : Nat) : Option Nat := if count = cap then none else some (count + 1)

/-- The 256 byte values in ascending order (00_scope.md R7). -/
def allBytes : List Byte := (List.range 256).map (BitVec.ofNat 8)

/-! ## Ending a command (60_exceptions.md R152 to R155) and leaving the failed state (46_control.md R149) -/

/-- `finish(v)` (60_exceptions.md R152). -/
def finish (v : Word) (s : State) : State := { s with result := v, errcode := .none, busy := false }

/-- `raise E` of a direct command, and ILLEGAL_COMMAND and SEQUENCE_ERROR of any command (60_exceptions.md R153, R154):
nothing changes but RESULT, ERRCODE and BUSY. -/
def raiseDirect (e : ErrCode) (s : State) : State := { s with result := 0#32, errcode := e, busy := false }

/-- `raise E` in the body of a pipeline command (60_exceptions.md R153, R155): the operation is aborted. -/
def raisePipeline (e : ErrCode) (s : State) : State :=
  { s with result := 0#32, errcode := e, opstate := .failed, operr := e, busy := false }

/-- The way back to IDLE from any state, the failed one included (46_control.md R149, 60_exceptions.md R162). -/
def clearOperation (s : State) : State := { s with opstate := .idle, operr := .none, overrun := false }

/-- The OPSTATE values each command may start in (10_state.md R34). -/
def mayStart : Instr → OpState → Bool
  | .eCount, o | .encode, o | .dHeader, o | .decode, o => o == .idle
  | .eBuild, o => o == .eFreqCounted
  | .eTable, o => o == .eTreeBuilt
  | .eHeader, o => o == .eTableBuilt
  | .ePayload, o => o == .eHeaderWritten
  | .eFlush, o => o == .ePayloadWritten
  | .dPayload, o => o == .dHeaderParsed
  | .dFinish, o => o == .dPayloadDecoded
  | .freqRead _, o =>
    o == .eFreqCounted || o == .eTreeBuilt || o == .eTableBuilt || o == .eHeaderWritten || o == .ePayloadWritten ||
      o == .eDone
  | .cwLen _, o | .cwBit _ _, o => o == .eTableBuilt || o == .eHeaderWritten || o == .ePayloadWritten || o == .eDone
  | .clear, _ | .bbClear, _ | .bbAppend _, _ | .bbRemoveLast, _ | .bbGet _, _ | .bbReadByte _, _ => true

/-- End a command whose body has run: by `finish` with its value, or by the command's kind of `raise`. -/
def endCommand (onError : ErrCode → State → State) : Res State Word → Host.Outcome State Fault Refusal
  | .ok v s => .next (finish v s)
  | .raise e s => .next (onError e s)
  | .stuck => .fault .loopBound

/-- Run a direct command (00_scope.md R14): the OPSTATE check of 30_encoding.md R80, then its body. -/
def runDirect (i : Instr) (body : State → Res State Word) (s : State) : Host.Outcome State Fault Refusal :=
  if mayStart i s.opstate then endCommand raiseDirect (body s) else .next (raiseDirect .sequenceError s)

/-- Run a pipeline command (00_scope.md R14): the OPSTATE check of 30_encoding.md R80, then its body, whose errors abort
the operation. -/
def runPipeline (i : Instr) (body : State → Res State Word) (s : State) : Host.Outcome State Fault Refusal :=
  if mayStart i s.opstate then endCommand raisePipeline (body s) else .next (raiseDirect .sequenceError s)

end Sys2Proof.Machine
end

