-- ==== Sys2Proof/Machine/Operands.lean ====
section
/-! DEFINITION. What an operand names: a symbol, a frequency counter, a codeword entry (30_encoding.md R83 to R86,
10_state.md R37, R42). The decoder takes the fields out of ARG; the bit buffer's own indices are in Ops.lean. -/

namespace Sys2Proof.Machine

/-- The number of a symbol, 0 to 256 (00_scope.md R7). -/
def Sym.index : Sym → Fin 257
  | .byte v => ⟨v.toNat, Nat.lt_succ_of_lt v.isLt⟩
  | .eos => 256

/-- The symbol a SYM or SYMIDX operand names, none for 257 to 511 (30_encoding.md R85). -/
def symOf (s : BitVec 9) : Option Sym :=
  if s.toNat < 256 then some (.byte (s.setWidth 8)) else if s.toNat = 256 then some .eos else none

/-- `FREQ[s]` (10_state.md R37). -/
def freqAt (f : Vector Nat 256) (s : Byte) : Nat := f[s.toNat]'s.isLt

/-- `FREQ[s] <- FREQ[s] + 1` (41_tree_builder.md R114). -/
def freqBump (f : Vector Nat 256) (s : Byte) : Vector Nat 256 := f.set s.toNat (freqAt f s + 1) s.isLt

/-- `CW[s]`: the codeword, none where absent (10_state.md R42). -/
def cwAt (t : Vector (Option (List Bool)) 257) (s : Sym) : Option (List Bool) := t[s.index]

/-- `CW[s] <- (present = 1, len, bits)` (43_codeword_table.md R127). -/
def cwSet (t : Vector (Option (List Bool)) 257) (s : Sym) (bits : List Bool) : Vector (Option (List Bool)) 257 :=
  t.set s.index (some bits)

/-- `(CW[s].present << 31) | CW[s].len` (43_codeword_table.md R129): bit 31 present, bits 8:0 the length, an absent
entry 0 (log 20). -/
def cwLenWord : Option (List Bool) → Word
  | none => 0#32
  | some bits => 0x80000000#32 ||| (BitVec.ofNat 9 bits.length).setWidth 32

/-- `zext_32` of one bit (00_scope.md R9). -/
def bitWord (b : Bool) : Word := if b then 1#32 else 0#32

end Sys2Proof.Machine
end

