-- ==== Sys2Proof/Machine/Flags.lean ====
section
/-! DEFINITION. STATUS and its fields (10_state.md R20 to R27), and the numbers of the error codes and operation states. -/

namespace Sys2Proof.Machine

/-- The number of an error code (60_exceptions.md R157). -/
def ErrCode.code : ErrCode → BitVec 4
  | .none => 0#4
  | .ioError => 1#4
  | .malformedHeader => 2#4
  | .truncatedPayload => 3#4
  | .allocationError => 4#4
  | .boundsError => 5#4
  | .illegalCommand => 6#4
  | .sequenceError => 7#4
  | .counterOverflow => 8#4
  | .sourceMismatch => 9#4

/-- The number of an operation state (10_state.md R33). -/
def OpState.code : OpState → BitVec 4
  | .idle => 0#4
  | .eFreqCounted => 1#4
  | .eTreeBuilt => 2#4
  | .eTableBuilt => 3#4
  | .eHeaderWritten => 4#4
  | .ePayloadWritten => 5#4
  | .eDone => 6#4
  | .dHeaderParsed => 7#4
  | .dPayloadDecoded => 8#4
  | .dDone => 9#4
  | .failed => 15#4

/-- A STATUS word from its fields (10_state.md R20): ERR is `ERRCODE ≠ 0` (R22), bits 3 and 31:16 read 0 (R27). -/
def statusOf (busy overrun : Bool) (errcode opstate operr : BitVec 4) : Word :=
  0#16 ++ operr ++ opstate ++ errcode ++ 0#1 ++ BitVec.ofBool overrun ++ BitVec.ofBool (errcode != 0#4) ++
    BitVec.ofBool busy

/-- STATUS while BUSY = 0 (10_state.md R20). -/
def State.status (s : State) : Word :=
  statusOf s.busy s.overrun s.errcode.code s.opstate.code s.operr.code

/-- What a read of STATUS returns while BUSY = 1 when the free value drawn is `v` (10_state.md R30): BUSY and OVERRUN
read correctly, ERRCODE, OPSTATE and OPERR are bits of `v`, ERR follows the ERRCODE read (log 6). -/
def State.busyStatus (s : State) (v : Word) : Word :=
  statusOf true s.overrun (field v 4 4) (field v 8 4) (field v 12 4)

/-- BB_LEN as a register (10_state.md R29). -/
def State.bbLenWord (s : State) : Word := BitVec.ofNat 32 s.bb.len

end Sys2Proof.Machine
end

