-- ==== Sys2Proof/Machine/BitBuffer.lean ====
section
/-! DEFINITION. The five bit-buffer commands (40_bitbuffer.md section 2). -/

namespace Sys2Proof.Machine

/-- BB_CLEAR (40_bitbuffer.md R102). -/
def execBbClear (s : State) : Host.Outcome State Fault Refusal :=
  runDirect .bbClear (fun s => .ok 0#32 { s with bb := s.bb.clear }) s

/-- BB_APPEND (40_bitbuffer.md R103). -/
def execBbAppend (b : Bool) (s : State) : Host.Outcome State Fault Refusal :=
  runDirect (.bbAppend b)
    (fun s =>
      match s.bb.append s.cfg.bbCap b with
      | none => .raise .allocationError s
      | some q => .ok 0#32 { s with bb := q }) s

/-- BB_REMOVE_LAST (40_bitbuffer.md R104). -/
def execBbRemoveLast (s : State) : Host.Outcome State Fault Refusal :=
  runDirect .bbRemoveLast (fun s => .ok 0#32 { s with bb := s.bb.removeLast }) s

/-- BB_GET (40_bitbuffer.md R105). -/
def execBbGet (i : Word) (s : State) : Host.Outcome State Fault Refusal :=
  runDirect (.bbGet i)
    (fun s =>
      match s.bb.get i.toNat with
      | none => .raise .boundsError s
      | some b => .ok (bitWord b) s) s

/-- BB_READ_BYTE (40_bitbuffer.md R106). -/
def execBbReadByte (j : Word) (s : State) : Host.Outcome State Fault Refusal :=
  runDirect (.bbReadByte j)
    (fun s =>
      if ceilDiv8 s.bb.len ≤ j.toNat then .raise .boundsError s
      else .ok ((packedByte s.bb.content j.toNat).setWidth 32) s) s

end Sys2Proof.Machine
end

