-- ==== Sys2Proof/Machine/Control.lean ====
section
/-! DEFINITION. The control command (46_control.md). -/

namespace Sys2Proof.Machine

/-- CLEAR (46_control.md R149). -/
def execClear (s : State) : Host.Outcome State Fault Refusal :=
  runDirect .clear (fun s => .ok 0#32 (clearOperation s)) s

end Sys2Proof.Machine
end

