-- ==== Sys2Proof/Machine/CodewordTable.lean ====
section
/-! DEFINITION. The codeword table generator (43_codeword_table.md): E_TABLE, CW_LEN and CW_BIT. -/

namespace Sys2Proof.Machine

/-- What E_TABLE's visit changes: CW, PATH and the count `m` of leaves. -/
structure Tabling where
  cw : Vector (Option (List Bool)) 257
  path : List Bool
  count : Nat
  deriving DecidableEq, Repr

/-- `PATH <- PATH ++ ⟨b⟩`. -/
def Tabling.push (b : Bool) (t : Tabling) : Tabling := { t with path := t.path ++ [b] }

/-- `PATH <- PATH` without its last bit. -/
def Tabling.pop (t : Tabling) : Tabling := { t with path := t.path.dropLast }

/-- `Visit(n)` (43_codeword_table.md R127). -/
def visit : Node → Tabling → Tabling
  | .leaf sym _, t => { t with cw := cwSet t.cw sym t.path, count := t.count + 1 }
  | .internal _ l r, t => (visit r ((visit l (t.push false)).pop.push true)).pop

/-- The body of E_TABLE (43_codeword_table.md R127). -/
def bodyETable (s : State) : Res State Word :=
  let t := visit s.root { cw := Vector.replicate 257 none, path := [], count := 0 }
  .ok (BitVec.ofNat 32 t.count) { s with cw := t.cw, path := t.path, opstate := .eTableBuilt }

/-- E_TABLE (43_codeword_table.md R127). -/
def execETable (s : State) : Host.Outcome State Fault Refusal := runPipeline .eTable bodyETable s

/-- CW_LEN (43_codeword_table.md R129). -/
def execCwLen (n : BitVec 9) (s : State) : Host.Outcome State Fault Refusal :=
  runDirect (.cwLen n)
    (fun s =>
      match symOf n with
      | none => .raise .boundsError s
      | some sym => .ok (cwLenWord (cwAt s.cw sym)) s) s

/-- CW_BIT (43_codeword_table.md R130). -/
def execCwBit (n : BitVec 9) (k : Byte) (s : State) : Host.Outcome State Fault Refusal :=
  runDirect (.cwBit n k)
    (fun s =>
      match symOf n with
      | none => .raise .boundsError s
      | some sym =>
        match cwAt s.cw sym with
        | none => .raise .boundsError s
        | some bits =>
          match bits[k.toNat]? with
          | none => .raise .boundsError s
          | some b => .ok (bitWord b) s) s

end Sys2Proof.Machine
end

