-- ==== Sys2Proof/Machine/TreeBuilder.lean ====
section
/-! DEFINITION. The tree builder (41_tree_builder.md): E_COUNT, E_BUILD and FREQ_READ. -/

namespace Sys2Proof.Machine

/-! ## E_COUNT (R114) -/

/-- What the counting loop changes. -/
structure Counting where
  dev : Devices
  freq : Vector Nat 256
  deriving DecidableEq, Repr

/-- The loop of E_COUNT (41_tree_builder.md R114) with `n` bytes counted so far; answers the final `n`. -/
def countLoop (maxW : Nat) : Nat → Nat → Counting → Res Counting Nat
  | 0, _, _ => .stuck
  | fuel + 1, n, c =>
    match c.dev.srcNext with
    | .failed d => .raise .ioError { c with dev := d }
    | .answered .eoi d => .ok n { c with dev := d }
    | .answered (.byte v) d =>
      if n = maxW - 1 then .raise .counterOverflow { c with dev := d }
      else countLoop maxW fuel (n + 1) { dev := d, freq := freqBump c.freq v }

/-- The body of E_COUNT (41_tree_builder.md R114). -/
def bodyECount (s : State) : Res State Word :=
  match s.dev.srcRewind with
  | .failed d => .raise .ioError { s with dev := d }
  | .answered _ d =>
    ((countLoop s.cfg.maxW (d.bytesAhead + 1) 0 { dev := d, freq := Vector.replicate 256 0 }).lift
      fun c => { s with dev := c.dev, freq := c.freq }).andThen
      fun n s => .ok (BitVec.ofNat 32 n) { s with n1 := n, opstate := .eFreqCounted }

/-- E_COUNT (41_tree_builder.md R114). -/
def execECount (s : State) : Host.Outcome State Fault Refusal := runPipeline .eCount bodyECount s

/-! ## E_BUILD (R115) -/

/-- What building the tree changes. -/
structure Builder where
  pl : List Node
  nodeCount : Nat
  deriving DecidableEq, Repr

/-- `PLInsert` of a new node: allocate it, then insert it (41_tree_builder.md R111, R107). -/
def insertNew (cap : Nat) (n : Node) (b : Builder) : Res Builder Unit :=
  match allocNode cap b.nodeCount with
  | none => .raise .allocationError b
  | some k => .ok () { pl := plInsert n b.pl, nodeCount := k }

/-- Step 1 of E_BUILD: a leaf for each byte value that occurs (41_tree_builder.md R115). -/
def insertLeaves (cap : Nat) (f : Vector Nat 256) : List Byte → Builder → Res Builder Unit
  | [], b => .ok () b
  | v :: vs, b =>
    if freqAt f v ≠ 0 then
      (insertNew cap (.leaf (.byte v) (some (freqAt f v))) b).andThen fun _ b => insertLeaves cap f vs b
    else insertLeaves cap f vs b

/-- Step 3 of E_BUILD: while the list has two items, merge the two lowest, the one removed first to the left
(41_tree_builder.md R115). -/
def mergeLoop (cap : Nat) : Nat → Builder → Res Builder Unit
  | 0, b => if b.pl.length > 1 then .stuck else .ok () b
  | fuel + 1, b =>
    match b.pl with
    | [] => .ok () b
    | [_] => .ok () b
    | a :: c :: rest =>
      (insertNew cap (.internal (some (a.weight + c.weight)) a c) { b with pl := rest }).andThen
        fun _ b => mergeLoop cap fuel b

/-- Steps 1 to 3 of E_BUILD, from `NCOUNT <- 0; PL <- ⟨⟩` (41_tree_builder.md R115). -/
def buildList (cap : Nat) (f : Vector Nat 256) : Res Builder Unit :=
  (insertLeaves cap f allBytes { pl := [], nodeCount := 0 }).andThen fun _ b =>
    (insertNew cap (.leaf .eos (some 1)) b).andThen fun _ b => mergeLoop cap b.pl.length b

/-- The body of E_BUILD (41_tree_builder.md R115). -/
def bodyEBuild (s : State) : Res State Word :=
  ((buildList s.cfg.nodeCap s.freq).lift fun b => { s with pl := b.pl, nodeCount := b.nodeCount }).andThen fun _ s =>
    match plRemoveLowest s.pl with
    | none => .stuck
    | some (n, rest) => .ok (BitVec.ofNat 32 n.weight) { s with root := n, pl := rest, opstate := .eTreeBuilt }

/-- E_BUILD (41_tree_builder.md R115). -/
def execEBuild (s : State) : Host.Outcome State Fault Refusal := runPipeline .eBuild bodyEBuild s

/-! ## FREQ_READ (R119) -/

/-- FREQ_READ (41_tree_builder.md R119). -/
def execFreqRead (v : Byte) (s : State) : Host.Outcome State Fault Refusal :=
  runDirect (.freqRead v) (fun s => .ok (BitVec.ofNat 32 (freqAt s.freq v)) s) s

end Sys2Proof.Machine
end

