-- ==== Sys2Proof/Machine/Encoder.lean ====
section
/-! DEFINITION. The bitstream encoder (44_encoder.md): E_HEADER, E_PAYLOAD, E_FLUSH and ENCODE, and the header writer
(42_header.md R120). -/

namespace Sys2Proof.Machine

/-! ## E_HEADER (R132) -/

/-- `WriteNode(n)` (42_header.md R120). -/
def writeNode (cap : Nat) : Node → BitBuf → Res BitBuf Unit
  | .internal _ l r, q =>
    (q.appendAll cap [false]).andThen fun _ q => (writeNode cap l q).andThen fun _ q => writeNode cap r q
  | .leaf .eos _, q => q.appendAll cap [true, true]
  | .leaf (.byte v) _, q => q.appendAll cap ([true, false] ++ bits8 v)

/-- The body of E_HEADER (44_encoder.md R132). -/
def bodyEHeader (s : State) : Res State Word :=
  ((writeNode s.cfg.bbCap s.root s.bb.clear).lift fun q => { s with bb := q }).andThen fun _ s =>
    .ok s.bbLenWord { s with opstate := .eHeaderWritten }

/-- E_HEADER (44_encoder.md R132). -/
def execEHeader (s : State) : Host.Outcome State Fault Refusal := runPipeline .eHeader bodyEHeader s

/-! ## E_PAYLOAD (R133) -/

/-- What the payload loop changes. -/
structure Filling where
  dev : Devices
  bb : BitBuf
  deriving DecidableEq, Repr

/-- The loop of E_PAYLOAD (44_encoder.md R133) with `n` bytes appended so far; answers the final `n`. -/
def fillLoop (cap n1 : Nat) (cw : Vector (Option (List Bool)) 257) : Nat → Nat → Filling → Res Filling Nat
  | 0, _, _ => .stuck
  | fuel + 1, n, c =>
    match c.dev.srcNext with
    | .failed d => .raise .ioError { c with dev := d }
    | .answered .eoi d => .ok n { c with dev := d }
    | .answered (.byte v) d =>
      if n = n1 then .raise .sourceMismatch { c with dev := d }
      else
        match cwAt cw (.byte v) with
        | none => .raise .sourceMismatch { c with dev := d }
        | some bits =>
          ((c.bb.appendAll cap bits).lift fun q => { dev := d, bb := q }).andThen
            fun _ c => fillLoop cap n1 cw fuel (n + 1) c

/-- The bits `CW[EOS].bits[0 .. CW[EOS].len-1]`: none where the entry is absent, whose length is 0 (10_state.md R42). -/
def eosBits (cw : Vector (Option (List Bool)) 257) : List Bool := (cwAt cw .eos).getD []

/-- The body of E_PAYLOAD (44_encoder.md R133). -/
def bodyEPayload (s : State) : Res State Word :=
  match s.dev.srcRewind with
  | .failed d => .raise .ioError { s with dev := d }
  | .answered _ d =>
    ((fillLoop s.cfg.bbCap s.n1 s.cw (d.bytesAhead + 1) 0 { dev := d, bb := s.bb }).lift
      fun c => { s with dev := c.dev, bb := c.bb }).andThen fun n s =>
      if n ≠ s.n1 then .raise .sourceMismatch s
      else
        ((s.bb.appendAll s.cfg.bbCap (eosBits s.cw)).lift fun q => { s with bb := q }).andThen fun _ s =>
          .ok s.bbLenWord { s with opstate := .ePayloadWritten }

/-- E_PAYLOAD (44_encoder.md R133). -/
def execEPayload (s : State) : Host.Outcome State Fault Refusal := runPipeline .ePayload bodyEPayload s

/-! ## E_FLUSH (R134) -/

/-- `SinkWrite` of each byte in order (44_encoder.md R134). -/
def writeAll : List Byte → Devices → Res Devices Unit
  | [], d => .ok () d
  | v :: vs, d =>
    match d.sinkWrite v with
    | .failed d => .raise .ioError d
    | .answered _ d => writeAll vs d

/-- `SinkFlush`, raising IO_ERROR where it fails (20_memory.md R76). -/
def flushSink (d : Devices) : Res Devices Unit :=
  match d.sinkFlush with
  | .failed d => .raise .ioError d
  | .answered _ d => .ok () d

/-- The body of E_FLUSH (44_encoder.md R134). -/
def bodyEFlush (s : State) : Res State Word :=
  (((writeAll s.bb.rawBytes s.dev).andThen fun _ d => flushSink d).lift fun d => { s with dev := d }).andThen fun _ s =>
    .ok (BitVec.ofNat 32 s.bb.rawBytes.length) { s with opstate := .eDone }

/-- E_FLUSH (44_encoder.md R134). -/
def execEFlush (s : State) : Host.Outcome State Fault Refusal := runPipeline .eFlush bodyEFlush s

/-! ## ENCODE (R135) -/

/-- The body of ENCODE: the six bodies in a row, each inner `finish` only going on (44_encoder.md R135). -/
def bodyEncode (s : State) : Res State Word :=
  (bodyECount s).andThen fun _ s => (bodyEBuild s).andThen fun _ s => (bodyETable s).andThen fun _ s =>
    (bodyEHeader s).andThen fun _ s => (bodyEPayload s).andThen fun _ s => bodyEFlush s

/-- ENCODE (44_encoder.md R135). -/
def execEncode (s : State) : Host.Outcome State Fault Refusal := runPipeline .encode bodyEncode s

end Sys2Proof.Machine
end

