-- ==== Sys2Proof/Machine/Decoder.lean ====
section
/-! DEFINITION. The bitstream decoder (45_decoder.md): D_HEADER, D_PAYLOAD, D_FINISH and DECODE, the bit supply (R139)
and the header reader (42_header.md R123). -/

namespace Sys2Proof.Machine

/-! ## The bit supply (R139, R140) -/

/-- Which error the end of the source is (45_decoder.md R139). -/
inductive BitCtx where
  | hdr | pay
  deriving DecidableEq, Repr

/-- MALFORMED_HEADER while the header is read, TRUNCATED_PAYLOAD while the payload is. -/
def BitCtx.endError : BitCtx → ErrCode
  | .hdr => .malformedHeader
  | .pay => .truncatedPayload

/-- The bit supply: the devices and the cursor (10_state.md R45). -/
structure Supply where
  dev : Devices
  dcur : Byte
  dcnt : Fin 9
  dbits : Word
  deriving DecidableEq, Repr

/-- Take bit `k` of the current byte, which leaves `k` bits of it (45_decoder.md R139). -/
def Supply.take (u : Supply) (k : Nat) (h : k < 9) : Res Supply Bool :=
  .ok (u.dcur.getLsbD k) { u with dcnt := ⟨k, h⟩, dbits := u.dbits + 1#32 }

/-- `ReadBit(ctx)` (45_decoder.md R139): a byte is pulled only when a bit is wanted and none is left. -/
def readBit (ctx : BitCtx) (u : Supply) : Res Supply Bool :=
  match u.dcnt with
  | ⟨k + 1, h⟩ => u.take k (Nat.lt_of_succ_lt h)
  | ⟨0, _⟩ =>
    match u.dev.srcNext with
    | .failed d => .raise .ioError { u with dev := d }
    | .answered .eoi d => .raise ctx.endError { u with dev := d }
    | .answered (.byte v) d => Supply.take { u with dev := d, dcur := v } 7 (by decide)

/-- The most bits the supply can still give: the bound of every loop over it (log 13). -/
def Supply.bitsAhead (u : Supply) : Nat := u.dcnt.val + 8 * u.dev.bytesAhead

/-- The supply of a state. -/
def State.supply (s : State) : Supply := { dev := s.dev, dcur := s.dcur, dcnt := s.dcnt, dbits := s.dbits }

/-- Put a supply back into the state. -/
def State.putSupply (s : State) (u : Supply) : State :=
  { s with dev := u.dev, dcur := u.dcur, dcnt := u.dcnt, dbits := u.dbits }

/-! ## D_HEADER (R142) -/

/-- What reading a header changes. -/
structure Reading where
  sup : Supply
  nodeCount : Nat
  deriving DecidableEq, Repr

/-- `ReadBit(HDR)`. -/
def Reading.bit (r : Reading) : Res Reading Bool := (readBit .hdr r.sup).lift fun u => { r with sup := u }

/-- `AllocNode()` (41_tree_builder.md R111). -/
def Reading.alloc (cap : Nat) (r : Reading) : Res Reading Unit :=
  match allocNode cap r.nodeCount with
  | none => .raise .allocationError r
  | some k => .ok () { r with nodeCount := k }

/-- `repeat n times: v <- 2*v + ReadBit(HDR)` (42_header.md R123). -/
def readByteBits : Nat → Byte → Reading → Res Reading Byte
  | 0, v, r => .ok v r
  | n + 1, v, r => r.bit.andThen fun b r => readByteBits n (v + v + (BitVec.ofBool b).setWidth 8) r

/-- `ReadNode()` (42_header.md R123): the type bit, then the node, then the rest of its record. -/
def readNode (cap : Nat) : Nat → Reading → Res Reading Node
  | 0, _ => .stuck
  | fuel + 1, r =>
    r.bit.andThen fun t r => (r.alloc cap).andThen fun _ r =>
      if t = false then
        (readNode cap fuel r).andThen fun left r => (readNode cap fuel r).andThen fun right r =>
          .ok (.internal none left right) r
      else
        r.bit.andThen fun e r =>
          if e then .ok (.leaf .eos none) r
          else (readByteBits 8 0#8 r).andThen fun v r => .ok (.leaf (.byte v) none) r

/-- A root on which the payload walk would emit without reading (45_decoder.md R142, R148). -/
def Node.isByteLeaf : Node → Bool
  | .leaf (.byte _) _ => true
  | .leaf .eos _ => false
  | .internal _ _ _ => false

/-- The body of D_HEADER (45_decoder.md R142). -/
def bodyDHeader (s : State) : Res State Word :=
  match s.dev.srcRewind with
  | .failed d => .raise .ioError { s with dev := d }
  | .answered _ d =>
    let r : Reading := { sup := { dev := d, dcur := s.dcur, dcnt := 0, dbits := 0#32 }, nodeCount := 0 }
    ((readNode s.cfg.nodeCap (r.sup.bitsAhead + 1) r).lift
      fun r => { s.putSupply r.sup with nodeCount := r.nodeCount }).andThen fun n s =>
      if n.isByteLeaf then .raise .malformedHeader { s with root := n }
      else .ok s.dbits { s with root := n, opstate := .dHeaderParsed }

/-- D_HEADER (45_decoder.md R142). -/
def execDHeader (s : State) : Host.Outcome State Fault Refusal := runPipeline .dHeader bodyDHeader s

/-! ## D_PAYLOAD (R143) -/

/-- What the payload walk changes. -/
structure Walk where
  sup : Supply
  dnode : Node
  dout : Word
  deriving DecidableEq, Repr

/-- `ReadBit(PAY)`. -/
def Walk.bit (w : Walk) : Res Walk Bool := (readBit .pay w.sup).lift fun u => { w with sup := u }

/-- The loop of D_PAYLOAD (45_decoder.md R143). -/
def walkLoop (root : Node) : Nat → Walk → Res Walk Unit
  | 0, _ => .stuck
  | fuel + 1, w =>
    w.bit.andThen fun b w =>
      match w.dnode.child b with
      | .internal x l r => walkLoop root fuel { w with dnode := .internal x l r }
      | .leaf .eos x => .ok () { w with dnode := .leaf .eos x }
      | .leaf (.byte v) x =>
        match w.sup.dev.sinkWrite v with
        | .failed d => .raise .ioError { w with sup := { w.sup with dev := d }, dnode := .leaf (.byte v) x }
        | .answered _ d => walkLoop root fuel { sup := { w.sup with dev := d }, dnode := root, dout := w.dout + 1#32 }

/-- The body of D_PAYLOAD (45_decoder.md R143). -/
def bodyDPayload (s : State) : Res State Word :=
  let w : Walk := { sup := s.supply, dnode := s.root, dout := 0#32 }
  let walked : Res Walk Unit := if s.root.isLeaf then .ok () w else walkLoop s.root (s.supply.bitsAhead + 1) w
  (walked.lift fun w => { s.putSupply w.sup with dnode := w.dnode, dout := w.dout }).andThen fun _ s =>
    .ok s.dout { s with opstate := .dPayloadDecoded }

/-- D_PAYLOAD (45_decoder.md R143). -/
def execDPayload (s : State) : Host.Outcome State Fault Refusal := runPipeline .dPayload bodyDPayload s

/-! ## D_FINISH (R144) and DECODE (R145) -/

/-- The body of D_FINISH (45_decoder.md R144). -/
def bodyDFinish (s : State) : Res State Word :=
  ((flushSink s.dev).lift fun d => { s with dev := d }).andThen fun _ s => .ok s.dout { s with opstate := .dDone }

/-- D_FINISH (45_decoder.md R144). -/
def execDFinish (s : State) : Host.Outcome State Fault Refusal := runPipeline .dFinish bodyDFinish s

/-- The body of DECODE: the three bodies in a row (45_decoder.md R145). -/
def bodyDecode (s : State) : Res State Word :=
  (bodyDHeader s).andThen fun _ s => (bodyDPayload s).andThen fun _ s => bodyDFinish s

/-- DECODE (45_decoder.md R145). -/
def execDecode (s : State) : Host.Outcome State Fault Refusal := runPipeline .decode bodyDecode s

end Sys2Proof.Machine
end

