-- ==== Sys2Proof/Machine/Dispatch.lean ====
section
/-! DEFINITION. One arm per command of the opcode table (30_encoding.md R87). -/

namespace Sys2Proof.Machine

/-- What the engine does with an instruction whose word and operand the decoder has accepted (30_encoding.md R80). -/
def exec (i : Instr) (s : State) : Host.Outcome State Fault Refusal :=
  match i with
  | .clear => Sys2Proof.Machine.execClear s
  | .bbClear => Sys2Proof.Machine.execBbClear s
  | .bbAppend b => Sys2Proof.Machine.execBbAppend b s
  | .bbRemoveLast => Sys2Proof.Machine.execBbRemoveLast s
  | .bbGet n => Sys2Proof.Machine.execBbGet n s
  | .bbReadByte j => Sys2Proof.Machine.execBbReadByte j s
  | .eCount => Sys2Proof.Machine.execECount s
  | .eBuild => Sys2Proof.Machine.execEBuild s
  | .eTable => Sys2Proof.Machine.execETable s
  | .eHeader => Sys2Proof.Machine.execEHeader s
  | .ePayload => Sys2Proof.Machine.execEPayload s
  | .eFlush => Sys2Proof.Machine.execEFlush s
  | .encode => Sys2Proof.Machine.execEncode s
  | .dHeader => Sys2Proof.Machine.execDHeader s
  | .dPayload => Sys2Proof.Machine.execDPayload s
  | .dFinish => Sys2Proof.Machine.execDFinish s
  | .decode => Sys2Proof.Machine.execDecode s
  | .freqRead v => Sys2Proof.Machine.execFreqRead v s
  | .cwLen n => Sys2Proof.Machine.execCwLen n s
  | .cwBit n k => Sys2Proof.Machine.execCwBit n k s

end Sys2Proof.Machine
end

