-- ==== Sys2Proof/Machine/HostPort.lean ====
section
/-! DEFINITION. What host, engine and reset input do to HCORE: bus accesses (20_memory.md R50 to R54), the engine's turn
(R55), reset (70_reset_and_hazards.md R169), and the host's streams (20_memory.md R74, R78). -/

namespace Sys2Proof.Machine

/-! ## Register accesses -/

/-- The registers of the block (10_state.md R17), and its reserved offsets (20_memory.md R50). -/
inductive Reg where
  | cmd | arg | status | result | bbLen | reserved
  deriving DecidableEq, Repr

/-- The register at a word offset of the block (20_memory.md R50). -/
def regAt (offset : Nat) : Reg :=
  match offset with
  | 0x00 => .cmd
  | 0x04 => .arg
  | 0x08 => .status
  | 0x0C => .result
  | 0x10 => .bbLen
  | _ => .reserved

/-- Where a bus access of `n` bytes at `addr` goes: to a register, or nowhere the model gives a meaning to. -/
inductive Target where
  | reg (r : Reg)
  | refused (r : Refusal)
  deriving DecidableEq, Repr

/-- The bus admits only 4-byte accesses at multiples of 4 (20_memory.md R51); outside `P_BASE + 0x00` to
`P_BASE + 0xFF` an access is not addressed to HCORE (R50, log 7). -/
def busTarget (base addr n : Nat) : Target :=
  if n ≠ 4 then .refused .accessWidth
  else if addr % 4 ≠ 0 then .refused .misalignedAccess
  else if base ≤ addr ∧ addr < base + 256 then .reg (regAt (addr - base))
  else .refused .outsideBlock

/-- The value a register reads while BUSY = 0 (10_state.md R18 to R29, 20_memory.md R52). -/
def readReg (s : State) : Reg → Word
  | .cmd => 0#32
  | .arg => s.arg
  | .status => s.status
  | .result => s.result
  | .bbLen => s.bbLenWord
  | .reserved => 0#32

/-- The value a register reads while BUSY = 1 when the free value drawn is `v` (10_state.md R30). -/
def readRegBusy (s : State) (v : Word) : Reg → Word
  | .cmd => 0#32
  | .arg => s.arg
  | .status => s.busyStatus v
  | .result => v
  | .bbLen => v
  | .reserved => 0#32

/-- A host read: it changes no state of HCORE (20_memory.md R52); the value goes to the host. A read while BUSY = 1 draws
the next free value (10_state.md R30, log 6). -/
def busRead (r : Reg) (s : State) : State :=
  if s.busy then
    { s with busData := readRegBusy s (Config.busyRead s.busyReads) r, busyReads := s.busyReads + 1 }
  else { s with busData := readReg s r }

/-- A host write of a command word (20_memory.md R54): dropped and recorded while BUSY = 1, else latched with ARG. -/
def issue (v : Word) (s : State) : State :=
  if s.busy then { s with overrun := true }
  else { s with latch := some { word := v, arg := s.arg }, busy := true }

/-- A host write (20_memory.md R52). -/
def busWrite (r : Reg) (v : Word) (s : State) : State :=
  match r with
  | .cmd => issue v s
  | .arg => { s with arg := v }
  | .status => s
  | .result => s
  | .bbLen => s
  | .reserved => s

/-! ## The engine's turn -/

/-- Run the latched command from its start to its end (20_memory.md R55): the checks of 30_encoding.md R80, then the
instruction. With BUSY = 0 there is nothing to run. -/
def engineTurn (s : State) : Host.Outcome State Fault Refusal :=
  if s.busy then
    match s.latch with
    | none => .fault .busyWithEmptyLatch
    | some c =>
      match decode c with
      | .instr i => exec i s
      | .reject _ => .next (raiseDirect .illegalCommand s)
  else .next s

/-! ## Reset -/

/-- Every piece of state at its reset value; the devices, the parameters and what is still to happen are not HCORE's to
reset (70_reset_and_hazards.md R169, log 21). -/
def resetState (s : State) : State :=
  { State.reset with cfg := s.cfg, dev := s.dev, moves := s.moves, busData := s.busData, busyReads := s.busyReads }

/-- The devices as a running command leaves them when it is stopped after at most `k` device calls: the first `k` of the
calls it would make have been made, and no other (70_reset_and_hazards.md R169, log 21). -/
def devicesCutAt (k : Nat) (s : State) : Devices :=
  match engineTurn s with
  | .next t => s.dev.replay ((t.dev.calls.take (t.dev.calls.length - s.dev.calls.length)).reverse.take k)
  | .fault _ => s.dev
  | .refused _ => s.dev

/-- The reset input strikes (70_reset_and_hazards.md R169); a running command stops after at most `k` device calls. DESIGN
CHOICE (log 22, unsafe): the assertion and the release of reset are one move, so no host access falls while it is held
asserted; R169 does not say what one would do. -/
def hardReset (k : Nat) (s : State) : State :=
  if s.busy then resetState { s with dev := devicesCutAt k s } else resetState s

/-! ## A move -/

/-- What one move does (log 3). -/
def perform (m : Move) (s : State) : Host.Outcome State Fault Refusal :=
  match m with
  | .busRead addr n =>
    match busTarget s.cfg.base addr n with
    | .reg r => .next (busRead r s)
    | .refused e => .refused e
  | .busWrite addr n v =>
    match busTarget s.cfg.base addr n with
    | .reg r => .next (busWrite r v s)
    | .refused e => .refused e
  | .engine => engineTurn s
  | .reset k => .next (hardReset k s)
  | .attachSource c => .next { s with dev := { s.dev with src := c } }
  | .attachSink => .next { s with dev := { s.dev with sink := { bytes := [], flushes := 0 } } }

/-- What happens when no move is left: the engine runs a command that is latched, else HCORE keeps its state
(20_memory.md R56, 60_exceptions.md R168). -/
def performNext (s : State) : Host.Outcome State Fault Refusal :=
  match s.moves with
  | [] => engineTurn s
  | m :: ms => perform m { s with moves := ms }

end Sys2Proof.Machine
end

