-- ==== Sys2Proof/Machine/Step.lean ====
section
/-! DEFINITION. One step of HCORE, and how a command comes to be the next thing it runs (log 3, log 15). -/

namespace Sys2Proof.Machine

/-- One step: the next move, or the engine's turn if none is left. -/
def step (s : State) : Host.Outcome State Fault Refusal := performNext s

/-- `s` with a command word latched (with an operand word of zeros) and the engine to move next, as after the host's
write of that word to CMD (20_memory.md R54, log 15). A word that does not fit in CMD leaves `s` as it is. -/
def State.withFetchWord (s : State) (nbits w : Nat) : State :=
  match tableCommand nbits w with
  | none => s
  | some c => { s with latch := some c, busy := true, moves := .engine :: s.moves }

end Sys2Proof.Machine
end

