-- ==== Sys2Proof/Safety.lean ====
section
/-! DEFINITION. The terms statements are written in: the stream format, the tree and the codewords as plain functions of
the data they depend on, and the invariant a run keeps. No definition of the machine uses them. -/

namespace Sys2Proof.Machine

/-! ## Trees (00_scope.md R8, R14, 42_header.md R122) -/

/-- The number of nodes. -/
def Node.size : Node → Nat
  | .leaf _ _ => 1
  | .internal _ l r => l.size + r.size + 1

/-- For each bit of the header, whether it is the type bit of a node (42_header.md R120). -/
def Node.typeBits : Node → List Bool
  | .internal _ l r => true :: (l.typeBits ++ r.typeBits)
  | .leaf .eos _ => [true, false]
  | .leaf (.byte _) _ => true :: List.replicate 9 false

/-- How many nodes have their type bit among the first `k` bits of the header. -/
def Node.begun (n : Node) (k : Nat) : Nat := (n.typeBits.take k).count true

/-- The symbols of the leaves, left to right. -/
def Node.symbols : Node → List Sym
  | .leaf sym _ => [sym]
  | .internal _ l r => l.symbols ++ r.symbols

/-- The number of internal nodes. -/
def Node.internals : Node → Nat
  | .leaf _ _ => 0
  | .internal _ l r => l.internals + r.internals + 1

/-- The tree without its weights, as a decoder holds it (45_decoder.md R141). -/
def Node.bare : Node → Node
  | .leaf sym _ => .leaf sym none
  | .internal _ l r => .internal none l.bare r.bare

/-- Every internal node's weight is the sum of its children's weights (41_tree_builder.md R113). -/
def Node.WeightsAdd : Node → Prop
  | .leaf _ w => w ≠ none
  | .internal w l r => w = some (l.weight + r.weight) ∧ l.WeightsAdd ∧ r.WeightsAdd

/-- The header of a tree: its node records in pre-order (30_encoding.md R91). -/
def Node.header : Node → List Bool
  | .internal _ l r => false :: (l.header ++ r.header)
  | .leaf .eos _ => [true, true]
  | .leaf (.byte v) _ => [true, false] ++ bits8 v

/-- The codeword of a symbol: the path from the root to its leaf, 0 left and 1 right (30_encoding.md R92); none if no leaf
has it. Of several leaves with one symbol (a foreign tree), the last in left-to-right order counts. -/
def Node.codeword : Node → Sym → Option (List Bool)
  | .leaf sym _, x => if sym = x then some [] else none
  | .internal _ l r, x =>
    match r.codeword x with
    | some p => some (true :: p)
    | none => (l.codeword x).map (false :: ·)

/-- The codeword's bits, none for an absent symbol. -/
def Node.codeBits (n : Node) (x : Sym) : List Bool := (n.codeword x).getD []

/-- The payload and the EOS codeword (30_encoding.md R89). -/
def Node.payload (n : Node) (xs : List Byte) : List Bool :=
  xs.flatMap (fun v => n.codeBits (.byte v)) ++ n.codeBits .eos

/-- The compressed stream before its padding (30_encoding.md R89). -/
def Node.stream (n : Node) (xs : List Byte) : List Bool := n.header ++ n.payload xs

/-- The bits of a byte sequence, most significant bit of the first byte first (20_memory.md R57, R59). -/
def bitsOf (bs : List Byte) : List Bool := bs.flatMap bits8

/-! ## Counting and building (41_tree_builder.md R114 to R116) -/

/-- The frequency table of an input: how often each byte value occurs. -/
def countsOf (xs : List Byte) : Vector Nat 256 := Vector.ofFn fun i => xs.count (BitVec.ofNat 8 i.val)

/-- The sum of the counters. -/
def freqSum (f : Vector Nat 256) : Nat := (allBytes.map (freqAt f)).sum

/-- The leaves in the order E_BUILD inserts them: the bytes that occur, ascending, then EOS with weight 1 (R115, R116). -/
def initialLeaves (f : Vector Nat 256) : List Node :=
  ((allBytes.filter fun v => freqAt f v ≠ 0).map fun v => .leaf (.byte v) (some (freqAt f v))) ++ [.leaf .eos (some 1)]

/-- Insert nodes one after another. -/
def insertAll (ns pl : List Node) : List Node := ns.foldl (fun pl n => plInsert n pl) pl

/-- Merge the two lowest, at most `k` times. -/
def mergeAll : Nat → List Node → List Node
  | k + 1, a :: b :: rest => mergeAll k (plInsert (.internal (some (a.weight + b.weight)) a b) rest)
  | _, pl => pl

/-- The tree of a frequency table (R115). -/
def treeOf (f : Vector Nat 256) : Node :=
  (mergeAll (initialLeaves f).length (insertAll (initialLeaves f) [])).headD (.leaf .eos none)

/-- The codeword table of a tree (43_codeword_table.md R127). -/
def tableOf (n : Node) : Vector (Option (List Bool)) 257 :=
  Vector.ofFn fun i => if i.val < 256 then n.codeword (.byte (BitVec.ofNat 8 i.val)) else n.codeword .eos

/-! ## The devices -/

/-- No call will fail and nothing else changes the source (20_memory.md R73, R74). -/
abbrev Devices.Quiet (d : Devices) : Prop := d.draws = []

/-- The source after calls, oldest first, that the draws answered: what a draw puts in its place, at the start after a
rewind, one byte on after each byte (20_memory.md R71 to R74). -/
def Source.after : List DevCall → List Draw → Source → Source
  | [], _, c => c
  | x :: xs, ds, c =>
    let now := (ds.head?.bind Draw.source).getD c
    Source.after xs ds.tail
      (match x with
        | .srcRewind => { now with pos := 0 }
        | .srcNext (.byte _) => { now with pos := now.pos + 1 }
        | .srcNext .eoi | .sinkWrite _ | .sinkFlush | .failed _ => now)

/-- The bytes that calls, oldest first, wrote to the sink (20_memory.md R75). -/
def bytesWritten (cs : List DevCall) : List Byte :=
  cs.filterMap fun
    | .sinkWrite v => some v
    | .srcRewind | .srcNext _ | .sinkFlush | .failed _ => none

/-- What calls, oldest first, leave of the devices (20_memory.md R71 to R77): each took one draw. -/
def Devices.after (cs : List DevCall) (d : Devices) : Devices where
  src := Source.after cs d.draws d.src
  sink := { bytes := d.sink.bytes ++ bytesWritten cs, flushes := d.sink.flushes + cs.count .sinkFlush }
  draws := d.draws.drop cs.length
  calls := cs.reverse ++ d.calls

/-- The bits the decoder's supply still has: those left of the current byte, then those of the source from its position
(45_decoder.md R139, R140). -/
def Supply.ahead (u : Supply) : List Bool :=
  (bits8 u.dcur).drop (8 - u.dcnt.val) ++ bitsOf (u.dev.src.bytes.drop u.dev.src.pos)

/-! ## Commands one after another -/

/-- Issue commands one after another, stopping at the first that ends with an error (44_encoder.md R131). -/
def runSteps : List Instr → State → Host.Outcome State Fault Refusal
  | [], s => .next s
  | i :: is, s =>
    match exec i s with
    | .next t => if t.errcode = .none then runSteps is t else .next t
    | .fault e => .fault e
    | .refused e => .refused e

/-! ## The invariant -/

/-- OPSTATE 1 to 6 (10_state.md R37). -/
def OpState.counted : OpState → Bool
  | .eFreqCounted | .eTreeBuilt | .eTableBuilt | .eHeaderWritten | .ePayloadWritten | .eDone => true
  | .idle | .dHeaderParsed | .dPayloadDecoded | .dDone | .failed => false

/-- OPSTATE 2 to 6, where ROOT is the encoder's tree (10_state.md R40). -/
def OpState.built : OpState → Bool
  | .eTreeBuilt | .eTableBuilt | .eHeaderWritten | .ePayloadWritten | .eDone => true
  | .idle | .eFreqCounted | .dHeaderParsed | .dPayloadDecoded | .dDone | .failed => false

/-- OPSTATE 3 to 6, where CW is valid (10_state.md R42). -/
def OpState.tabled : OpState → Bool
  | .eTableBuilt | .eHeaderWritten | .ePayloadWritten | .eDone => true
  | .idle | .eFreqCounted | .eTreeBuilt | .dHeaderParsed | .dPayloadDecoded | .dDone | .failed => false

/-- OPSTATE 7 to 9, where ROOT is the decoder's tree (10_state.md R40). -/
def OpState.parsed : OpState → Bool
  | .dHeaderParsed | .dPayloadDecoded | .dDone => true
  | .idle | .eFreqCounted | .eTreeBuilt | .eTableBuilt | .eHeaderWritten | .ePayloadWritten | .eDone | .failed => false

/-- What every state of a run with legal parameters satisfies. -/
structure State.Inv (s : State) : Prop where
  /-- The parameters are legal (00_scope.md R6). -/
  legal : s.cfg.Legal
  /-- While BUSY = 1 a command is latched (20_memory.md R54). -/
  latched : s.busy = true → s.latch ≠ none
  /-- OPERR is not 0 exactly in FAILED (10_state.md R26). -/
  failed_iff : s.opstate = .failed ↔ s.operr ≠ .none
  /-- The bit buffer fits its storage (10_state.md R44, 40_bitbuffer.md R101). -/
  buffer : s.bb.content.length + s.bb.stale.length ≤ s.cfg.bbCap
  /-- The node store is not overfull (10_state.md R39). -/
  store : s.nodeCount ≤ s.cfg.nodeCap
  /-- The counters add up to N1, and N1 + 1 fits a weight (41_tree_builder.md R112, R114). -/
  counts : s.opstate.counted = true → freqSum s.freq = s.n1 ∧ s.n1 + 1 ≤ s.cfg.maxW
  /-- ROOT is the tree of the counters, NCOUNT its size, PL empty (41_tree_builder.md R115). -/
  tree : s.opstate.built = true → s.root = treeOf s.freq ∧ s.nodeCount = s.root.size ∧ s.pl = []
  /-- CW is the table of ROOT, PATH is empty (43_codeword_table.md R127). -/
  table : s.opstate.tabled = true → s.cw = tableOf s.root ∧ s.path = []
  /-- The decoder's root is no byte leaf, NCOUNT its size (45_decoder.md R142). -/
  parsed : s.opstate.parsed = true → s.root.isByteLeaf = false ∧ s.nodeCount = s.root.size

end Sys2Proof.Machine
end

