-- ==== Sys2Proof/Certificates/Slice0/Obligations.lean ====
section
/-! DEFINITION. What is claimed of HCORE, from the numbered rules of spec/. Each docstring names the rule; OBLIGATIONS.json
lists them. A next state is written out as the state before with the fields that change, so each such claim is also the
frame of its command. -/

open Sys2Proof Sys2Proof.Machine

/-! ## Encoding -/

/-- 30_encoding.md R87: every row of the opcode map, its CMD word written out, decodes to its command; with operands as
R95 and the vectors of 95_test_vectors.md write them. -/
def Obligations.TableWordsDecodeToTheirCommands : Prop :=
  decode ⟨0x00000001#32, 0#32⟩ = .instr .clear ∧
  decode ⟨0x00000010#32, 0#32⟩ = .instr .bbClear ∧
  decode ⟨0x00000011#32, 1#32⟩ = .instr (.bbAppend true) ∧
  decode ⟨0x00000012#32, 0#32⟩ = .instr .bbRemoveLast ∧
  decode ⟨0x00000013#32, 0xFFFFFFFF#32⟩ = .instr (.bbGet 0xFFFFFFFF#32) ∧
  decode ⟨0x00000014#32, 2#32⟩ = .instr (.bbReadByte 2#32) ∧
  decode ⟨0x00000020#32, 0#32⟩ = .instr .eCount ∧
  decode ⟨0x00000021#32, 0#32⟩ = .instr .eBuild ∧
  decode ⟨0x00000022#32, 0#32⟩ = .instr .eTable ∧
  decode ⟨0x00000023#32, 0#32⟩ = .instr .eHeader ∧
  decode ⟨0x00000024#32, 0#32⟩ = .instr .ePayload ∧
  decode ⟨0x00000025#32, 0#32⟩ = .instr .eFlush ∧
  decode ⟨0x0000002F#32, 0#32⟩ = .instr .encode ∧
  decode ⟨0x00000030#32, 0#32⟩ = .instr .dHeader ∧
  decode ⟨0x00000031#32, 0#32⟩ = .instr .dPayload ∧
  decode ⟨0x00000032#32, 0#32⟩ = .instr .dFinish ∧
  decode ⟨0x0000003F#32, 0#32⟩ = .instr .decode ∧
  decode ⟨0x00000040#32, 0x00000061#32⟩ = .instr (.freqRead 0x61#8) ∧
  decode ⟨0x00000041#32, 0x00000100#32⟩ = .instr (.cwLen 256#9) ∧
  decode ⟨0x00000042#32, 0x00030063#32⟩ = .instr (.cwBit 0x63#9 3#8)

/-- 30_encoding.md section 2 and 3: every instruction, with every operand its format can carry, is decoded from its own
encoding, which is well-formed. -/
def Obligations.EveryInstructionDecodesFromItsEncoding : Prop :=
  ∀ i : Instr, decode (encode i) = .instr i ∧ (encode i).wellFormed = true

/-- 30_encoding.md R80: a command is decoded exactly if it passes the three checks, and a rejected one is rejected by the
first check that fails. -/
def Obligations.DecoderRejectsByTheFirstFailingCheck : Prop :=
  ∀ c : Command,
    ((∃ i, decode c = .instr i) ↔ c.wellFormed = true) ∧
    (decode c = .reject .reservedWordBits ↔ c.wordOk = false) ∧
    (decode c = .reject .unknownOpcode ↔ c.wordOk = true ∧ c.opcodeOk = false) ∧
    (decode c = .reject .reservedArgBits ↔ c.wordOk = true ∧ c.opcodeOk = true ∧ c.argOk = false)

/-- 30_encoding.md R79, R81: the command a decoded instruction encodes to is the one it came from, but for the ARG that
format N ignores. -/
def Obligations.DecodedCommandEncodesBackToItself : Prop :=
  ∀ (c : Command) (i : Instr), decode c = .instr i →
    (encode i).word = c.word ∧ (formatOf c.op.toNat ≠ some .none → (encode i).arg = c.arg)

/-! ## The engine's turn -/

/-- 20_memory.md R55, with the model's order of moves (log 3): the engine's turn runs the decoded instruction of the latched
command, whether the turn is the next move or no move is left. -/
def Obligations.StepRunsTheDecodedInstruction : Prop :=
  ∀ (s : State) (c : Command) (i : Instr), s.busy = true → s.latch = some c → decode c = .instr i →
    (∀ ms, s.moves = .engine :: ms → step s = exec i { s with moves := ms }) ∧
    (s.moves = [] → step s = exec i s)

/-- 30_encoding.md R88: an illegal command, for whichever check, ends with ILLEGAL_COMMAND and no other effect. -/
def Obligations.IllegalCommandChangesNothingElse : Prop :=
  ∀ (s : State) (c : Command) (ms : List Move), s.busy = true → s.latch = some c → c.wellFormed = false →
    s.moves = .engine :: ms →
    step s = .next { s with moves := ms, result := 0#32, errcode := .illegalCommand, busy := false }

/-- 10_state.md R34: each command issued in an OPSTATE its row does not list ends with SEQUENCE_ERROR and changes nothing
else. -/
def Obligations.SequenceErrorOutsideTheListedStates : Prop :=
  ∀ (i : Instr) (s : State),
    (match i with
      | .eCount | .encode | .dHeader | .decode => s.opstate ≠ .idle
      | .eBuild => s.opstate ≠ .eFreqCounted
      | .eTable => s.opstate ≠ .eTreeBuilt
      | .eHeader => s.opstate ≠ .eTableBuilt
      | .ePayload => s.opstate ≠ .eHeaderWritten
      | .eFlush => s.opstate ≠ .ePayloadWritten
      | .dPayload => s.opstate ≠ .dHeaderParsed
      | .dFinish => s.opstate ≠ .dPayloadDecoded
      | .freqRead _ =>
        s.opstate ∈ [.idle, .dHeaderParsed, .dPayloadDecoded, .dDone, .failed]
      | .cwLen _ | .cwBit _ _ =>
        s.opstate ∈ [.idle, .eFreqCounted, .eTreeBuilt, .dHeaderParsed, .dPayloadDecoded, .dDone, .failed]
      | .clear | .bbClear | .bbAppend _ | .bbRemoveLast | .bbGet _ | .bbReadByte _ => False) →
    exec i s = .next { s with result := 0#32, errcode := .sequenceError, busy := false }

/-! ## Control and bit-buffer commands -/

/-- 46_control.md R149; a nonzero CMD[31:8] makes it no CLEAR. -/
def Obligations.ClearReturnsToIdle : Prop :=
  (∀ s : State, exec .clear s = .next
    { s with opstate := .idle, operr := .none, overrun := false, result := 0#32, errcode := .none, busy := false }) ∧
  (∀ a : Word, decode ⟨0x00000001#32, a⟩ = .instr .clear) ∧
  (∀ w a : Word, w.extractLsb' 0 8 = 0x01#8 → w.extractLsb' 8 24 ≠ 0#24 → decode ⟨w, a⟩ = .reject .reservedWordBits)

/-- 40_bitbuffer.md R102 with R99: the length becomes 0, the storage stays as it was; a nonzero CMD[31:8] makes it no
BB_CLEAR. -/
def Obligations.BbClearEmptiesTheBuffer : Prop :=
  (∀ s : State, exec .bbClear s = .next
    { s with bb := { content := [], stale := s.bb.content ++ s.bb.stale }, result := 0#32, errcode := .none,
             busy := false }) ∧
  (∀ a : Word, decode ⟨0x00000010#32, a⟩ = .instr .bbClear) ∧
  (∀ w a : Word, w.extractLsb' 0 8 = 0x10#8 → w.extractLsb' 8 24 ≠ 0#24 → decode ⟨w, a⟩ = .reject .reservedWordBits)

/-- 40_bitbuffer.md R103 with R96: below the capacity the bit is appended, at the capacity ALLOCATION_ERROR; an operand with
a reserved bit set is no BB_APPEND. -/
def Obligations.BbAppendAppendsOrReportsAFullBuffer : Prop :=
  (∀ (b : Bool) (s : State), s.bb.content.length ≠ s.cfg.bbCap →
    exec (.bbAppend b) s = .next
      { s with bb := { content := s.bb.content ++ [b], stale := s.bb.stale.tail }, result := 0#32, errcode := .none,
               busy := false }) ∧
  (∀ (b : Bool) (s : State), s.bb.content.length = s.cfg.bbCap →
    exec (.bbAppend b) s = .next { s with result := 0#32, errcode := .allocationError, busy := false }) ∧
  (∀ a : Word, a &&& 0xFFFFFFFE#32 = 0#32 → decode ⟨0x00000011#32, a⟩ = .instr (.bbAppend (a.getLsbD 0))) ∧
  (∀ a : Word, a &&& 0xFFFFFFFE#32 ≠ 0#32 → decode ⟨0x00000011#32, a⟩ = .reject .reservedArgBits)

/-- 40_bitbuffer.md R104 with R98: the last bit goes and its storage bit is cleared; an empty buffer is left alone. -/
def Obligations.BbRemoveLastRemovesTheLastBit : Prop :=
  (∀ (s : State) (front : List Bool) (b : Bool), s.bb.content = front ++ [b] →
    exec .bbRemoveLast s = .next
      { s with bb := { content := front, stale := false :: s.bb.stale }, result := 0#32, errcode := .none,
               busy := false }) ∧
  (∀ s : State, s.bb.content = [] →
    exec .bbRemoveLast s = .next { s with result := 0#32, errcode := .none, busy := false }) ∧
  (∀ a : Word, decode ⟨0x00000012#32, a⟩ = .instr .bbRemoveLast)

/-- 40_bitbuffer.md R105 with R97. -/
def Obligations.BbGetReadsTheBitOrReportsBounds : Prop :=
  (∀ (i : Word) (s : State) (b : Bool), s.bb.content[i.toNat]? = some b →
    exec (.bbGet i) s = .next { s with result := if b then 1#32 else 0#32, errcode := .none, busy := false }) ∧
  (∀ (i : Word) (s : State), s.bb.content.length ≤ i.toNat →
    exec (.bbGet i) s = .next { s with result := 0#32, errcode := .boundsError, busy := false }) ∧
  (∀ a : Word, decode ⟨0x00000013#32, a⟩ = .instr (.bbGet a))

/-- 40_bitbuffer.md R106 with R100: the byte's bit `7 - t` is buffer bit `8·j + t`, 0 beyond the length. -/
def Obligations.BbReadByteReadsEightBits : Prop :=
  (∀ (j : Word) (s : State), j.toNat < (s.bb.content.length + 7) / 8 →
    ∃ v : Byte, (∀ t < 8, v.getLsbD (7 - t) = s.bb.content.getD (8 * j.toNat + t) false) ∧
      exec (.bbReadByte j) s = .next { s with result := v.setWidth 32, errcode := .none, busy := false }) ∧
  (∀ (j : Word) (s : State), (s.bb.content.length + 7) / 8 ≤ j.toNat →
    exec (.bbReadByte j) s = .next { s with result := 0#32, errcode := .boundsError, busy := false }) ∧
  (∀ a : Word, decode ⟨0x00000014#32, a⟩ = .instr (.bbReadByte a))

/-- 40_bitbuffer.md R100, 20_memory.md R57: the packed bytes, most significant bit first, are the buffer's bits and then
zeros up to a whole byte. -/
def Obligations.RawBytesPackTheBufferMostSignificantFirst : Prop :=
  ∀ q : BitBuf, q.rawBytes.length = (q.content.length + 7) / 8 ∧
    bitsOf q.rawBytes = q.content ++ List.replicate (8 * ((q.content.length + 7) / 8) - q.content.length) false

/-! ## Queries -/

/-- 41_tree_builder.md R119. -/
def Obligations.FreqReadReturnsTheCounter : Prop :=
  (∀ (v : Byte) (s : State), s.opstate.counted = true →
    exec (.freqRead v) s = .next
      { s with result := BitVec.ofNat 32 (s.freq[v.toNat]'v.isLt), errcode := .none, busy := false }) ∧
  (∀ (v : Byte) (s : State), s.opstate.counted = false →
    exec (.freqRead v) s = .next { s with result := 0#32, errcode := .sequenceError, busy := false }) ∧
  (∀ a : Word, a &&& 0xFFFFFF00#32 = 0#32 → decode ⟨0x00000040#32, a⟩ = .instr (.freqRead (a.extractLsb' 0 8))) ∧
  (∀ a : Word, a &&& 0xFFFFFF00#32 ≠ 0#32 → decode ⟨0x00000040#32, a⟩ = .reject .reservedArgBits)

/-- 43_codeword_table.md R129: RESULT[31] is the presence, RESULT[8:0] the length, an absent entry reads 0; symbols 257 to
511 are out of bounds. -/
def Obligations.CwLenReturnsPresenceAndLength : Prop :=
  (∀ (n : BitVec 9) (s : State) (h : n.toNat < 257) (bits : List Bool), s.opstate.tabled = true →
    s.cw[n.toNat] = some bits →
    exec (.cwLen n) s = .next
      { s with result := 1#1 ++ 0#22 ++ BitVec.ofNat 9 bits.length, errcode := .none, busy := false }) ∧
  (∀ (n : BitVec 9) (s : State) (h : n.toNat < 257), s.opstate.tabled = true → s.cw[n.toNat] = none →
    exec (.cwLen n) s = .next { s with result := 0#32, errcode := .none, busy := false }) ∧
  (∀ (n : BitVec 9) (s : State), s.opstate.tabled = true → 257 ≤ n.toNat →
    exec (.cwLen n) s = .next { s with result := 0#32, errcode := .boundsError, busy := false }) ∧
  (∀ (n : BitVec 9) (s : State), s.opstate.tabled = false →
    exec (.cwLen n) s = .next { s with result := 0#32, errcode := .sequenceError, busy := false }) ∧
  (∀ a : Word, a &&& 0xFFFFFE00#32 = 0#32 → decode ⟨0x00000041#32, a⟩ = .instr (.cwLen (a.extractLsb' 0 9))) ∧
  (∀ a : Word, a &&& 0xFFFFFE00#32 ≠ 0#32 → decode ⟨0x00000041#32, a⟩ = .reject .reservedArgBits)

/-- 43_codeword_table.md R130: bit `k` of a present codeword; a symbol above 256, an absent entry or an index at or beyond
the length is out of bounds. -/
def Obligations.CwBitReturnsTheCodewordBit : Prop :=
  (∀ (n : BitVec 9) (k : Byte) (s : State) (h : n.toNat < 257) (bits : List Bool) (b : Bool),
    s.opstate.tabled = true → s.cw[n.toNat] = some bits → bits[k.toNat]? = some b →
    exec (.cwBit n k) s = .next { s with result := if b then 1#32 else 0#32, errcode := .none, busy := false }) ∧
  (∀ (n : BitVec 9) (k : Byte) (s : State), s.opstate.tabled = true →
    (∀ (h : n.toNat < 257) (bits : List Bool), s.cw[n.toNat] = some bits → bits.length ≤ k.toNat) →
    exec (.cwBit n k) s = .next { s with result := 0#32, errcode := .boundsError, busy := false }) ∧
  (∀ (n : BitVec 9) (k : Byte) (s : State), s.opstate.tabled = false →
    exec (.cwBit n k) s = .next { s with result := 0#32, errcode := .sequenceError, busy := false }) ∧
  (∀ a : Word, a &&& 0xFF00FE00#32 = 0#32 →
    decode ⟨0x00000042#32, a⟩ = .instr (.cwBit (a.extractLsb' 0 9) (a.extractLsb' 16 8))) ∧
  (∀ a : Word, a &&& 0xFF00FE00#32 ≠ 0#32 → decode ⟨0x00000042#32, a⟩ = .reject .reservedArgBits)

/-! ## The tree builder -/

/-- 41_tree_builder.md R114, quiet devices, an input that fits: every counter is the number of occurrences of its byte, N1
the length, and the source has been read to its end. -/
def Obligations.ECountCountsEveryByteOfTheInput : Prop :=
  ∀ s : State, s.opstate = .idle → s.dev.Quiet → s.dev.src.bytes.length + 1 ≤ s.cfg.maxW →
    ∃ calls, exec .eCount s = .next
      { s with
        freq := countsOf s.dev.src.bytes
        n1 := s.dev.src.bytes.length
        dev := { s.dev with src := { s.dev.src with pos := s.dev.src.bytes.length }, calls := calls }
        opstate := .eFreqCounted
        result := BitVec.ofNat 32 s.dev.src.bytes.length
        errcode := .none
        busy := false }

/-- 41_tree_builder.md R114, quiet devices, an input longer than MAXW - 1 bytes: COUNTER_OVERFLOW on reading byte number
MAXW, with the bytes before it counted. -/
def Obligations.ECountOverflowsOnByteNumberMaxW : Prop :=
  ∀ s : State, s.cfg.Legal → s.opstate = .idle → s.dev.Quiet → s.cfg.maxW ≤ s.dev.src.bytes.length →
    ∃ calls, exec .eCount s = .next
      { s with
        freq := countsOf (s.dev.src.bytes.take (s.cfg.maxW - 1))
        dev := { s.dev with src := { s.dev.src with pos := s.cfg.maxW }, calls := calls }
        opstate := .failed
        operr := .counterOverflow
        result := 0#32
        errcode := .counterOverflow
        busy := false }

/-- 41_tree_builder.md R107, R110: the node goes after every item of at most its weight and before the first heavier one;
so an ordered list stays ordered, and among items of one weight the earlier stays first. -/
def Obligations.PriorityListIsOrderedAndFirstInFirstOut : Prop :=
  ∀ (n : Node) (pl : List Node),
    plInsert n pl = pl.takeWhile (fun x => decide (x.weight ≤ n.weight)) ++
      n :: pl.dropWhile (fun x => decide (x.weight ≤ n.weight)) ∧
    (pl.Pairwise (fun x y => x.weight ≤ y.weight) →
      (plInsert n pl).Pairwise (fun x y => x.weight ≤ y.weight) ∧
      ∀ k, (plInsert n pl).filter (fun x => x.weight == k) =
        pl.filter (fun x => x.weight == k) ++ if n.weight = k then [n] else [])

/-- 41_tree_builder.md R115 with R116: E_BUILD completes on every frequency table, leaves the list empty, and its tree is
the merge of the leaves in ascending symbol order with EOS last; NCOUNT counts its nodes. -/
def Obligations.EBuildMakesTheTreeOfTheCounters : Prop :=
  ∀ s : State, s.cfg.Legal → s.opstate = .eFreqCounted →
    exec .eBuild s = .next
      { s with
        pl := []
        root := treeOf s.freq
        nodeCount := (treeOf s.freq).size
        opstate := .eTreeBuilt
        result := BitVec.ofNat 32 (freqSum s.freq + 1)
        errcode := .none
        busy := false }

/-- 41_tree_builder.md R113: in the states that hold an encoder's tree, every internal node's weight is the sum of its
children's, and the root's is N1 + 1. -/
def Obligations.EncoderTreeWeightsAddUpToInputLengthPlusOne : Prop :=
  ∀ s : State, s.Inv → s.opstate.built = true → s.root.WeightsAdd ∧ s.root.weight = s.n1 + 1

/-- 00_scope.md R8, 43_codeword_table.md R128, 41_tree_builder.md R118: the leaves of the tree of a frequency table are the
bytes that occur and EOS, each once; it has at most 513 nodes; every codeword has at most 256 bits, a byte's at least one,
and EOS's is empty exactly when no byte occurs. -/
def Obligations.BuiltTreeHasOneLeafPerSymbolAndShortCodewords : Prop :=
  ∀ f : Vector Nat 256,
    (treeOf f).symbols.Perm (((allBytes.filter fun v => freqAt f v ≠ 0).map Sym.byte) ++ [.eos]) ∧
    (treeOf f).size ≤ 513 ∧
    (∀ x p, (treeOf f).codeword x = some p → p.length ≤ 256) ∧
    (∀ v p, (treeOf f).codeword (.byte v) = some p → p ≠ []) ∧
    (∀ v, (treeOf f).codeword (.byte v) ≠ none ↔ freqAt f v ≠ 0) ∧
    ((treeOf f).codeword .eos = some [] ↔ ∀ v, freqAt f v = 0) ∧
    (treeOf f).codeword .eos ≠ none

/-! ## The codeword table and the header -/

/-- 43_codeword_table.md R127: the table after E_TABLE holds for every symbol its codeword in the tree, or no entry. -/
def Obligations.ETableTabulatesTheCodewords : Prop :=
  ∀ s : State, s.opstate = .eTreeBuilt →
    ∃ cw : Vector (Option (List Bool)) 257, (∀ x, cwAt cw x = s.root.codeword x) ∧
      exec .eTable s = .next
        { s with cw := cw, path := [], opstate := .eTableBuilt, result := BitVec.ofNat 32 s.root.symbols.length,
                 errcode := .none, busy := false }

/-- 30_encoding.md R92: no codeword of a tree is a prefix of another symbol's. -/
def Obligations.CodewordsOfOneTreeArePrefixFree : Prop :=
  ∀ (n : Node) (x y : Sym) (p q : List Bool), n.codeword x = some p → n.codeword y = some q → p <+: q → x = y

/-- 44_encoder.md R132 with 42_header.md R120: the buffer holds the header alone; where it does not fit, the bits that do
stay and the encode is aborted. -/
def Obligations.EHeaderWritesTheHeaderOrRunsOutOfBuffer : Prop :=
  (∀ s : State, s.opstate = .eTableBuilt → s.root.header.length ≤ s.cfg.bbCap →
    exec .eHeader s = .next
      { s with
        bb := { content := s.root.header, stale := (s.bb.content ++ s.bb.stale).drop s.root.header.length }
        opstate := .eHeaderWritten
        result := BitVec.ofNat 32 s.root.header.length
        errcode := .none
        busy := false }) ∧
  (∀ s : State, s.opstate = .eTableBuilt → s.cfg.bbCap < s.root.header.length →
    exec .eHeader s = .next
      { s with
        bb := { content := s.root.header.take s.cfg.bbCap,
                stale := (s.bb.content ++ s.bb.stale).drop s.cfg.bbCap }
        opstate := .failed
        operr := .allocationError
        result := 0#32
        errcode := .allocationError
        busy := false })

/-- 42_header.md R122: a header has one bit per internal node, ten per byte leaf and two per EOS leaf; 11·D + 2 bits for a
tree E_BUILD makes from D distinct bytes. -/
def Obligations.HeaderLengthCountsTheRecords : Prop :=
  (∀ n : Node, n.header.length = n.internals + 10 * (n.symbols.filter (· ≠ .eos)).length + 2 * n.symbols.count .eos) ∧
  (∀ f : Vector Nat 256, (treeOf f).header.length = 11 * (allBytes.filter fun v => freqAt f v ≠ 0).length + 2)

/-! ## The encoder -/

/-- 44_encoder.md R133, quiet devices. The input E_COUNT counted and room in the buffer: the codewords of the bytes and of
EOS are appended. Where the codewords of the bytes, or after them that of EOS, do not fit: ALLOCATION_ERROR, and the bits
that fit stay (60_exceptions.md R155). -/
def Obligations.EPayloadAppendsTheCodewords : Prop :=
  (∀ s : State, s.opstate = .eHeaderWritten → s.dev.Quiet → s.n1 = s.dev.src.bytes.length →
    (∀ v ∈ s.dev.src.bytes, s.root.codeword (.byte v) ≠ none) → (∀ x, cwAt s.cw x = s.root.codeword x) →
    s.bb.content.length + (s.root.payload s.dev.src.bytes).length ≤ s.cfg.bbCap →
    ∃ calls, exec .ePayload s = .next
      { s with
        bb := { content := s.bb.content ++ s.root.payload s.dev.src.bytes,
                stale := s.bb.stale.drop (s.root.payload s.dev.src.bytes).length }
        dev := { s.dev with src := { s.dev.src with pos := s.dev.src.bytes.length }, calls := calls }
        opstate := .ePayloadWritten
        result := BitVec.ofNat 32 (s.bb.content.length + (s.root.payload s.dev.src.bytes).length)
        errcode := .none
        busy := false }) ∧
  (∀ (s : State) (xs ys : List Byte) (codes : List Bool), s.opstate = .eHeaderWritten → s.dev.Quiet →
    s.dev.src.bytes = xs ++ ys → xs.length ≤ s.n1 → (∀ v ∈ xs, cwAt s.cw (.byte v) ≠ none) →
    codes = (xs.flatMap fun v => (cwAt s.cw (.byte v)).getD []) → s.bb.content.length ≤ s.cfg.bbCap →
    s.cfg.bbCap < s.bb.content.length + codes.length →
    ∃ pos calls, exec .ePayload s = .next
      { s with
        bb := { content := (s.bb.content ++ codes).take s.cfg.bbCap,
                stale := s.bb.stale.drop (s.cfg.bbCap - s.bb.content.length) }
        dev := { s.dev with src := { s.dev.src with pos := pos }, calls := calls }
        opstate := .failed
        operr := .allocationError
        result := 0#32
        errcode := .allocationError
        busy := false }) ∧
  (∀ (s : State) (codes eos : List Bool), s.opstate = .eHeaderWritten → s.dev.Quiet →
    s.n1 = s.dev.src.bytes.length → (∀ v ∈ s.dev.src.bytes, cwAt s.cw (.byte v) ≠ none) →
    codes = (s.dev.src.bytes.flatMap fun v => (cwAt s.cw (.byte v)).getD []) → cwAt s.cw .eos = some eos →
    s.bb.content.length + codes.length ≤ s.cfg.bbCap →
    s.cfg.bbCap < s.bb.content.length + codes.length + eos.length →
    ∃ calls, exec .ePayload s = .next
      { s with
        bb := { content := (s.bb.content ++ codes ++ eos).take s.cfg.bbCap,
                stale := s.bb.stale.drop (s.cfg.bbCap - s.bb.content.length) }
        dev := { s.dev with src := { s.dev.src with pos := s.dev.src.bytes.length }, calls := calls }
        opstate := .failed
        operr := .allocationError
        result := 0#32
        errcode := .allocationError
        busy := false })

/-- 44_encoder.md R133: a second pass that is longer, that holds a byte without a codeword, or that is shorter ends with
SOURCE_MISMATCH; the codewords before it stay in the buffer. -/
def Obligations.EPayloadReportsAChangedSource : Prop :=
  ∀ (s : State) (xs ys : List Byte), s.opstate = .eHeaderWritten → s.dev.Quiet → s.dev.src.bytes = xs ++ ys →
    (∀ v ∈ xs, cwAt s.cw (.byte v) ≠ none) →
    s.bb.content.length + (xs.flatMap fun v => (cwAt s.cw (.byte v)).getD []).length ≤ s.cfg.bbCap →
    ((ys = [] ∧ xs.length < s.n1) ∨ (ys ≠ [] ∧ xs.length = s.n1) ∨
      (xs.length < s.n1 ∧ ∃ v zs, ys = v :: zs ∧ cwAt s.cw (.byte v) = none)) →
    ∃ dev stale, exec .ePayload s = .next
      { s with
        bb := { content := s.bb.content ++ xs.flatMap fun v => (cwAt s.cw (.byte v)).getD [], stale := stale }
        dev := dev
        opstate := .failed
        operr := .sourceMismatch
        result := 0#32
        errcode := .sourceMismatch
        busy := false }

/-- 44_encoder.md R134, quiet devices: the packed buffer is written to the sink, which is flushed once; the buffer is not
cleared. Where one of its calls fails (20_memory.md R73; the answers are the model's `draws`, log 5): the bytes written
before it stay in the sink, and the encode is aborted with IO_ERROR (60_exceptions.md R155). -/
def Obligations.EFlushWritesThePackedBuffer : Prop :=
  (∀ s : State, s.opstate = .ePayloadWritten → s.dev.Quiet →
    ∃ calls, exec .eFlush s = .next
      { s with
        dev := { s.dev with
          sink := { bytes := s.dev.sink.bytes ++ s.bb.rawBytes, flushes := s.dev.sink.flushes + 1 }, calls := calls }
        opstate := .eDone
        result := BitVec.ofNat 32 ((s.bb.content.length + 7) / 8)
        errcode := .none
        busy := false }) ∧
  (∀ (s : State) (oks : List Draw) (x : Draw) (more : List Draw), s.opstate = .ePayloadWritten →
    s.dev.draws = oks ++ x :: more → (∀ d ∈ oks, d.fails = false) → x.fails = true →
    oks.length ≤ s.bb.rawBytes.length →
    ∃ src, exec .eFlush s = .next
      { s with
        dev := {
          src := src
          sink := { s.dev.sink with bytes := s.dev.sink.bytes ++ s.bb.rawBytes.take oks.length }
          draws := more
          calls := .failed (if oks.length < s.bb.rawBytes.length then .sinkWrite else .sinkFlush) ::
            (((s.bb.rawBytes.take oks.length).map DevCall.sinkWrite).reverse ++ s.dev.calls) }
        opstate := .failed
        operr := .ioError
        result := 0#32
        errcode := .ioError
        busy := false } ∧
      ((∀ d ∈ oks ++ [x], d.source = none) → src = s.dev.src))

/-- 44_encoder.md R135, R136: with quiet devices and room, ENCODE writes to the sink exactly the packed stream of
30_encoding.md R89 for the tree of the input's bytes, and leaves what the six separate steps leave. -/
def Obligations.EncodeWritesTheCompressedStream : Prop :=
  ∀ (s : State) (xs : List Byte) (n : Node), s.cfg.Legal → s.opstate = .idle → s.dev.Quiet → s.dev.src.bytes = xs →
    n = treeOf (countsOf xs) → xs.length + 1 ≤ s.cfg.maxW → (n.stream xs).length ≤ s.cfg.bbCap →
    ∃ calls stale cw, (∀ x, cwAt cw x = n.codeword x) ∧ exec .encode s = .next
      { s with
        freq := countsOf xs
        n1 := xs.length
        pl := []
        root := n
        nodeCount := n.size
        cw := cw
        path := []
        bb := { content := n.stream xs, stale := stale }
        dev := { s.dev with
          src := { bytes := xs, pos := xs.length }
          sink := { bytes := s.dev.sink.bytes ++ packBytes (n.stream xs), flushes := s.dev.sink.flushes + 1 }
          calls := calls }
        opstate := .eDone
        result := BitVec.ofNat 32 (((n.stream xs).length + 7) / 8)
        errcode := .none
        busy := false }

/-! ## The decoder -/

/-- 42_header.md R126, 45_decoder.md R142: from a source that starts with a tree's header, D_HEADER reads exactly its bits
and rebuilds the tree without weights; writing it again gives the same bits. -/
def Obligations.DHeaderRebuildsTheTreeOfItsHeader : Prop :=
  ∀ (s : State) (n : Node) (rest : List Bool), s.opstate = .idle → s.dev.Quiet →
    bitsOf s.dev.src.bytes = n.header ++ rest → n.isByteLeaf = false → n.size ≤ s.cfg.nodeCap →
    n.bare.header = n.header ∧
    ∃ dcur dcnt calls,
      let t : State :=
        { s with
          root := n.bare
          nodeCount := n.size
          dev := { s.dev with src := { s.dev.src with pos := (n.header.length + 7) / 8 }, calls := calls }
          dcur := dcur
          dcnt := dcnt
          dbits := BitVec.ofNat 32 n.header.length
          opstate := .dHeaderParsed
          result := BitVec.ofNat 32 n.header.length
          errcode := .none
          busy := false }
      exec .dHeader s = .next t ∧ t.supply.ahead = rest

/-- 42_header.md R124, 45_decoder.md R142, quiet devices: a source that ends inside a header, before any type bit asked for
a node too many, is MALFORMED_HEADER; a header, whole or cut, with a type bit for more nodes than the node store holds is
ALLOCATION_ERROR; a header whose root is a byte leaf is MALFORMED_HEADER. That the first two leave ROOT as it was is
deduced from the pseudocode (log 10). -/
def Obligations.DHeaderRejectsACutHeaderAndAByteLeafRoot : Prop :=
  (∀ (s : State) (n : Node) (missing : List Bool), s.opstate = .idle → s.dev.Quiet → missing ≠ [] →
    n.header = bitsOf s.dev.src.bytes ++ missing → n.begun (bitsOf s.dev.src.bytes).length ≤ s.cfg.nodeCap →
    ∃ t, exec .dHeader s = .next t ∧ t.opstate = .failed ∧ t.operr = .malformedHeader ∧ t.errcode = .malformedHeader ∧
      t.result = 0#32 ∧ t.root = s.root ∧ t.nodeCount = n.begun (bitsOf s.dev.src.bytes).length) ∧
  (∀ (s : State) (n : Node), s.opstate = .idle → s.dev.Quiet →
    (bitsOf s.dev.src.bytes <+: n.header ∨ n.header <+: bitsOf s.dev.src.bytes) →
    s.cfg.nodeCap < n.begun (bitsOf s.dev.src.bytes).length →
    ∃ t, exec .dHeader s = .next t ∧ t.opstate = .failed ∧ t.operr = .allocationError ∧ t.errcode = .allocationError ∧
      t.result = 0#32 ∧ t.root = s.root ∧ t.nodeCount = s.cfg.nodeCap) ∧
  (∀ (s : State) (v : Byte) (rest : List Bool), s.opstate = .idle → s.dev.Quiet → 1 ≤ s.cfg.nodeCap →
    bitsOf s.dev.src.bytes = [true, false] ++ bits8 v ++ rest →
    ∃ t, exec .dHeader s = .next t ∧ t.opstate = .failed ∧ t.operr = .malformedHeader ∧ t.errcode = .malformedHeader ∧
      t.result = 0#32)

/-- 45_decoder.md R143, quiet devices: the walk over the codewords of `xs` and of EOS writes `xs` to the sink and reads
exactly those bits; a root that is the EOS leaf reads and writes nothing. -/
def Obligations.DPayloadEmitsTheDecodedBytes : Prop :=
  (∀ (s : State) (xs : List Byte) (rest : List Bool), s.opstate = .dHeaderParsed → s.dev.Quiet →
    s.root.isLeaf = false → s.root.codeword .eos ≠ none → (∀ v ∈ xs, s.root.codeword (.byte v) ≠ none) →
    s.supply.ahead = s.root.payload xs ++ rest →
    ∃ pos dcur dcnt calls w,
      let t : State :=
        { s with
          dev := { s.dev with
            src := { s.dev.src with pos := pos }
            sink := { s.dev.sink with bytes := s.dev.sink.bytes ++ xs }
            calls := calls }
          dcur := dcur
          dcnt := dcnt
          dbits := s.dbits + BitVec.ofNat 32 (s.root.payload xs).length
          dnode := .leaf .eos w
          dout := BitVec.ofNat 32 xs.length
          opstate := .dPayloadDecoded
          result := BitVec.ofNat 32 xs.length
          errcode := .none
          busy := false }
      exec .dPayload s = .next t ∧ t.supply.ahead = rest) ∧
  (∀ s : State, s.opstate = .dHeaderParsed → s.root.isLeaf = true →
    exec .dPayload s = .next
      { s with dnode := s.root, dout := 0#32, opstate := .dPayloadDecoded, result := 0#32, errcode := .none,
               busy := false })

/-- 45_decoder.md R143, R147, quiet devices: where the source ends before an EOS leaf is reached, the bytes decoded so far
are in the sink and the decode ends with TRUNCATED_PAYLOAD. -/
def Obligations.DPayloadReportsATruncatedPayload : Prop :=
  ∀ (s : State) (xs : List Byte) (x : Sym) (p more : List Bool), s.opstate = .dHeaderParsed → s.dev.Quiet →
    s.root.isLeaf = false → (∀ v ∈ xs, s.root.codeword (.byte v) ≠ none) →
    s.root.codeword x = some (p ++ more) → more ≠ [] →
    s.supply.ahead = (xs.flatMap fun v => s.root.codeBits (.byte v)) ++ p →
    ∃ t, exec .dPayload s = .next t ∧ t.opstate = .failed ∧ t.operr = .truncatedPayload ∧
      t.errcode = .truncatedPayload ∧ t.result = 0#32 ∧
      t.dev.sink = { s.dev.sink with bytes := s.dev.sink.bytes ++ xs }

/-- 45_decoder.md R144: D_FINISH flushes the sink and reports DOUT, or ends with IO_ERROR where the flush fails. -/
def Obligations.DFinishFlushesTheSink : Prop :=
  ∀ s : State, s.opstate = .dPayloadDecoded →
    (s.dev.draw.1 = false →
      exec .dFinish s = .next
        { s with
          dev := { s.dev.draw.2 with
            sink := { s.dev.sink with flushes := s.dev.sink.flushes + 1 }, calls := .sinkFlush :: s.dev.calls }
          opstate := .dDone
          result := s.dout
          errcode := .none
          busy := false }) ∧
    (s.dev.draw.1 = true →
      exec .dFinish s = .next
        { s with
          dev := { s.dev.draw.2 with sink := s.dev.sink, calls := .failed .sinkFlush :: s.dev.calls }
          opstate := .failed
          operr := .ioError
          result := 0#32
          errcode := .ioError
          busy := false })

/-- 45_decoder.md R145: with quiet devices, DECODE of a source that starts with the stream of any tree for `xs` writes `xs`
to the sink and flushes it once; it pulls the bytes that hold the stream and no other. -/
def Obligations.DecodeWritesTheOriginalBytes : Prop :=
  ∀ (s : State) (n : Node) (xs : List Byte) (rest : List Bool), s.opstate = .idle → s.dev.Quiet →
    bitsOf s.dev.src.bytes = n.stream xs ++ rest → n.size ≤ s.cfg.nodeCap → n.codeword .eos ≠ none →
    (∀ v ∈ xs, n.codeword (.byte v) ≠ none) →
    ∃ dcur dcnt dnode calls, exec .decode s = .next
      { s with
        root := n.bare
        nodeCount := n.size
        dev := { s.dev with
          src := { s.dev.src with pos := ((n.stream xs).length + 7) / 8 }
          sink := { bytes := s.dev.sink.bytes ++ xs, flushes := s.dev.sink.flushes + 1 }
          calls := calls }
        dcur := dcur
        dcnt := dcnt
        dnode := dnode
        dbits := BitVec.ofNat 32 (n.stream xs).length
        dout := BitVec.ofNat 32 xs.length
        opstate := .dDone
        result := BitVec.ofNat 32 xs.length
        errcode := .none
        busy := false }

/-- 44_encoder.md R137: DECODE of the bytes ENCODE writes for an input writes that input, for every input including the
empty one, where no device call fails and no capacity is exceeded. -/
def Obligations.DecodingAnEncodingGivesTheInputBack : Prop :=
  ∀ (s u : State) (xs : List Byte), s.cfg.Legal → s.opstate = .idle → s.dev.Quiet → s.dev.src.bytes = xs →
    xs.length + 1 ≤ s.cfg.maxW → ((treeOf (countsOf xs)).stream xs).length ≤ s.cfg.bbCap →
    u.cfg.Legal → u.opstate = .idle → u.dev.Quiet →
    ∃ t, exec .encode s = .next t ∧ t.errcode = .none ∧ s.dev.sink.bytes <+: t.dev.sink.bytes ∧
      (u.dev.src.bytes = t.dev.sink.bytes.drop s.dev.sink.bytes.length →
        ∃ v, exec .decode u = .next v ∧ v.errcode = .none ∧ v.opstate = .dDone ∧
          v.dev.sink.bytes = u.dev.sink.bytes ++ xs)

/-- 44_encoder.md R131, R135, 45_decoder.md R138, R145: whatever the devices do, ENCODE ends as its six steps issued one
after another end, and DECODE as its three: at the first step that ends with an error, or after the last. -/
def Obligations.EncodeAndDecodeEqualTheirSteps : Prop :=
  ∀ s : State, s.opstate = .idle →
    exec .encode s = runSteps [.eCount, .eBuild, .eTable, .eHeader, .ePayload, .eFlush] s ∧
    exec .decode s = runSteps [.dHeader, .dPayload, .dFinish] s

/-- 45_decoder.md R146: a decode that succeeds, of any source whose bits DBITS can count, has pulled ceil(DBITS/8) bytes
after its rewind. -/
def Obligations.SuccessfulDecodePullsOnlyTheBytesItNeeds : Prop :=
  ∀ s t : State, s.dev.Quiet → s.dev.src.bytes.length < 2 ^ 29 → exec .decode s = .next t → t.errcode = .none →
    t.dev.src.pos = (t.dbits.toNat + 7) / 8

/-! ## Errors and endings of every command -/

/-- 60_exceptions.md R156, 20_memory.md R56: every command, in every state and whatever the devices answer, ends with
BUSY = 0, and a command word written then is latched. -/
def Obligations.EveryCommandEndsAndTheNextIsAccepted : Prop :=
  ∀ (i : Instr) (s : State), ∃ t, exec i s = .next t ∧ t.busy = false ∧
    ∀ v ms, t.cfg.base % 256 = 0 →
      step { t with moves := .busWrite t.cfg.base 4 v :: ms } =
        .next { t with moves := ms, latch := some ⟨v, t.arg⟩, busy := true }

/-- 60_exceptions.md R155, 10_state.md R34: a pipeline command either ends with SEQUENCE_ERROR and no other effect, or
aborts the operation with its code in OPERR, or succeeds with OPSTATE as the table says and OPERR as it was. -/
def Obligations.PipelineCommandSucceedsOrAborts : Prop :=
  ∀ (i : Instr) (s t : State) (after : OpState),
    (i, after) ∈ [(Instr.eCount, OpState.eFreqCounted), (.eBuild, .eTreeBuilt), (.eTable, .eTableBuilt),
      (.eHeader, .eHeaderWritten), (.ePayload, .ePayloadWritten), (.eFlush, .eDone), (.encode, .eDone),
      (.dHeader, .dHeaderParsed), (.dPayload, .dPayloadDecoded), (.dFinish, .dDone), (.decode, .dDone)] →
    exec i s = .next t →
    (t = { s with result := 0#32, errcode := .sequenceError, busy := false }) ∨
    (t.errcode ≠ .none ∧ t.opstate = .failed ∧ t.operr = t.errcode ∧ t.result = 0#32) ∨
    (t.errcode = .none ∧ t.opstate = after ∧ t.operr = s.operr)

/-- 60_exceptions.md R157: the errors each pipeline command's body can raise are those of the table's row. -/
def Obligations.EachPipelineCommandRaisesOnlyItsErrors : Prop :=
  ∀ (i : Instr) (s t : State) (raised : List ErrCode), s.cfg.Legal →
    (i, raised) ∈ [(Instr.eCount, [ErrCode.ioError, .counterOverflow]), (.eBuild, []), (.eTable, []),
      (.eHeader, [.allocationError]), (.ePayload, [.ioError, .allocationError, .sourceMismatch]), (.eFlush, [.ioError]),
      (.encode, [.ioError, .allocationError, .counterOverflow, .sourceMismatch]),
      (.dHeader, [.ioError, .malformedHeader, .allocationError]), (.dPayload, [.ioError, .truncatedPayload]),
      (.dFinish, [.ioError]), (.decode, [.ioError, .malformedHeader, .truncatedPayload, .allocationError])] →
    exec i s = .next t → t.errcode ∈ ErrCode.none :: .sequenceError :: raised

/-- 20_memory.md R73: whatever the devices answer, a command ends with IO_ERROR exactly if the last device call it made
failed. -/
def Obligations.IoErrorExactlyAfterAFailedCall : Prop :=
  ∀ (i : Instr) (s t : State), exec i s = .next t →
    ∃ made, t.dev.calls = made ++ s.dev.calls ∧ (t.errcode = .ioError ↔ ∃ k cs, made = .failed k :: cs)

/-! ## Frames -/

/-- 10_state.md R19, R47: no command writes ARG or the model's own fields; none writes OVERRUN but CLEAR; every command ends
with BUSY = 0. That the latch keeps its contents is deduced (log 12), that the parameters are fields no command writes is
the model's choice (log 1). -/
def Obligations.CommandsLeaveTheHostSideAlone : Prop :=
  ∀ (i : Instr) (s t : State), exec i s = .next t →
    t.cfg = s.cfg ∧ t.arg = s.arg ∧ t.latch = s.latch ∧ t.moves = s.moves ∧ t.busData = s.busData ∧
      t.busyReads = s.busyReads ∧ t.busy = false ∧ (i ≠ .clear → t.overrun = s.overrun)

/-- 60_exceptions.md R154, 40_bitbuffer.md section 2: an error of a direct command changes RESULT, ERRCODE and BUSY only;
with or without an error it makes no device call and touches no table, tree, path or decoder register; the queries leave
the bit buffer too, and none but CLEAR writes OPSTATE or OPERR. -/
def Obligations.DirectCommandsTouchNoDeviceAndNoTable : Prop :=
  ∀ (i : Instr) (s t : State),
    (i ∈ [Instr.clear, .bbClear, .bbRemoveLast] ∨ (∃ b, i = .bbAppend b) ∨ (∃ n, i = .bbGet n) ∨
      (∃ n, i = .bbReadByte n) ∨ (∃ v, i = .freqRead v) ∨ (∃ n, i = .cwLen n) ∨ ∃ n k, i = .cwBit n k) →
    exec i s = .next t →
    t.dev = s.dev ∧ t.freq = s.freq ∧ t.n1 = s.n1 ∧ t.pl = s.pl ∧ t.nodeCount = s.nodeCount ∧ t.root = s.root ∧
      t.cw = s.cw ∧ t.path = s.path ∧ t.dcur = s.dcur ∧ t.dcnt = s.dcnt ∧ t.dnode = s.dnode ∧ t.dbits = s.dbits ∧
      t.dout = s.dout ∧ (i ≠ .clear → t.opstate = s.opstate ∧ t.operr = s.operr) ∧
      (i ≠ .bbClear → i ≠ .bbRemoveLast → (∀ b, i ≠ .bbAppend b) → t.bb = s.bb) ∧
      (t.errcode ≠ .none → t = { s with result := 0#32, errcode := t.errcode, busy := false })

/-- 44_encoder.md and 10_state.md section 4: the encoder's steps leave the decoder's registers alone, and each leaves the
pieces it does not work on. -/
def Obligations.EncoderStepsLeaveTheRestAlone : Prop :=
  ∀ (i : Instr) (s t : State), i ∈ [Instr.eCount, .eBuild, .eTable, .eHeader, .ePayload, .eFlush, .encode] →
    exec i s = .next t →
    t.dcur = s.dcur ∧ t.dcnt = s.dcnt ∧ t.dnode = s.dnode ∧ t.dbits = s.dbits ∧ t.dout = s.dout ∧
    (i ≠ .eCount → i ≠ .encode → t.freq = s.freq ∧ t.n1 = s.n1) ∧
    (i ≠ .eBuild → i ≠ .encode → t.pl = s.pl ∧ t.nodeCount = s.nodeCount ∧ t.root = s.root) ∧
    (i ≠ .eTable → i ≠ .encode → t.cw = s.cw ∧ t.path = s.path) ∧
    (i ≠ .eHeader → i ≠ .ePayload → i ≠ .encode → t.bb = s.bb) ∧
    (i ∈ [Instr.eBuild, .eTable, .eHeader] → t.dev = s.dev)

/-- 45_decoder.md R138: the decoder uses neither the bit buffer nor the encoder's tables. -/
def Obligations.DecoderStepsLeaveTheRestAlone : Prop :=
  ∀ (i : Instr) (s t : State), i ∈ [Instr.dHeader, .dPayload, .dFinish, .decode] → exec i s = .next t →
    t.bb = s.bb ∧ t.freq = s.freq ∧ t.n1 = s.n1 ∧ t.pl = s.pl ∧ t.cw = s.cw ∧ t.path = s.path ∧
    (i ≠ .dHeader → i ≠ .decode → t.root = s.root ∧ t.nodeCount = s.nodeCount) ∧
    (i ≠ .dPayload → i ≠ .decode → t.dnode = s.dnode ∧ t.dout = s.dout) ∧
    (i = .dFinish → t.dcur = s.dcur ∧ t.dcnt = s.dcnt ∧ t.dbits = s.dbits)

/-- 10_state.md R41: a step that changes ROOT or NCOUNT is the reset input's, or is the engine's turn and runs E_BUILD,
D_HEADER or a command that contains one of them. -/
def Obligations.OnlyBuildersAndResetWriteTheNodeStore : Prop :=
  ∀ s t : State, step s = .next t →
    (t.root = s.root ∧ t.nodeCount = s.nodeCount) ∨ (∃ k ms, s.moves = .reset k :: ms) ∨
    (s.busy = true ∧ (s.moves = [] ∨ ∃ ms, s.moves = .engine :: ms) ∧
      ∃ c i, s.latch = some c ∧ decode c = .instr i ∧ i ∈ [Instr.eBuild, .dHeader, .encode, .decode])

/-- 60_exceptions.md R162, 46_control.md R149: a step leaves FAILED only for IDLE, with OPERR cleared, and only the reset
input or a CLEAR does so; any other step keeps OPERR. -/
def Obligations.FailedIsLeftOnlyByClearOrReset : Prop :=
  ∀ s t : State, s.opstate = .failed → step s = .next t →
    (t.opstate = .failed ∧ t.operr = s.operr) ∨
    (t.opstate = .idle ∧ t.operr = .none ∧
      ((∃ k ms, s.moves = .reset k :: ms) ∨
        (s.busy = true ∧ (s.moves = [] ∨ ∃ ms, s.moves = .engine :: ms) ∧
          ∃ c, s.latch = some c ∧ decode c = .instr .clear)))

/-- 20_memory.md R76, R77: no command takes a byte back from the sink, and the sink is flushed once by each successful
E_FLUSH, ENCODE, D_FINISH and DECODE, and by nothing else. -/
def Obligations.SinkOnlyGrowsAndIsFlushedOncePerOperation : Prop :=
  ∀ (i : Instr) (s t : State), exec i s = .next t →
    s.dev.sink.bytes <+: t.dev.sink.bytes ∧
    t.dev.sink.flushes = s.dev.sink.flushes +
      if i ∈ [Instr.eFlush, .encode, .dFinish, .decode] ∧ t.errcode = .none then 1 else 0

/-! ## Invariants -/

/-- 10_state.md R26, R37 to R46, 40_bitbuffer.md R101: every step from a state of the invariant leads to one. -/
def Obligations.EveryStepKeepsTheInvariant : Prop :=
  ∀ s t : State, s.Inv → step s = .next t → t.Inv

/-- The reset state, with the parameters the model names (log 1) and the table values it names (log 2), satisfies the
invariant. -/
def Obligations.ResetSatisfiesTheInvariant : Prop := State.reset.Inv

/-! ## Registers, reset -/

/-- 10_state.md R20 to R27 and R33, 60_exceptions.md R157: the fields of STATUS and their numbers. -/
def Obligations.StatusHoldsItsFields : Prop :=
  ∀ s : State,
    s.status.getLsbD 0 = s.busy ∧ (s.status.getLsbD 1 = true ↔ s.errcode ≠ .none) ∧ s.status.getLsbD 2 = s.overrun ∧
    s.status.getLsbD 3 = false ∧ s.status.extractLsb' 16 16 = 0#16 ∧
    (s.errcode, s.status.extractLsb' 4 4) ∈ [(ErrCode.none, 0#4), (.ioError, 1#4), (.malformedHeader, 2#4),
      (.truncatedPayload, 3#4), (.allocationError, 4#4), (.boundsError, 5#4), (.illegalCommand, 6#4),
      (.sequenceError, 7#4), (.counterOverflow, 8#4), (.sourceMismatch, 9#4)] ∧
    (s.opstate, s.status.extractLsb' 8 4) ∈ [(OpState.idle, 0#4), (.eFreqCounted, 1#4), (.eTreeBuilt, 2#4),
      (.eTableBuilt, 3#4), (.eHeaderWritten, 4#4), (.ePayloadWritten, 5#4), (.eDone, 6#4), (.dHeaderParsed, 7#4),
      (.dPayloadDecoded, 8#4), (.dDone, 9#4), (.failed, 15#4)] ∧
    (s.operr, s.status.extractLsb' 12 4) ∈ [(ErrCode.none, 0#4), (.ioError, 1#4), (.malformedHeader, 2#4),
      (.truncatedPayload, 3#4), (.allocationError, 4#4), (.boundsError, 5#4), (.illegalCommand, 6#4),
      (.sequenceError, 7#4), (.counterOverflow, 8#4), (.sourceMismatch, 9#4)]

/-- 20_memory.md R50, R52, 10_state.md R18, R29, R30: a read while BUSY = 0 returns the register at its offset, 0 at CMD and
at a reserved offset, and changes no state. -/
def Obligations.IdleReadReturnsTheRegister : Prop :=
  ∀ (s : State) (ms : List Move) (off : Nat), s.busy = false → off < 256 → off % 4 = 0 → s.cfg.base % 256 = 0 →
    s.moves = .busRead (s.cfg.base + off) 4 :: ms →
    step s = .next { s with
      moves := ms
      busData :=
        if off = 0x04 then s.arg else if off = 0x08 then s.status else if off = 0x0C then s.result
        else if off = 0x10 then BitVec.ofNat 32 s.bb.content.length else 0#32 }

/-- 10_state.md R30: a read of STATUS while BUSY = 1 shows BUSY and OVERRUN as they are and reserved bits 0, whatever the
free value; a read of ARG, CMD or a reserved offset is as ever; no read changes HCORE. -/
def Obligations.BusyReadShowsBusyAndOverrun : Prop :=
  ∀ (s : State) (ms : List Move) (off : Nat), s.busy = true → off < 256 → off % 4 = 0 → s.cfg.base % 256 = 0 →
    s.moves = .busRead (s.cfg.base + off) 4 :: ms →
    ∃ v : Word, step s = .next { s with moves := ms, busData := v, busyReads := s.busyReads + 1 } ∧
      (off = 0x08 → v.getLsbD 0 = true ∧ v.getLsbD 2 = s.overrun ∧ v.getLsbD 3 = false ∧ v.extractLsb' 16 16 = 0#16) ∧
      (off = 0x04 → v = s.arg) ∧ (off = 0x00 ∨ 0x14 ≤ off → v = 0#32)

/-- 20_memory.md R52, R54: a write to CMD while BUSY = 0 latches the word with ARG and sets BUSY; while BUSY = 1 it is
dropped and sets OVERRUN; a write to ARG sets it; any other write of the block is ignored. -/
def Obligations.WriteIssuesSetsOrIsIgnored : Prop :=
  ∀ (s : State) (ms : List Move) (off : Nat) (v : Word), off < 256 → off % 4 = 0 → s.cfg.base % 256 = 0 →
    s.moves = .busWrite (s.cfg.base + off) 4 v :: ms →
    step s = .next
      (if off = 0x00 then
        if s.busy then { s with moves := ms, overrun := true }
        else { s with moves := ms, latch := some ⟨v, s.arg⟩, busy := true }
      else if off = 0x04 then { s with moves := ms, arg := v }
      else { s with moves := ms })

/-- 20_memory.md R51: an access of another width, or at an address that is no multiple of 4, is refused by name. -/
def Obligations.NarrowOrMisalignedAccessIsRefused : Prop :=
  ∀ (s : State) (ms : List Move) (addr n : Nat) (v : Word),
    (s.moves = .busRead addr n :: ms ∨ s.moves = .busWrite addr n v :: ms) →
    (n ≠ 4 → step s = .refused .accessWidth) ∧ (n = 4 → addr % 4 ≠ 0 → step s = .refused .misalignedAccess)

/-- 10_state.md R48: what the spec says reset leaves, and that no command reads what it leaves unspecified. -/
def Obligations.ResetLeavesTheRegistersZero : Prop :=
  State.reset.arg = 0#32 ∧ State.reset.result = 0#32 ∧ State.reset.bb.content = [] ∧ State.reset.busy = false ∧
  State.reset.errcode = .none ∧ State.reset.overrun = false ∧ State.reset.opstate = .idle ∧ State.reset.operr = .none ∧
  State.reset.latch = none ∧ State.reset.status = 0#32 ∧
  (∀ i : Instr, ((∃ v, i = .freqRead v) ∨ (∃ n, i = .cwLen n) ∨ ∃ n k, i = .cwBit n k) →
    exec i State.reset = .next { State.reset with errcode := .sequenceError }) ∧
  (∀ i : Instr, ((∃ n, i = .bbGet n) ∨ ∃ n, i = .bbReadByte n) →
    exec i State.reset = .next { State.reset with errcode := .boundsError })

/-- 70_reset_and_hazards.md R169: the reset input puts every register and table at its value in `State.reset` (the tables'
values are the model's, log 2) and keeps the parameters. With no command running the devices are untouched; a running
command has made the first `k` of the device calls it would make uninterrupted (log 21), or all if it makes no more: their
effects on the source's position and the sink stay, and no other call is made. -/
def Obligations.ResetInputKeepsTheDeviceEffects : Prop :=
  ∀ (s : State) (ms : List Move) (k : Nat), s.moves = .reset k :: ms →
    ((s.busy = false ∨ s.latch = none) → step s = .next
      { State.reset with cfg := s.cfg, dev := s.dev, moves := ms, busData := s.busData, busyReads := s.busyReads }) ∧
    (∀ c, s.busy = true → s.latch = some c →
      ∃ t made dev, step { s with moves := .engine :: ms } = .next t ∧ t.dev.calls = made ++ s.dev.calls ∧
        step s = .next
          { State.reset with cfg := s.cfg, dev := dev, moves := ms, busData := s.busData, busyReads := s.busyReads } ∧
        dev.calls = (made.reverse.take k).reverse ++ s.dev.calls ∧
        dev.sink.bytes = s.dev.sink.bytes ++ bytesWritten (made.reverse.take k) ∧
        dev.sink.flushes = s.dev.sink.flushes + (made.reverse.take k).count .sinkFlush ∧
        dev.src = Source.after (made.reverse.take k) s.dev.draws s.dev.src ∧
        dev.draws = s.dev.draws.drop (min k made.length) ∧
        (made.length ≤ k → dev = t.dev))
end

