-- ==== Sys2Proof/Laws/Devices.lean ====
section
/-! SUPPORT. What a part of a command and a device call can do, said once: the outcomes of `Res`, the device calls of quiet
devices, and what any call does to the bytes still ahead. -/

namespace Sys2Proof.Machine

/-! ## Res -/

theorem andThen_assoc {σ α β γ : Type} (r : Res σ α) (f : α → σ → Res σ β) (g : β → σ → Res σ γ) :
    (r.andThen f).andThen g = r.andThen fun v s => (f v s).andThen g := by
  cases r <;> rfl

theorem andThen_ok {σ α β : Type} {r : Res σ α} {f : α → σ → Res σ β} {v : β} {t : σ} (h : r.andThen f = .ok v t) :
    ∃ u s, r = .ok u s ∧ f u s = .ok v t := by
  cases r with
  | ok u s => exact ⟨u, s, rfl, h⟩
  | raise e s => cases h
  | stuck => cases h

theorem andThen_raise {σ α β : Type} {r : Res σ α} {f : α → σ → Res σ β} {e : ErrCode} {t : σ}
    (h : r.andThen f = .raise e t) : r = .raise e t ∨ ∃ u s, r = .ok u s ∧ f u s = .raise e t := by
  cases r with
  | ok u s => exact .inr ⟨u, s, rfl, h⟩
  | raise e' s => cases h; exact .inl rfl
  | stuck => cases h

theorem lift_ok {σ τ α : Type} {r : Res σ α} {put : σ → τ} {v : α} {t : τ} (h : r.lift put = .ok v t) :
    ∃ s, r = .ok v s ∧ t = put s := by
  cases r with
  | ok v' s => cases h; exact ⟨s, rfl, rfl⟩
  | raise e s => cases h
  | stuck => cases h

theorem lift_raise {σ τ α : Type} {r : Res σ α} {put : σ → τ} {e : ErrCode} {t : τ} (h : r.lift put = .raise e t) :
    ∃ s, r = .raise e s ∧ t = put s := by
  cases r with
  | ok v' s => cases h
  | raise e s => cases h; exact ⟨s, rfl, rfl⟩
  | stuck => cases h

theorem andThen_ne_stuck {σ α β : Type} {r : Res σ α} {f : α → σ → Res σ β} (hr : r ≠ .stuck)
    (hf : ∀ v s, r = .ok v s → f v s ≠ .stuck) : r.andThen f ≠ .stuck := by
  cases r with
  | ok v s => exact hf v s rfl
  | raise e s => exact nofun
  | stuck => exact absurd rfl hr

theorem lift_ne_stuck {σ τ α : Type} {r : Res σ α} {put : σ → τ} (hr : r ≠ .stuck) : r.lift put ≠ .stuck := by
  cases r with
  | ok v s => exact nofun
  | raise e s => exact nofun
  | stuck => exact absurd rfl hr

/-! ## Quiet devices -/

theorem srcRewind_quiet {d : Devices} (h : d.Quiet) :
    d.srcRewind = .answered () { d with src := { d.src with pos := 0 }, calls := .srcRewind :: d.calls } := by
  obtain ⟨src, sink, draws, calls⟩ := d
  obtain rfl : draws = [] := h
  rfl

theorem srcNext_quiet_byte {d : Devices} {v : Byte} (h : d.Quiet) (hv : d.src.bytes[d.src.pos]? = some v) :
    d.srcNext = .answered (.byte v)
      { d with src := { d.src with pos := d.src.pos + 1 }, calls := .srcNext (.byte v) :: d.calls } := by
  obtain ⟨src, sink, draws, calls⟩ := d
  obtain rfl : draws = [] := h
  simp [Devices.srcNext, Devices.call, Devices.draw, Devices.log] at hv ⊢
  simp [hv]

theorem srcNext_quiet_eoi {d : Devices} (h : d.Quiet) (hv : d.src.bytes[d.src.pos]? = none) :
    d.srcNext = .answered .eoi { d with calls := .srcNext .eoi :: d.calls } := by
  obtain ⟨src, sink, draws, calls⟩ := d
  obtain rfl : draws = [] := h
  simp [Devices.srcNext, Devices.call, Devices.draw, Devices.log] at hv ⊢
  simp [hv]

theorem sinkWrite_quiet {d : Devices} (v : Byte) (h : d.Quiet) :
    d.sinkWrite v = .answered ()
      { d with sink := { d.sink with bytes := d.sink.bytes ++ [v] }, calls := .sinkWrite v :: d.calls } := by
  obtain ⟨src, sink, draws, calls⟩ := d
  obtain rfl : draws = [] := h
  rfl

theorem sinkFlush_quiet {d : Devices} (h : d.Quiet) :
    d.sinkFlush = .answered ()
      { d with sink := { d.sink with flushes := d.sink.flushes + 1 }, calls := .sinkFlush :: d.calls } := by
  obtain ⟨src, sink, draws, calls⟩ := d
  obtain rfl : draws = [] := h
  rfl

/-! ## Any devices -/

/-- A draw never lets more bytes come than the bound counted. -/
theorem draw_bytesAhead (d : Devices) : d.draw.2.bytesAhead ≤ d.bytesAhead := by
  unfold Devices.draw Devices.bytesAhead
  rcases d with ⟨src, sink, _ | ⟨x, xs⟩, calls⟩
  · simp
  · rcases x with ⟨f, _ | c⟩ <;> simp

theorem draw_sink (d : Devices) : d.draw.2.sink = d.sink := by
  unfold Devices.draw
  split <;> rfl

/-- A call fails, or it is made. -/
theorem call_cases {α : Type} (d : Devices) (kind : CallKind) (k : Devices → Call α) :
    d.call kind k = .failed (d.draw.2.log (.failed kind)) ∨ d.call kind k = k d.draw.2 := by
  unfold Devices.call
  split <;> simp

/-- `SrcNext` fails, says end of input, or gives a byte, of which one fewer is then ahead; the sink is untouched. -/
theorem srcNext_cases (d : Devices) :
    (∃ e, d.srcNext = .failed e ∧ e.bytesAhead ≤ d.bytesAhead ∧ e.sink = d.sink) ∨
    (∃ e, d.srcNext = .answered .eoi e ∧ e.bytesAhead ≤ d.bytesAhead ∧ e.sink = d.sink) ∨
    (∃ v e, d.srcNext = .answered (.byte v) e ∧ e.bytesAhead + 1 ≤ d.bytesAhead ∧ e.sink = d.sink) := by
  have hd := draw_bytesAhead d
  have hs := draw_sink d
  rcases call_cases d .srcNext _ with h | h <;> unfold Devices.srcNext <;> rw [h]
  · exact .inl ⟨_, rfl, hd, hs⟩
  · cases hb : d.draw.2.src.bytes[d.draw.2.src.pos]? with
    | none => exact .inr (.inl ⟨_, rfl, hd, hs⟩)
    | some v =>
      refine .inr (.inr ⟨v, _, rfl, ?_, hs⟩)
      have hlt : d.draw.2.src.pos < d.draw.2.src.bytes.length := by
        by_contra hc
        simp [List.getElem?_eq_none (by omega : d.draw.2.src.bytes.length ≤ d.draw.2.src.pos)] at hb
      refine le_trans ?_ hd
      simp only [Devices.bytesAhead, Devices.log]
      omega

/-- `SrcRewind` fails or is made; the sink is untouched. -/
theorem srcRewind_cases (d : Devices) :
    (∃ e, d.srcRewind = .failed e ∧ e.sink = d.sink) ∨ (∃ e, d.srcRewind = .answered () e ∧ e.sink = d.sink) := by
  rcases call_cases d .srcRewind _ with h | h <;> unfold Devices.srcRewind <;> rw [h]
  · exact .inl ⟨_, rfl, draw_sink d⟩
  · exact .inr ⟨_, rfl, draw_sink d⟩

/-- `SinkWrite` fails and leaves the sink, or appends the byte; no more bytes come than before. -/
theorem sinkWrite_cases (v : Byte) (d : Devices) :
    (∃ e, d.sinkWrite v = .failed e ∧ e.bytesAhead ≤ d.bytesAhead ∧ e.sink = d.sink) ∨
    (∃ e, d.sinkWrite v = .answered () e ∧ e.bytesAhead ≤ d.bytesAhead ∧
      e.sink = { d.sink with bytes := d.sink.bytes ++ [v] }) := by
  have hd := draw_bytesAhead d
  have hs := draw_sink d
  rcases call_cases d .sinkWrite _ with h | h <;> unfold Devices.sinkWrite <;> rw [h]
  · exact .inl ⟨_, rfl, hd, hs⟩
  · exact .inr ⟨_, rfl, hd, by simp [Devices.log, hs]⟩

/-- `SinkFlush` fails and leaves the sink, or flushes it once. -/
theorem sinkFlush_cases (d : Devices) :
    (∃ e, d.sinkFlush = .failed e ∧ e.sink = d.sink) ∨
    (∃ e, d.sinkFlush = .answered () e ∧ e.sink = { d.sink with flushes := d.sink.flushes + 1 }) := by
  have hs := draw_sink d
  rcases call_cases d .sinkFlush _ with h | h <;> unfold Devices.sinkFlush <;> rw [h]
  · exact .inl ⟨_, rfl, hs⟩
  · exact .inr ⟨_, rfl, by simp [Devices.log, hs]⟩

end Sys2Proof.Machine
end

