-- ==== Sys2Proof/Laws/BitBuffer.lean ====
section
/-! SUPPORT. The bit buffer and the packing of bits into bytes, said once: what appending can do, that the header writer is
an append of the header, that every operation keeps the capacity, and that unpacking undoes packing. -/

namespace Sys2Proof.Machine

/-- Bits that fit are appended. -/
theorem appendAll_fits {cap : Nat} (bs : List Bool) (q : BitBuf) (h : q.content.length + bs.length ≤ cap) :
    q.appendAll cap bs = .ok () { content := q.content ++ bs, stale := q.stale.drop bs.length } := by
  induction bs generalizing q with
  | nil => simp [BitBuf.appendAll]
  | cons b bs ih =>
    simp only [List.length_cons] at h
    have hne : q.content.length ≠ cap := by omega
    have : q.append cap b = some { content := q.content ++ [b], stale := q.stale.tail } := by
      simp [BitBuf.append, BitBuf.len, hne]
    simp only [BitBuf.appendAll, this]
    rw [ih _ (by simp; omega)]
    simp [List.append_assoc, List.drop_tail]

/-- Of bits that do not fit, those that do stay, and the rest raise ALLOCATION_ERROR. -/
theorem appendAll_full {cap : Nat} (bs : List Bool) (q : BitBuf) (hq : q.content.length ≤ cap)
    (h : cap < q.content.length + bs.length) :
    q.appendAll cap bs = .raise .allocationError
      { content := q.content ++ bs.take (cap - q.content.length), stale := q.stale.drop (cap - q.content.length) } := by
  induction bs generalizing q with
  | nil => simp at h; omega
  | cons b bs ih =>
    simp only [List.length_cons] at h
    by_cases hc : q.content.length = cap
    · simp [BitBuf.appendAll, BitBuf.append, BitBuf.len, hc]
    · have : q.append cap b = some { content := q.content ++ [b], stale := q.stale.tail } := by
        simp [BitBuf.append, BitBuf.len, hc]
      simp only [BitBuf.appendAll, this]
      rw [ih _ (by simp; omega) (by simp; omega)]
      obtain ⟨k, hk⟩ : ∃ k, cap - q.content.length = k + 1 := ⟨cap - q.content.length - 1, by omega⟩
      have h2 : cap - (q.content ++ [b]).length = k := by simp; omega
      rw [h2, hk]
      simp [List.append_assoc, List.drop_tail]

/-- Appending never outlives a bound, and raises only ALLOCATION_ERROR. -/
theorem appendAll_cases (cap : Nat) (bs : List Bool) (q : BitBuf) :
    (∃ q', q.appendAll cap bs = .ok () q') ∨ ∃ q', q.appendAll cap bs = .raise .allocationError q' := by
  induction bs generalizing q with
  | nil => exact .inl ⟨q, rfl⟩
  | cons b bs ih =>
    simp only [BitBuf.appendAll]
    split
    · exact .inr ⟨q, rfl⟩
    · exact ih _

theorem appendAll_ne_stuck (cap : Nat) (bs : List Bool) (q : BitBuf) : q.appendAll cap bs ≠ .stuck := by
  rcases appendAll_cases cap bs q with ⟨q', h⟩ | ⟨q', h⟩ <;> simp [h]

theorem appendAll_append {cap : Nat} (bs cs : List Bool) (q : BitBuf) :
    q.appendAll cap (bs ++ cs) = (q.appendAll cap bs).andThen fun _ q => q.appendAll cap cs := by
  induction bs generalizing q with
  | nil => rfl
  | cons b bs ih =>
    simp only [List.cons_append, BitBuf.appendAll]
    cases q.append cap b with
    | none => rfl
    | some q' => exact ih q'

/-- WriteNode appends the header of its tree (42_header.md R120, 30_encoding.md R91). -/
theorem writeNode_eq {cap : Nat} (n : Node) (q : BitBuf) : writeNode cap n q = q.appendAll cap n.header := by
  induction n generalizing q with
  | leaf sym w => cases sym <;> rfl
  | internal w l r ihl ihr =>
    have : (Node.internal w l r).header = [false] ++ (l.header ++ r.header) := rfl
    rw [this, appendAll_append]
    simp only [writeNode, appendAll_append]
    congr 1
    funext _ q
    rw [ihl]
    congr 1
    funext _ q
    rw [ihr]

/-! ## The storage never grows past the capacity -/

/-- The number of storage bits ever written. -/
abbrev BitBuf.used (q : BitBuf) : Nat := q.content.length + q.stale.length

theorem append_used {cap : Nat} {b : Bool} {q q' : BitBuf} (hq : q.used ≤ cap) (h : q.append cap b = some q') :
    q'.used ≤ cap := by
  by_cases hc : q.content.length = cap
  · simp [BitBuf.append, BitBuf.len, hc] at h
  · simp only [BitBuf.append, BitBuf.len, hc, if_false, Option.some.injEq] at h
    subst h
    cases hs : q.stale <;> simp [BitBuf.used, hs] at hq ⊢ <;> omega

theorem appendAll_used {cap : Nat} (bs : List Bool) (q : BitBuf) (hq : q.used ≤ cap) :
    match q.appendAll cap bs with
    | .ok _ q' => q'.used ≤ cap
    | .raise _ q' => q'.used ≤ cap
    | .stuck => True := by
  induction bs generalizing q with
  | nil => exact hq
  | cons b bs ih =>
    simp only [BitBuf.appendAll]
    cases h : q.append cap b with
    | none => exact hq
    | some q' => exact ih q' (append_used hq h)

theorem removeLast_used (q : BitBuf) : q.removeLast.used = q.used := by
  unfold BitBuf.removeLast BitBuf.len
  split
  · rfl
  · simp [BitBuf.used]; omega

theorem clear_used (q : BitBuf) : q.clear.used = q.used := by simp [BitBuf.clear, BitBuf.used]

/-! ## Packing -/

theorem bits8_length (v : Byte) : (bits8 v).length = 8 := rfl

theorem bitsOf_cons (v : Byte) (bs : List Byte) : bitsOf (v :: bs) = bits8 v ++ bitsOf bs := rfl

theorem bitsOf_append (as bs : List Byte) : bitsOf (as ++ bs) = bitsOf as ++ bitsOf bs := by
  simp [bitsOf, List.flatMap_append]

theorem bits8_ofBoolListBE : ∀ a b c d e f g h : Bool,
    bits8 (BitVec.ofBoolListBE [a, b, c, d, e, f, g, h]) = [a, b, c, d, e, f, g, h] := by decide +kernel

theorem bits8_packedByte (bits : List Bool) (j : Nat) :
    bits8 (packedByte bits j) = (List.range 8).map fun t => bits.getD (8 * j + t) false :=
  bits8_ofBoolListBE _ _ _ _ _ _ _ _

theorem bits8_get (v : Byte) (t : Nat) (ht : t < 8) : (bits8 v)[t]? = some (v.getLsbD (7 - t)) := by
  have : t = 0 ∨ t = 1 ∨ t = 2 ∨ t = 3 ∨ t = 4 ∨ t = 5 ∨ t = 6 ∨ t = 7 := by omega
  rcases this with rfl | rfl | rfl | rfl | rfl | rfl | rfl | rfl <;> rfl

/-- Bit `7 - t` of packed byte `j` is bit `8·j + t` of the sequence, 0 beyond its end. -/
theorem packedByte_bit (bits : List Bool) (j t : Nat) (ht : t < 8) :
    (packedByte bits j).getLsbD (7 - t) = bits.getD (8 * j + t) false := by
  have h := bits8_get (packedByte bits j) t ht
  rw [bits8_packedByte, List.getElem?_map, List.getElem?_range ht] at h
  exact (Option.some.inj h).symm

/-- The bits of the packed bytes are the sequence, then the fewest zeros that fill a byte (30_encoding.md R89). -/
theorem bitsOf_packBytes (bits : List Bool) :
    bitsOf (packBytes bits) = bits ++ List.replicate (8 * ceilDiv8 bits.length - bits.length) false := by
  have key : ∀ m, bitsOf ((List.range m).map (packedByte bits)) =
      (List.range (8 * m)).map fun i => bits.getD i false := by
    intro m
    induction m with
    | zero => rfl
    | succ m ih =>
      rw [List.range_succ, List.map_append, bitsOf_append, ih, Nat.mul_succ, List.range_add, List.map_append]
      congr 1
      simp only [List.map_cons, List.map_nil, bitsOf, List.flatMap_cons, List.flatMap_nil, List.append_nil,
        bits8_packedByte, List.map_map]
      rfl
  rw [packBytes, key]
  have hle : bits.length ≤ 8 * ceilDiv8 bits.length := by unfold ceilDiv8; omega
  apply List.ext_getElem?
  intro i
  by_cases hi : i < 8 * ceilDiv8 bits.length
  · rw [List.getElem?_map, List.getElem?_range hi]
    by_cases hb : i < bits.length
    · simp [List.getElem?_append_left hb, hb]
    · rw [List.getElem?_append_right (by omega), List.getElem?_replicate]
      have : i - bits.length < 8 * ceilDiv8 bits.length - bits.length := by omega
      simp [this, List.getElem?_eq_none (by omega : bits.length ≤ i)]
  · rw [List.getElem?_eq_none (by simp; omega), List.getElem?_eq_none (by simp; omega)]

theorem packBytes_length (bits : List Bool) : (packBytes bits).length = ceilDiv8 bits.length := by
  simp [packBytes]

end Sys2Proof.Machine
end

