-- ==== Sys2Proof/Laws/State.lean ====
section
/-! SUPPORT. One lemma per field per update of State, each true by rfl, so that no proof unfolds a record update. -/

namespace Sys2Proof.Machine

/-! ## finish -/

@[simp] theorem finish_cfg (v : Word) (s : State) : (finish v s).cfg = s.cfg := rfl
@[simp] theorem finish_arg (v : Word) (s : State) : (finish v s).arg = s.arg := rfl
@[simp] theorem finish_result (v : Word) (s : State) : (finish v s).result = v := rfl
@[simp] theorem finish_busy (v : Word) (s : State) : (finish v s).busy = false := rfl
@[simp] theorem finish_overrun (v : Word) (s : State) : (finish v s).overrun = s.overrun := rfl
@[simp] theorem finish_errcode (v : Word) (s : State) : (finish v s).errcode = .none := rfl
@[simp] theorem finish_opstate (v : Word) (s : State) : (finish v s).opstate = s.opstate := rfl
@[simp] theorem finish_operr (v : Word) (s : State) : (finish v s).operr = s.operr := rfl
@[simp] theorem finish_latch (v : Word) (s : State) : (finish v s).latch = s.latch := rfl
@[simp] theorem finish_freq (v : Word) (s : State) : (finish v s).freq = s.freq := rfl
@[simp] theorem finish_n1 (v : Word) (s : State) : (finish v s).n1 = s.n1 := rfl
@[simp] theorem finish_pl (v : Word) (s : State) : (finish v s).pl = s.pl := rfl
@[simp] theorem finish_nodeCount (v : Word) (s : State) : (finish v s).nodeCount = s.nodeCount := rfl
@[simp] theorem finish_root (v : Word) (s : State) : (finish v s).root = s.root := rfl
@[simp] theorem finish_cw (v : Word) (s : State) : (finish v s).cw = s.cw := rfl
@[simp] theorem finish_path (v : Word) (s : State) : (finish v s).path = s.path := rfl
@[simp] theorem finish_bb (v : Word) (s : State) : (finish v s).bb = s.bb := rfl
@[simp] theorem finish_dcur (v : Word) (s : State) : (finish v s).dcur = s.dcur := rfl
@[simp] theorem finish_dcnt (v : Word) (s : State) : (finish v s).dcnt = s.dcnt := rfl
@[simp] theorem finish_dnode (v : Word) (s : State) : (finish v s).dnode = s.dnode := rfl
@[simp] theorem finish_dbits (v : Word) (s : State) : (finish v s).dbits = s.dbits := rfl
@[simp] theorem finish_dout (v : Word) (s : State) : (finish v s).dout = s.dout := rfl
@[simp] theorem finish_dev (v : Word) (s : State) : (finish v s).dev = s.dev := rfl
@[simp] theorem finish_moves (v : Word) (s : State) : (finish v s).moves = s.moves := rfl
@[simp] theorem finish_busData (v : Word) (s : State) : (finish v s).busData = s.busData := rfl
@[simp] theorem finish_busyReads (v : Word) (s : State) : (finish v s).busyReads = s.busyReads := rfl

/-! ## raiseDirect -/

@[simp] theorem raiseDirect_cfg (e : ErrCode) (s : State) : (raiseDirect e s).cfg = s.cfg := rfl
@[simp] theorem raiseDirect_arg (e : ErrCode) (s : State) : (raiseDirect e s).arg = s.arg := rfl
@[simp] theorem raiseDirect_result (e : ErrCode) (s : State) : (raiseDirect e s).result = 0#32 := rfl
@[simp] theorem raiseDirect_busy (e : ErrCode) (s : State) : (raiseDirect e s).busy = false := rfl
@[simp] theorem raiseDirect_overrun (e : ErrCode) (s : State) : (raiseDirect e s).overrun = s.overrun := rfl
@[simp] theorem raiseDirect_errcode (e : ErrCode) (s : State) : (raiseDirect e s).errcode = e := rfl
@[simp] theorem raiseDirect_opstate (e : ErrCode) (s : State) : (raiseDirect e s).opstate = s.opstate := rfl
@[simp] theorem raiseDirect_operr (e : ErrCode) (s : State) : (raiseDirect e s).operr = s.operr := rfl
@[simp] theorem raiseDirect_latch (e : ErrCode) (s : State) : (raiseDirect e s).latch = s.latch := rfl
@[simp] theorem raiseDirect_freq (e : ErrCode) (s : State) : (raiseDirect e s).freq = s.freq := rfl
@[simp] theorem raiseDirect_n1 (e : ErrCode) (s : State) : (raiseDirect e s).n1 = s.n1 := rfl
@[simp] theorem raiseDirect_pl (e : ErrCode) (s : State) : (raiseDirect e s).pl = s.pl := rfl
@[simp] theorem raiseDirect_nodeCount (e : ErrCode) (s : State) : (raiseDirect e s).nodeCount = s.nodeCount := rfl
@[simp] theorem raiseDirect_root (e : ErrCode) (s : State) : (raiseDirect e s).root = s.root := rfl
@[simp] theorem raiseDirect_cw (e : ErrCode) (s : State) : (raiseDirect e s).cw = s.cw := rfl
@[simp] theorem raiseDirect_path (e : ErrCode) (s : State) : (raiseDirect e s).path = s.path := rfl
@[simp] theorem raiseDirect_bb (e : ErrCode) (s : State) : (raiseDirect e s).bb = s.bb := rfl
@[simp] theorem raiseDirect_dcur (e : ErrCode) (s : State) : (raiseDirect e s).dcur = s.dcur := rfl
@[simp] theorem raiseDirect_dcnt (e : ErrCode) (s : State) : (raiseDirect e s).dcnt = s.dcnt := rfl
@[simp] theorem raiseDirect_dnode (e : ErrCode) (s : State) : (raiseDirect e s).dnode = s.dnode := rfl
@[simp] theorem raiseDirect_dbits (e : ErrCode) (s : State) : (raiseDirect e s).dbits = s.dbits := rfl
@[simp] theorem raiseDirect_dout (e : ErrCode) (s : State) : (raiseDirect e s).dout = s.dout := rfl
@[simp] theorem raiseDirect_dev (e : ErrCode) (s : State) : (raiseDirect e s).dev = s.dev := rfl
@[simp] theorem raiseDirect_moves (e : ErrCode) (s : State) : (raiseDirect e s).moves = s.moves := rfl
@[simp] theorem raiseDirect_busData (e : ErrCode) (s : State) : (raiseDirect e s).busData = s.busData := rfl
@[simp] theorem raiseDirect_busyReads (e : ErrCode) (s : State) : (raiseDirect e s).busyReads = s.busyReads := rfl

/-! ## raisePipeline -/

@[simp] theorem raisePipeline_cfg (e : ErrCode) (s : State) : (raisePipeline e s).cfg = s.cfg := rfl
@[simp] theorem raisePipeline_arg (e : ErrCode) (s : State) : (raisePipeline e s).arg = s.arg := rfl
@[simp] theorem raisePipeline_result (e : ErrCode) (s : State) : (raisePipeline e s).result = 0#32 := rfl
@[simp] theorem raisePipeline_busy (e : ErrCode) (s : State) : (raisePipeline e s).busy = false := rfl
@[simp] theorem raisePipeline_overrun (e : ErrCode) (s : State) : (raisePipeline e s).overrun = s.overrun := rfl
@[simp] theorem raisePipeline_errcode (e : ErrCode) (s : State) : (raisePipeline e s).errcode = e := rfl
@[simp] theorem raisePipeline_opstate (e : ErrCode) (s : State) : (raisePipeline e s).opstate = .failed := rfl
@[simp] theorem raisePipeline_operr (e : ErrCode) (s : State) : (raisePipeline e s).operr = e := rfl
@[simp] theorem raisePipeline_latch (e : ErrCode) (s : State) : (raisePipeline e s).latch = s.latch := rfl
@[simp] theorem raisePipeline_freq (e : ErrCode) (s : State) : (raisePipeline e s).freq = s.freq := rfl
@[simp] theorem raisePipeline_n1 (e : ErrCode) (s : State) : (raisePipeline e s).n1 = s.n1 := rfl
@[simp] theorem raisePipeline_pl (e : ErrCode) (s : State) : (raisePipeline e s).pl = s.pl := rfl
@[simp] theorem raisePipeline_nodeCount (e : ErrCode) (s : State) : (raisePipeline e s).nodeCount = s.nodeCount := rfl
@[simp] theorem raisePipeline_root (e : ErrCode) (s : State) : (raisePipeline e s).root = s.root := rfl
@[simp] theorem raisePipeline_cw (e : ErrCode) (s : State) : (raisePipeline e s).cw = s.cw := rfl
@[simp] theorem raisePipeline_path (e : ErrCode) (s : State) : (raisePipeline e s).path = s.path := rfl
@[simp] theorem raisePipeline_bb (e : ErrCode) (s : State) : (raisePipeline e s).bb = s.bb := rfl
@[simp] theorem raisePipeline_dcur (e : ErrCode) (s : State) : (raisePipeline e s).dcur = s.dcur := rfl
@[simp] theorem raisePipeline_dcnt (e : ErrCode) (s : State) : (raisePipeline e s).dcnt = s.dcnt := rfl
@[simp] theorem raisePipeline_dnode (e : ErrCode) (s : State) : (raisePipeline e s).dnode = s.dnode := rfl
@[simp] theorem raisePipeline_dbits (e : ErrCode) (s : State) : (raisePipeline e s).dbits = s.dbits := rfl
@[simp] theorem raisePipeline_dout (e : ErrCode) (s : State) : (raisePipeline e s).dout = s.dout := rfl
@[simp] theorem raisePipeline_dev (e : ErrCode) (s : State) : (raisePipeline e s).dev = s.dev := rfl
@[simp] theorem raisePipeline_moves (e : ErrCode) (s : State) : (raisePipeline e s).moves = s.moves := rfl
@[simp] theorem raisePipeline_busData (e : ErrCode) (s : State) : (raisePipeline e s).busData = s.busData := rfl
@[simp] theorem raisePipeline_busyReads (e : ErrCode) (s : State) : (raisePipeline e s).busyReads = s.busyReads := rfl

/-! ## clearOperation -/

@[simp] theorem clearOperation_cfg (s : State) : (clearOperation s).cfg = s.cfg := rfl
@[simp] theorem clearOperation_arg (s : State) : (clearOperation s).arg = s.arg := rfl
@[simp] theorem clearOperation_result (s : State) : (clearOperation s).result = s.result := rfl
@[simp] theorem clearOperation_busy (s : State) : (clearOperation s).busy = s.busy := rfl
@[simp] theorem clearOperation_overrun (s : State) : (clearOperation s).overrun = false := rfl
@[simp] theorem clearOperation_errcode (s : State) : (clearOperation s).errcode = s.errcode := rfl
@[simp] theorem clearOperation_opstate (s : State) : (clearOperation s).opstate = .idle := rfl
@[simp] theorem clearOperation_operr (s : State) : (clearOperation s).operr = .none := rfl
@[simp] theorem clearOperation_latch (s : State) : (clearOperation s).latch = s.latch := rfl
@[simp] theorem clearOperation_freq (s : State) : (clearOperation s).freq = s.freq := rfl
@[simp] theorem clearOperation_n1 (s : State) : (clearOperation s).n1 = s.n1 := rfl
@[simp] theorem clearOperation_pl (s : State) : (clearOperation s).pl = s.pl := rfl
@[simp] theorem clearOperation_nodeCount (s : State) : (clearOperation s).nodeCount = s.nodeCount := rfl
@[simp] theorem clearOperation_root (s : State) : (clearOperation s).root = s.root := rfl
@[simp] theorem clearOperation_cw (s : State) : (clearOperation s).cw = s.cw := rfl
@[simp] theorem clearOperation_path (s : State) : (clearOperation s).path = s.path := rfl
@[simp] theorem clearOperation_bb (s : State) : (clearOperation s).bb = s.bb := rfl
@[simp] theorem clearOperation_dcur (s : State) : (clearOperation s).dcur = s.dcur := rfl
@[simp] theorem clearOperation_dcnt (s : State) : (clearOperation s).dcnt = s.dcnt := rfl
@[simp] theorem clearOperation_dnode (s : State) : (clearOperation s).dnode = s.dnode := rfl
@[simp] theorem clearOperation_dbits (s : State) : (clearOperation s).dbits = s.dbits := rfl
@[simp] theorem clearOperation_dout (s : State) : (clearOperation s).dout = s.dout := rfl
@[simp] theorem clearOperation_dev (s : State) : (clearOperation s).dev = s.dev := rfl
@[simp] theorem clearOperation_moves (s : State) : (clearOperation s).moves = s.moves := rfl
@[simp] theorem clearOperation_busData (s : State) : (clearOperation s).busData = s.busData := rfl
@[simp] theorem clearOperation_busyReads (s : State) : (clearOperation s).busyReads = s.busyReads := rfl

/-! ## putSupply -/

@[simp] theorem putSupply_cfg (s : State) (u : Supply) : (s.putSupply u).cfg = s.cfg := rfl
@[simp] theorem putSupply_arg (s : State) (u : Supply) : (s.putSupply u).arg = s.arg := rfl
@[simp] theorem putSupply_result (s : State) (u : Supply) : (s.putSupply u).result = s.result := rfl
@[simp] theorem putSupply_busy (s : State) (u : Supply) : (s.putSupply u).busy = s.busy := rfl
@[simp] theorem putSupply_overrun (s : State) (u : Supply) : (s.putSupply u).overrun = s.overrun := rfl
@[simp] theorem putSupply_errcode (s : State) (u : Supply) : (s.putSupply u).errcode = s.errcode := rfl
@[simp] theorem putSupply_opstate (s : State) (u : Supply) : (s.putSupply u).opstate = s.opstate := rfl
@[simp] theorem putSupply_operr (s : State) (u : Supply) : (s.putSupply u).operr = s.operr := rfl
@[simp] theorem putSupply_latch (s : State) (u : Supply) : (s.putSupply u).latch = s.latch := rfl
@[simp] theorem putSupply_freq (s : State) (u : Supply) : (s.putSupply u).freq = s.freq := rfl
@[simp] theorem putSupply_n1 (s : State) (u : Supply) : (s.putSupply u).n1 = s.n1 := rfl
@[simp] theorem putSupply_pl (s : State) (u : Supply) : (s.putSupply u).pl = s.pl := rfl
@[simp] theorem putSupply_nodeCount (s : State) (u : Supply) : (s.putSupply u).nodeCount = s.nodeCount := rfl
@[simp] theorem putSupply_root (s : State) (u : Supply) : (s.putSupply u).root = s.root := rfl
@[simp] theorem putSupply_cw (s : State) (u : Supply) : (s.putSupply u).cw = s.cw := rfl
@[simp] theorem putSupply_path (s : State) (u : Supply) : (s.putSupply u).path = s.path := rfl
@[simp] theorem putSupply_bb (s : State) (u : Supply) : (s.putSupply u).bb = s.bb := rfl
@[simp] theorem putSupply_dcur (s : State) (u : Supply) : (s.putSupply u).dcur = u.dcur := rfl
@[simp] theorem putSupply_dcnt (s : State) (u : Supply) : (s.putSupply u).dcnt = u.dcnt := rfl
@[simp] theorem putSupply_dnode (s : State) (u : Supply) : (s.putSupply u).dnode = s.dnode := rfl
@[simp] theorem putSupply_dbits (s : State) (u : Supply) : (s.putSupply u).dbits = u.dbits := rfl
@[simp] theorem putSupply_dout (s : State) (u : Supply) : (s.putSupply u).dout = s.dout := rfl
@[simp] theorem putSupply_dev (s : State) (u : Supply) : (s.putSupply u).dev = u.dev := rfl
@[simp] theorem putSupply_moves (s : State) (u : Supply) : (s.putSupply u).moves = s.moves := rfl
@[simp] theorem putSupply_busData (s : State) (u : Supply) : (s.putSupply u).busData = s.busData := rfl
@[simp] theorem putSupply_busyReads (s : State) (u : Supply) : (s.putSupply u).busyReads = s.busyReads := rfl

end Sys2Proof.Machine
end

