-- ==== Sys2Proof/Laws/Tree.lean ====
section
/-! SUPPORT. The priority list, the tree builder and the codewords, said once: where an insertion puts a node, that E_BUILD's
builder makes the reference tree and counts its nodes, and how a codeword and the walk it spells fit together. -/

namespace Sys2Proof.Machine

/-! ## The priority list -/

theorem plInsert_eq (n : Node) (pl : List Node) :
    plInsert n pl = pl.takeWhile (fun x => decide (x.weight ≤ n.weight)) ++
      n :: pl.dropWhile (fun x => decide (x.weight ≤ n.weight)) := by
  induction pl with
  | nil => rfl
  | cons x xs ih => by_cases h : x.weight ≤ n.weight <;> simp [plInsert, h, ih]

theorem plInsert_perm (n : Node) (pl : List Node) : (plInsert n pl).Perm (n :: pl) := by
  induction pl with
  | nil => exact .refl _
  | cons x xs ih =>
    unfold plInsert
    split
    · exact (ih.cons x).trans (.swap ..)
    · exact .refl _

theorem plInsert_length (n : Node) (pl : List Node) : (plInsert n pl).length = pl.length + 1 :=
  (plInsert_perm n pl).length_eq

theorem insertAll_perm (ns pl : List Node) : (insertAll ns pl).Perm (ns ++ pl) := by
  induction ns generalizing pl with
  | nil => exact .refl _
  | cons n ns ih =>
    refine (ih (plInsert n pl)).trans ?_
    exact ((plInsert_perm n pl).append_left ns).trans (List.perm_middle)

/-! ## Sizes -/

theorem Node.size_eq (n : Node) : n.size + 1 = 2 * n.symbols.length := by
  induction n with
  | leaf sym w => rfl
  | internal w l r ihl ihr => simp only [Node.size, Node.symbols, List.length_append]; omega

theorem Node.symbols_pos (n : Node) : 0 < n.symbols.length := by
  have := n.size_eq
  omega

/-- The nodes of all trees of a list. -/
def sizes (pl : List Node) : Nat := (pl.map Node.size).sum

/-- The symbols of all trees of a list. -/
def allSymbols (pl : List Node) : List Sym := pl.flatMap Node.symbols

theorem sizes_perm {as bs : List Node} (h : as.Perm bs) : sizes as = sizes bs := (h.map Node.size).sum_eq

theorem allSymbols_perm {as bs : List Node} (h : as.Perm bs) : (allSymbols as).Perm (allSymbols bs) :=
  h.flatMap_right Node.symbols

theorem sizes_add_length (pl : List Node) : sizes pl + pl.length = 2 * (allSymbols pl).length := by
  induction pl with
  | nil => rfl
  | cons n ns ih =>
    have := n.size_eq
    simp only [sizes, allSymbols, List.map_cons, List.sum_cons, List.length_cons, List.flatMap_cons,
      List.length_append] at ih ⊢
    omega

/-- A merge keeps the symbols of the list. -/
theorem allSymbols_merge (w : Option Nat) (a b : Node) (rest : List Node) :
    (allSymbols (plInsert (.internal w a b) rest)).Perm (allSymbols (a :: b :: rest)) := by
  refine (allSymbols_perm (plInsert_perm _ rest)).trans ?_
  simp [allSymbols, Node.symbols]

theorem mergeAll_length (k : Nat) (pl : List Node) (hk : pl.length ≤ k + 1) (hp : pl ≠ []) :
    (mergeAll k pl).length = 1 := by
  induction k generalizing pl with
  | zero =>
    match pl with
    | [] => exact absurd rfl hp
    | [_] => rfl
    | _ :: _ :: _ => simp at hk
  | succ k ih =>
    match pl with
    | [] => exact absurd rfl hp
    | [_] => rfl
    | a :: b :: rest =>
      apply ih
      · rw [plInsert_length]; simp at hk; omega
      · intro h; have := plInsert_length (.internal (some (a.weight + b.weight)) a b) rest; rw [h] at this; simp at this

theorem mergeAll_symbols (k : Nat) (pl : List Node) : (allSymbols (mergeAll k pl)).Perm (allSymbols pl) := by
  induction k generalizing pl with
  | zero => exact .refl _
  | succ k ih =>
    match pl with
    | [] => exact .refl _
    | [_] => exact .refl _
    | a :: b :: rest => exact (ih _).trans (allSymbols_merge _ a b rest)

/-! ## The machine's builder makes the reference tree -/

theorem insertNew_ok {cap : Nat} (n : Node) (b : Builder) (h : b.nodeCount < cap) :
    insertNew cap n b = .ok () { pl := plInsert n b.pl, nodeCount := b.nodeCount + 1 } := by
  have : b.nodeCount ≠ cap := by omega
  simp [insertNew, allocNode, this]

/-- The byte leaves of step 1 of E_BUILD. -/
def byteLeaves (f : Vector Nat 256) (vs : List Byte) : List Node :=
  (vs.filter fun v => freqAt f v ≠ 0).map fun v => .leaf (.byte v) (some (freqAt f v))

theorem insertLeaves_ok {cap : Nat} (f : Vector Nat 256) (vs : List Byte) (b : Builder)
    (h : b.nodeCount + vs.length ≤ cap) :
    insertLeaves cap f vs b =
      .ok () { pl := insertAll (byteLeaves f vs) b.pl, nodeCount := b.nodeCount + (byteLeaves f vs).length } := by
  induction vs generalizing b with
  | nil => rfl
  | cons v vs ih =>
    simp only [List.length_cons] at h
    by_cases hv : freqAt f v = 0
    · simp only [insertLeaves, hv, ne_eq, not_true_eq_false, if_false]
      rw [ih b (by omega)]
      simp [byteLeaves, hv]
    · simp only [insertLeaves, hv, ne_eq, not_false_eq_true, if_true]
      rw [insertNew_ok _ _ (by omega)]
      simp only [Res.andThen]
      rw [ih _ (by simp only; omega)]
      simp [byteLeaves, hv, insertAll, Nat.add_assoc, Nat.add_comm]

/-- The merging loop: with one node allocated per merge it makes the reference merges, and NCOUNT grows by their number. -/
theorem mergeLoop_ok {cap : Nat} (k : Nat) (b : Builder) (hk : b.pl.length ≤ k + 1) (hp : b.pl ≠ [])
    (hc : b.nodeCount + b.pl.length ≤ cap + 1) :
    mergeLoop cap k b = .ok () { pl := mergeAll k b.pl, nodeCount := b.nodeCount + (b.pl.length - 1) } := by
  induction k generalizing b with
  | zero =>
    obtain ⟨pl, c⟩ := b
    match pl with
    | [] => exact absurd rfl hp
    | [_] => rfl
    | _ :: _ :: _ => simp at hk
  | succ k ih =>
    obtain ⟨pl, c⟩ := b
    match pl with
    | [] => exact absurd rfl hp
    | [_] => rfl
    | a :: d :: rest =>
      simp only [List.length_cons] at hk hc
      simp only [mergeLoop]
      rw [insertNew_ok _ _ (by simp only; omega)]
      simp only [Res.andThen]
      have hl := plInsert_length (.internal (some (a.weight + d.weight)) a d) rest
      rw [ih _ (by simp only [hl]; omega) (by intro h; simp only at h; rw [h] at hl; simp at hl) (by simp only [hl]; omega)]
      simp only [hl, List.length_cons, mergeAll]
      congr 2
      omega

theorem allBytes_length : allBytes.length = 256 := by simp [allBytes]

theorem mem_allBytes (v : Byte) : v ∈ allBytes := by
  simp only [allBytes, List.mem_map, List.mem_range]
  exact ⟨v.toNat, v.isLt, by simp⟩

theorem allBytes_nodup : allBytes.Nodup := by
  unfold allBytes
  rw [List.nodup_map_iff_inj_on List.nodup_range]
  intro a ha b hb h
  have := congrArg BitVec.toNat h
  simp only [BitVec.toNat_ofNat, List.mem_range] at this ha hb
  omega

theorem byteLeaves_length_le (f : Vector Nat 256) : (byteLeaves f allBytes).length ≤ 256 := by
  rw [byteLeaves, List.length_map]
  exact (List.length_filter_le _ _).trans (by rw [allBytes_length])

theorem initialLeaves_eq (f : Vector Nat 256) : initialLeaves f = byteLeaves f allBytes ++ [.leaf .eos (some 1)] := rfl

theorem insertAll_append (as bs pl : List Node) : insertAll (as ++ bs) pl = insertAll bs (insertAll as pl) := by
  simp [insertAll]

theorem insertAll_length (ns pl : List Node) : (insertAll ns pl).length = ns.length + pl.length := by
  rw [(insertAll_perm ns pl).length_eq, List.length_append]

theorem initialList_ne_nil (f : Vector Nat 256) : insertAll (initialLeaves f) [] ≠ [] := by
  intro h
  have := insertAll_length (initialLeaves f) []
  rw [h] at this
  simp [initialLeaves] at this

theorem mergeAll_initial (f : Vector Nat 256) :
    mergeAll (initialLeaves f).length (insertAll (initialLeaves f) []) = [treeOf f] := by
  have h := mergeAll_length (initialLeaves f).length (insertAll (initialLeaves f) [])
    (by rw [insertAll_length]; simp) (initialList_ne_nil f)
  obtain ⟨n, hn⟩ := List.length_eq_one_iff.mp h
  simp [treeOf, hn]

/-- The leaves of the tree of a frequency table are the bytes that occur and EOS, each once
(41_tree_builder.md R115, 43_codeword_table.md R128). -/
theorem treeOf_symbols (f : Vector Nat 256) :
    (treeOf f).symbols.Perm (((allBytes.filter fun v => freqAt f v ≠ 0).map Sym.byte) ++ [.eos]) := by
  have h1 := mergeAll_symbols (initialLeaves f).length (insertAll (initialLeaves f) [])
  rw [mergeAll_initial] at h1
  have h2 := allSymbols_perm (insertAll_perm (initialLeaves f) [])
  have h3 : allSymbols (initialLeaves f ++ []) = ((allBytes.filter fun v => freqAt f v ≠ 0).map Sym.byte) ++ [.eos] := by
    simp only [allSymbols, initialLeaves, List.append_nil, List.flatMap_append, List.flatMap_map, Node.symbols,
      List.flatMap_cons, List.flatMap_nil, ← List.map_eq_flatMap]
  have h4 : allSymbols [treeOf f] = (treeOf f).symbols := by simp [allSymbols]
  rw [h4] at h1
  rw [h3] at h2
  exact h1.trans h2

theorem treeOf_size (f : Vector Nat 256) : (treeOf f).size = 2 * (initialLeaves f).length - 1 := by
  have h := (treeOf f).size_eq
  have h2 := (treeOf_symbols f).length_eq
  simp only [List.length_append, List.length_map, List.length_singleton] at h2
  simp only [initialLeaves, List.length_append, List.length_map, List.length_singleton]
  omega

/-- Steps 1 to 3 of E_BUILD, with a node store of at least 513 nodes, leave the tree alone in the list and count its
nodes (41_tree_builder.md R115). -/
theorem buildList_eq {cap : Nat} (f : Vector Nat 256) (hc : 513 ≤ cap) :
    buildList cap f = .ok () { pl := [treeOf f], nodeCount := (treeOf f).size } := by
  have hl := byteLeaves_length_le f
  unfold buildList
  rw [insertLeaves_ok _ _ _ (by rw [allBytes_length]; simp only; omega)]
  simp only [Res.andThen]
  rw [insertNew_ok _ _ (by simp only; omega)]
  simp only [Nat.zero_add]
  have hi : plInsert (.leaf .eos (some 1)) (insertAll (byteLeaves f allBytes) []) = insertAll (initialLeaves f) [] := by
    rw [initialLeaves_eq, insertAll_append]; rfl
  rw [hi]
  have hlen : (insertAll (initialLeaves f) []).length = (initialLeaves f).length := by rw [insertAll_length]; simp
  have hlen2 : (initialLeaves f).length = (byteLeaves f allBytes).length + 1 := by rw [initialLeaves_eq]; simp
  rw [mergeLoop_ok _ _ (by simp only; omega) (initialList_ne_nil f) (by simp only; omega)]
  rw [hlen, mergeAll_initial]
  have hs := treeOf_size f
  congr 2
  simp only
  omega

/-! ## Weights -/

theorem plInsert_forall {P : Node → Prop} (n : Node) (pl : List Node) :
    (∀ x ∈ plInsert n pl, P x) ↔ P n ∧ ∀ x ∈ pl, P x := by
  simp [(plInsert_perm n pl).mem_iff]

theorem mergeAll_weightsAdd (k : Nat) (pl : List Node) (h : ∀ x ∈ pl, x.WeightsAdd) :
    ∀ x ∈ mergeAll k pl, x.WeightsAdd := by
  induction k generalizing pl with
  | zero => exact h
  | succ k ih =>
    match pl with
    | [] => exact h
    | [_] => exact h
    | a :: b :: rest =>
      apply ih
      rw [plInsert_forall]
      simp only [List.mem_cons, forall_eq_or_imp] at h
      exact ⟨⟨rfl, h.1, h.2.1⟩, h.2.2⟩

/-- The sum of the weights of a list. -/
def weights (pl : List Node) : Nat := (pl.map Node.weight).sum

theorem weights_perm {as bs : List Node} (h : as.Perm bs) : weights as = weights bs := (h.map Node.weight).sum_eq

theorem mergeAll_weights (k : Nat) (pl : List Node) : weights (mergeAll k pl) = weights pl := by
  induction k generalizing pl with
  | zero => rfl
  | succ k ih =>
    match pl with
    | [] => rfl
    | [_] => rfl
    | a :: b :: rest =>
      simp only [mergeAll]
      rw [ih, weights_perm (plInsert_perm _ rest)]
      simp [weights, Node.weight, Nat.add_assoc]

/-! ## Codewords -/

/-- The node a bit sequence leads to. -/
def Node.follow (n : Node) (p : List Bool) : Node := p.foldl Node.child n

/-- A symbol has a codeword exactly if some leaf has it. -/
theorem codeword_isSome (n : Node) (x : Sym) : (n.codeword x).isSome ↔ x ∈ n.symbols := by
  induction n with
  | leaf sym w => by_cases h : sym = x <;> simp [Node.codeword, Node.symbols, h, Ne.symm]
  | internal w l r ihl ihr =>
    simp only [Node.codeword, Node.symbols, List.mem_append, ← ihl, ← ihr]
    cases r.codeword x <;> simp

/-- The codeword of a symbol leads from the root to a leaf of that symbol (30_encoding.md R92). -/
theorem follow_codeword (n : Node) (x : Sym) (p : List Bool) (h : n.codeword x = some p) :
    ∃ w, n.follow p = .leaf x w := by
  induction n generalizing p with
  | leaf sym w =>
    by_cases hx : sym = x <;> simp [Node.codeword, hx] at h
    subst h hx
    exact ⟨w, rfl⟩
  | internal w l r ihl ihr =>
    simp only [Node.codeword] at h
    cases hr : r.codeword x with
    | some q =>
      simp only [hr, Option.some.injEq] at h
      subst h
      exact ihr q hr
    | none =>
      simp only [hr, Option.map_eq_some_iff] at h
      obtain ⟨q, hq, rfl⟩ := h
      exact ihl q hq

theorem leaf_follow (sym : Sym) (w : Option Nat) (p : List Bool) : (Node.leaf sym w).follow p = .leaf sym w := by
  induction p with
  | nil => rfl
  | cons b p ih => exact ih

/-- A proper prefix of a codeword leads to an internal node. -/
theorem codeword_prefix_internal (n : Node) (x : Sym) (p q : List Bool) (b : Bool)
    (h : n.codeword x = some (p ++ b :: q)) : (n.follow p).isLeaf = false := by
  induction n generalizing p with
  | leaf sym w =>
    by_cases hx : sym = x <;> simp [Node.codeword, hx] at h
  | internal w l r ihl ihr =>
    cases p with
    | nil => rfl
    | cons c p =>
      simp only [Node.codeword] at h
      cases hr : r.codeword x with
      | some s =>
        simp only [hr, Option.some.injEq, List.cons_append, List.cons.injEq] at h
        obtain ⟨rfl, rfl⟩ := h
        exact ihr p hr
      | none =>
        simp only [hr, Option.map_eq_some_iff, List.cons_append, List.cons.injEq] at h
        obtain ⟨s, hs, rfl, rfl⟩ := h
        exact ihl p hs

theorem bare_codeword (n : Node) (x : Sym) : n.bare.codeword x = n.codeword x := by
  induction n with
  | leaf sym w => rfl
  | internal w l r ihl ihr => simp only [Node.bare, Node.codeword, ihl, ihr]

theorem bare_isLeaf (n : Node) : n.bare.isLeaf = n.isLeaf := by cases n <;> rfl

theorem bare_size (n : Node) : n.bare.size = n.size := by
  induction n with
  | leaf sym w => rfl
  | internal w l r ihl ihr => simp only [Node.bare, Node.size, ihl, ihr]

theorem bare_isByteLeaf (n : Node) : n.bare.isByteLeaf = n.isByteLeaf := by
  cases n with
  | leaf sym w => cases sym <;> rfl
  | internal w l r => rfl

/-! ## E_TABLE's visit -/

theorem cwAt_cwSet (t : Vector (Option (List Bool)) 257) (s x : Sym) (bits : List Bool) :
    cwAt (cwSet t s bits) x = if s = x then some bits else cwAt t x := by
  have hinj : s.index.val = x.index.val ↔ s = x := by
    cases s <;> cases x <;> simp [Sym.index]
    · rename_i v w
      exact BitVec.toNat_inj
    · rename_i v
      have := v.isLt
      omega
    · rename_i v
      have := v.isLt
      omega
  simp only [cwAt, cwSet, Fin.getElem_fin]
  by_cases h : s = x
  · subst h; simp
  · rw [Vector.getElem_set_ne _ _ (fun hc => h (hinj.mp hc))]
    simp [h]

theorem push_cw (b : Bool) (t : Tabling) : (t.push b).cw = t.cw := rfl
theorem push_path (b : Bool) (t : Tabling) : (t.push b).path = t.path ++ [b] := rfl
theorem push_count (b : Bool) (t : Tabling) : (t.push b).count = t.count := rfl
theorem pop_cw (t : Tabling) : t.pop.cw = t.cw := rfl
theorem pop_path (t : Tabling) : t.pop.path = t.path.dropLast := rfl
theorem pop_count (t : Tabling) : t.pop.count = t.count := rfl

/-- Visiting a subtree sets the entry of each of its symbols to the path so far and the symbol's codeword within it, leaves
the other entries and the path, and counts the leaves (43_codeword_table.md R127). -/
theorem visit_spec (n : Node) (t : Tabling) :
    (∀ x, cwAt (visit n t).cw x = match n.codeword x with | some p => some (t.path ++ p) | none => cwAt t.cw x) ∧
    (visit n t).path = t.path ∧ (visit n t).count = t.count + n.symbols.length := by
  induction n generalizing t with
  | leaf sym w =>
    refine ⟨fun x => ?_, rfl, rfl⟩
    simp only [visit, cwAt_cwSet, Node.codeword]
    by_cases h : sym = x <;> simp [h]
  | internal w l r ihl ihr =>
    obtain ⟨hl, hlp, hlc⟩ := ihl (t.push false)
    obtain ⟨hr, hrp, hrc⟩ := ihr ((visit l (t.push false)).pop.push true)
    have hmid : (visit l (t.push false)).pop.path = t.path := by
      rw [pop_path, hlp, push_path, List.dropLast_concat]
    refine ⟨fun x => ?_, ?_, ?_⟩
    · simp only [visit, pop_cw, hr x, Node.codeword, push_cw, hl x, push_path, hmid]
      cases r.codeword x <;> cases l.codeword x <;> simp
    · simp only [visit, pop_path, hrp, push_path, hlp, List.dropLast_concat]
    · simp only [visit, pop_count, hrc, push_count, hlc, Node.symbols, List.length_append]
      omega

theorem cwAt_tableOf (n : Node) (x : Sym) : cwAt (tableOf n) x = n.codeword x := by
  cases x with
  | byte v =>
    have := v.isLt
    simp [cwAt, tableOf, Sym.index, this]
  | eos => simp [cwAt, tableOf, Sym.index]

/-- Two tables with the same entry for every symbol are the same table. -/
theorem cw_ext {t u : Vector (Option (List Bool)) 257} (h : ∀ x, cwAt t x = cwAt u x) : t = u := by
  apply Vector.ext
  intro i hi
  by_cases h2 : i < 256
  · have := h (.byte (BitVec.ofNat 8 i))
    simpa [cwAt, Sym.index, Nat.mod_eq_of_lt h2] using this
  · have hi2 : i = 256 := by omega
    subst hi2
    exact h .eos

theorem cwAt_replicate (x : Sym) : cwAt (Vector.replicate 257 none) x = none := by simp [cwAt]

/-- E_TABLE's visit of a whole tree makes the reference table (43_codeword_table.md R127). -/
theorem visit_root (n : Node) :
    visit n { cw := Vector.replicate 257 none, path := [], count := 0 } =
      { cw := tableOf n, path := [], count := n.symbols.length } := by
  obtain ⟨hc, hp, hn⟩ := visit_spec n { cw := Vector.replicate 257 none, path := [], count := 0 }
  generalize visit n { cw := Vector.replicate 257 none, path := [], count := 0 } = t at hc hp hn
  obtain ⟨cw, path, count⟩ := t
  simp only at hc hp hn
  have : cw = tableOf n := by
    apply cw_ext
    intro x
    rw [hc x, cwAt_tableOf, cwAt_replicate]
    cases n.codeword x <;> simp
  simp [this, hp, hn]

end Sys2Proof.Machine
end

