-- ==== Sys2Proof/Laws/Loops.lean ====
section
/-! SUPPORT. The loops over the source and the sink, said once: that each ends within its bound whatever the devices do, and
what each does with quiet devices. -/

namespace Sys2Proof.Machine

/-! ## Every loop ends -/

theorem countLoop_ends (m : Nat) : ∀ fuel n c, c.dev.bytesAhead < fuel → countLoop m fuel n c ≠ .stuck
  | 0, _, _, h => absurd h (Nat.not_lt_zero _)
  | fuel + 1, n, c, h => by
    rcases srcNext_cases c.dev with ⟨e, he, _⟩ | ⟨e, he, _⟩ | ⟨v, e, he, hb, _⟩ <;> simp only [countLoop, he]
    · exact nofun
    · exact nofun
    · split
      · exact nofun
      · exact countLoop_ends m fuel _ _ (by simp only; omega)

theorem fillLoop_ends (cap n1 : Nat) (cw : Vector (Option (List Bool)) 257) :
    ∀ fuel n c, c.dev.bytesAhead < fuel → fillLoop cap n1 cw fuel n c ≠ .stuck
  | 0, _, _, h => absurd h (Nat.not_lt_zero _)
  | fuel + 1, n, c, h => by
    rcases srcNext_cases c.dev with ⟨e, he, _⟩ | ⟨e, he, _⟩ | ⟨v, e, he, hb, _⟩ <;> simp only [fillLoop, he]
    · exact nofun
    · exact nofun
    · split
      · exact nofun
      · split
        · exact nofun
        · refine andThen_ne_stuck (lift_ne_stuck (appendAll_ne_stuck _ _ _)) ?_
          intro _ s hs
          obtain ⟨q, _, rfl⟩ := lift_ok hs
          exact fillLoop_ends cap n1 cw fuel _ _ (by simp only; omega)

theorem writeAll_ends (vs : List Byte) (d : Devices) : writeAll vs d ≠ .stuck := by
  induction vs generalizing d with
  | nil => exact nofun
  | cons v vs ih =>
    simp only [writeAll]
    split
    · exact nofun
    · exact ih _

theorem flushSink_ends (d : Devices) : flushSink d ≠ .stuck := by
  unfold flushSink
  split <;> exact nofun

theorem mergeLoop_ends (cap : Nat) : ∀ fuel b, b.pl.length ≤ fuel + 1 → mergeLoop cap fuel b ≠ .stuck
  | 0, b, h => by
    have : ¬ b.pl.length > 1 := by omega
    simp [mergeLoop, this]
  | fuel + 1, b, h => by
    obtain ⟨pl, c⟩ := b
    match pl with
    | [] => exact nofun
    | [_] => exact nofun
    | a :: d :: rest =>
      simp only [mergeLoop]
      refine andThen_ne_stuck ?_ ?_
      · unfold insertNew
        split <;> exact nofun
      · intro _ b hb
        apply mergeLoop_ends
        unfold insertNew at hb
        split at hb
        · cases hb
        · cases hb
          simp only [plInsert_length]
          simp only [List.length_cons] at h
          omega

/-! ## Counting with quiet devices (41_tree_builder.md R114) -/

/-- The log of calls after `SrcNext` has answered each of `xs`. -/
def nextCalls (xs : List Byte) (calls : List DevCall) : List DevCall :=
  (xs.map fun v => DevCall.srcNext (.byte v)).reverse ++ calls

theorem nextCalls_cons (v : Byte) (xs : List Byte) (calls : List DevCall) :
    nextCalls xs (.srcNext (.byte v) :: calls) = nextCalls (v :: xs) calls := by
  simp [nextCalls]

/-- Quiet devices after the source's bytes `xs`, from the position on, have been read. -/
def Devices.advance (d : Devices) (xs : List Byte) : Devices :=
  { d with src := { d.src with pos := d.src.pos + xs.length }, calls := nextCalls xs d.calls }

/-- Quiet devices after the rest of the source has been read to its end. -/
def Devices.drained (d : Devices) (xs : List Byte) : Devices :=
  { d.advance xs with calls := .srcNext .eoi :: nextCalls xs d.calls }

theorem drop_pos_cons {bs : List Byte} {p : Nat} {v : Byte} {xs : List Byte} (h : bs.drop p = v :: xs) :
    bs[p]? = some v ∧ bs.drop (p + 1) = xs := by
  refine ⟨?_, ?_⟩
  · have := congrArg (·[0]?) h
    simpa using this
  · have := congrArg List.tail h
    simpa [List.tail_drop] using this

theorem drop_pos_nil {bs : List Byte} {p : Nat} (h : bs.drop p = []) : bs[p]? = none := by
  have := congrArg (·[0]?) h
  simpa using this

/-- Counting each byte of `xs` in turn. -/
def bumpAll (f : Vector Nat 256) (xs : List Byte) : Vector Nat 256 := xs.foldl freqBump f

theorem countLoop_quiet (m : Nat) (xs : List Byte) (fuel n : Nat) (c : Counting) (hq : c.dev.Quiet)
    (hx : c.dev.src.bytes.drop c.dev.src.pos = xs) (hf : xs.length < fuel) (hn : n + xs.length ≤ m - 1) :
    countLoop m fuel n c = .ok (n + xs.length) { dev := c.dev.drained xs, freq := bumpAll c.freq xs } := by
  induction xs generalizing fuel n c with
  | nil =>
    obtain ⟨fuel, rfl⟩ : ∃ k, fuel = k + 1 := ⟨fuel - 1, by simp at hf; omega⟩
    simp only [countLoop, srcNext_quiet_eoi hq (drop_pos_nil hx)]
    rfl
  | cons v xs ih =>
    obtain ⟨fuel, rfl⟩ : ∃ k, fuel = k + 1 := ⟨fuel - 1, by simp at hf; omega⟩
    obtain ⟨hv, hx'⟩ := drop_pos_cons hx
    simp only [List.length_cons] at hf hn
    have hne : n ≠ m - 1 := by omega
    simp only [countLoop, srcNext_quiet_byte hq hv, hne, if_false]
    rw [ih]
    rotate_left
    · exact hq
    · exact hx'
    · omega
    · omega
    simp only [Devices.drained, Devices.advance, nextCalls_cons, List.length_cons, bumpAll, List.foldl_cons]
    congr 1
    · omega
    · congr 3
      omega

/-- With more bytes than fit, counting raises COUNTER_OVERFLOW on the first one too many (41_tree_builder.md R114). -/
theorem countLoop_overflow (m : Nat) (xs : List Byte) (v : Byte) (ys : List Byte) (fuel n : Nat) (c : Counting)
    (hq : c.dev.Quiet) (hx : c.dev.src.bytes.drop c.dev.src.pos = xs ++ v :: ys) (hf : xs.length < fuel)
    (hn : n + xs.length = m - 1) :
    countLoop m fuel n c =
      .raise .counterOverflow { dev := c.dev.advance (xs ++ [v]), freq := bumpAll c.freq xs } := by
  induction xs generalizing fuel n c with
  | nil =>
    obtain ⟨fuel, rfl⟩ : ∃ k, fuel = k + 1 := ⟨fuel - 1, by simp at hf; omega⟩
    have hn' : n = m - 1 := by simpa using hn
    obtain ⟨hv, hx'⟩ := drop_pos_cons hx
    simp only [countLoop, srcNext_quiet_byte hq hv, hn', if_true]
    rfl
  | cons w xs ih =>
    obtain ⟨fuel, rfl⟩ : ∃ k, fuel = k + 1 := ⟨fuel - 1, by simp at hf; omega⟩
    obtain ⟨hv, hx'⟩ := drop_pos_cons hx
    simp only [List.length_cons] at hf hn
    have hne : n ≠ m - 1 := by omega
    simp only [countLoop, srcNext_quiet_byte hq hv, hne, if_false]
    rw [ih]
    rotate_left
    · exact hq
    · exact hx'
    · omega
    · omega
    simp only [Devices.advance, nextCalls_cons, List.length_cons, List.cons_append, bumpAll, List.foldl_cons]
    congr 3
    simp only [Source.mk.injEq, true_and]
    omega

theorem freqAt_bump (f : Vector Nat 256) (v x : Byte) :
    freqAt (freqBump f v) x = freqAt f x + if v = x then 1 else 0 := by
  unfold freqAt freqBump
  by_cases h : v = x
  · subst h; simp [freqAt]
  · have : v.toNat ≠ x.toNat := fun hc => h (BitVec.toNat_inj.mp hc)
    rw [Vector.getElem_set_ne _ _ this]
    simp [h]

theorem freqAt_bumpAll (f : Vector Nat 256) (xs : List Byte) (x : Byte) :
    freqAt (bumpAll f xs) x = freqAt f x + xs.count x := by
  induction xs generalizing f with
  | nil => rfl
  | cons v xs ih =>
    simp only [bumpAll, List.foldl_cons] at ih ⊢
    rw [ih, freqAt_bump, List.count_cons]
    by_cases h : v = x
    · simp [h]; omega
    · simp [h]

theorem freqAt_countsOf (xs : List Byte) (x : Byte) : freqAt (countsOf xs) x = xs.count x := by
  simp [freqAt, countsOf]

theorem freq_ext {f g : Vector Nat 256} (h : ∀ x, freqAt f x = freqAt g x) : f = g := by
  apply Vector.ext
  intro i hi
  have := h (BitVec.ofNat 8 i)
  simpa [freqAt, Nat.mod_eq_of_lt hi] using this

/-- Counting from zero makes the frequency table of the input. -/
theorem bumpAll_zero (xs : List Byte) : bumpAll (Vector.replicate 256 0) xs = countsOf xs := by
  apply freq_ext
  intro x
  rw [freqAt_bumpAll, freqAt_countsOf]
  simp [freqAt]

theorem freqSum_bump (f : Vector Nat 256) (v : Byte) : freqSum (freqBump f v) = freqSum f + 1 := by
  have key : ∀ l : List Byte, l.Nodup →
      (l.map (freqAt (freqBump f v))).sum = (l.map (freqAt f)).sum + if v ∈ l then 1 else 0 := by
    intro l hl
    induction l with
    | nil => rfl
    | cons a l ih =>
      obtain ⟨ha, hl'⟩ := List.nodup_cons.mp hl
      simp only [List.map_cons, List.sum_cons, ih hl', freqAt_bump, List.mem_cons]
      by_cases h : v = a
      · subst h; simp [ha]; omega
      · simp [h]; omega
  unfold freqSum
  rw [key allBytes allBytes_nodup, if_pos (mem_allBytes v)]

theorem freqSum_of_zero {f : Vector Nat 256} (h : ∀ v, freqAt f v = 0) : freqSum f = 0 := by
  have key : ∀ l : List Byte, (l.map (freqAt f)).sum = 0 := by
    intro l
    induction l with
    | nil => rfl
    | cons a l ih => rw [List.map_cons, List.sum_cons, h, ih]
  exact key allBytes

theorem freqAt_zero (v : Byte) : freqAt (Vector.replicate 256 0) v = 0 := by simp [freqAt]

theorem freqSum_bumpAll (f : Vector Nat 256) (xs : List Byte) : freqSum (bumpAll f xs) = freqSum f + xs.length := by
  induction xs generalizing f with
  | nil => rw [bumpAll, List.foldl_nil, List.length_nil, Nat.add_zero]
  | cons v xs ih =>
    simp only [bumpAll, List.foldl_cons, List.length_cons] at ih ⊢
    rw [ih, freqSum_bump]
    omega

theorem freqSum_countsOf (xs : List Byte) : freqSum (countsOf xs) = xs.length := by
  rw [← bumpAll_zero, freqSum_bumpAll, freqSum_of_zero freqAt_zero, Nat.zero_add]

/-- Whatever the devices do, a count that ends well ends at most at `m - 1`, and its counters add up to it. -/
theorem countLoop_sum (m fuel n : Nat) (c : Counting) (k : Nat) (c' : Counting) (hs : freqSum c.freq = n)
    (hn : n ≤ m - 1) (h : countLoop m fuel n c = .ok k c') : freqSum c'.freq = k ∧ k ≤ m - 1 := by
  induction fuel generalizing n c with
  | zero => cases h
  | succ fuel ih =>
    rcases srcNext_cases c.dev with ⟨e, he, _⟩ | ⟨e, he, _⟩ | ⟨v, e, he, hb, _⟩ <;> simp only [countLoop, he] at h
    · cases h
    · cases h; exact ⟨hs, hn⟩
    · by_cases hm : n = m - 1
      · simp [hm] at h
      · rw [if_neg hm] at h
        refine ih (n + 1) _ ?_ (by omega) h
        rw [freqSum_bump, hs]

/-! ## Filling the buffer with quiet devices (44_encoder.md R133) -/

/-- The codewords of a byte sequence in a table, one after another, an absent one counting as no bits. -/
def codesOf (cw : Vector (Option (List Bool)) 257) (xs : List Byte) : List Bool :=
  xs.flatMap fun v => (cwAt cw (.byte v)).getD []

theorem fillLoop_quiet (cap n1 : Nat) (cw : Vector (Option (List Bool)) 257) (xs : List Byte) (fuel n : Nat)
    (c : Filling) (hq : c.dev.Quiet) (hx : c.dev.src.bytes.drop c.dev.src.pos = xs) (hf : xs.length < fuel)
    (hn : n + xs.length ≤ n1) (hcw : ∀ v ∈ xs, cwAt cw (.byte v) ≠ none)
    (hfit : c.bb.content.length + (codesOf cw xs).length ≤ cap) :
    fillLoop cap n1 cw fuel n c =
      .ok (n + xs.length)
        { dev := c.dev.drained xs
          bb := { content := c.bb.content ++ codesOf cw xs, stale := c.bb.stale.drop (codesOf cw xs).length } } := by
  induction xs generalizing fuel n c with
  | nil =>
    obtain ⟨fuel, rfl⟩ : ∃ k, fuel = k + 1 := ⟨fuel - 1, by simp at hf; omega⟩
    simp only [fillLoop, srcNext_quiet_eoi hq (drop_pos_nil hx), codesOf, List.flatMap_nil, List.append_nil,
      List.length_nil, List.drop_zero]
    rfl
  | cons v xs ih =>
    obtain ⟨fuel, rfl⟩ : ∃ k, fuel = k + 1 := ⟨fuel - 1, by simp at hf; omega⟩
    obtain ⟨hv, hx'⟩ := drop_pos_cons hx
    simp only [List.length_cons] at hf hn
    have hne : n ≠ n1 := by omega
    obtain ⟨bits, hb⟩ := Option.ne_none_iff_exists'.mp (hcw v (by simp))
    have hcodes : codesOf cw (v :: xs) = bits ++ codesOf cw xs := by simp [codesOf, hb]
    rw [hcodes, List.length_append] at hfit
    simp only [fillLoop, srcNext_quiet_byte hq hv, hne, if_false, hb]
    rw [appendAll_fits bits c.bb (by omega)]
    simp only [Res.lift, Res.andThen]
    rw [ih]
    rotate_left
    · exact hq
    · exact hx'
    · omega
    · omega
    · exact fun w hw => hcw w (by simp [hw])
    · simp only [List.length_append]
      omega
    simp only [Devices.drained, Devices.advance, nextCalls_cons, List.length_cons, hcodes, List.length_append,
      List.drop_drop, List.append_assoc]
    congr 1
    · omega
    · congr 3
      omega

/-! ## Writing to the sink with quiet devices (44_encoder.md R134) -/

theorem writeAll_quiet (vs : List Byte) (d : Devices) (hq : d.Quiet) :
    writeAll vs d = .ok () { d with
      sink := { d.sink with bytes := d.sink.bytes ++ vs }
      calls := (vs.map DevCall.sinkWrite).reverse ++ d.calls } := by
  induction vs generalizing d with
  | nil => simp [writeAll]
  | cons v vs ih =>
    simp only [writeAll, sinkWrite_quiet v hq]
    rw [ih]
    · simp
    · exact hq

theorem flushSink_quiet (d : Devices) (hq : d.Quiet) :
    flushSink d = .ok () { d with
      sink := { d.sink with flushes := d.sink.flushes + 1 }, calls := .sinkFlush :: d.calls } := by
  simp only [flushSink, sinkFlush_quiet hq]

/-- Writing bytes and flushing where one of the calls fails: the bytes before it are in the sink (44_encoder.md R134,
20_memory.md R73, R77). -/
theorem writeFlush_fails (vs : List Byte) (d : Devices) (oks : List Draw) (x : Draw) (more : List Draw)
    (hd : d.draws = oks ++ x :: more) (hok : ∀ y ∈ oks, y.fails = false) (hx : x.fails = true)
    (hl : oks.length ≤ vs.length) :
    ∃ src, ((writeAll vs d).andThen fun _ d => flushSink d) = .raise .ioError
        { src := src
          sink := { d.sink with bytes := d.sink.bytes ++ vs.take oks.length }
          draws := more
          calls := .failed (if oks.length < vs.length then .sinkWrite else .sinkFlush) ::
            (((vs.take oks.length).map DevCall.sinkWrite).reverse ++ d.calls) } ∧
      ((∀ y ∈ oks ++ [x], y.source = none) → src = d.src) := by
  induction vs generalizing d oks with
  | nil =>
    obtain rfl : oks = [] := by simpa using hl
    obtain ⟨src, sink, draws, calls⟩ := d
    simp only [List.nil_append] at hd
    subst hd
    refine ⟨x.source.getD src, ?_, fun h => by simp [h x (by simp)]⟩
    simp [writeAll, Res.andThen, flushSink, Devices.sinkFlush, Devices.call, Devices.draw, hx, Devices.log]
  | cons v vs ih =>
    obtain ⟨src, sink, draws, calls⟩ := d
    simp only at hd
    subst hd
    cases oks with
    | nil =>
      refine ⟨x.source.getD src, ?_, fun h => by simp [h x (by simp)]⟩
      simp [writeAll, Res.andThen, Devices.sinkWrite, Devices.call, Devices.draw, hx, Devices.log]
    | cons y oks =>
      have hy := hok y (by simp)
      obtain ⟨src', h, hs⟩ := ih
        { src := y.source.getD src, sink := { sink with bytes := sink.bytes ++ [v] }, draws := oks ++ x :: more,
          calls := .sinkWrite v :: calls } oks rfl (fun z hz => hok z (by simp [hz])) (by simpa using hl)
      refine ⟨src', ?_, fun hn => ?_⟩
      · simp only [writeAll, Devices.sinkWrite, Devices.call, Devices.draw, List.cons_append, hy, Devices.log]
        simp only [Bool.false_eq_true, if_false]
        rw [h]
        simp
      · rw [hs fun z hz => hn z (by simp at hz ⊢; tauto)]
        simp [hn y (by simp)]

end Sys2Proof.Machine
end

