-- ==== Sys2Proof/Laws/Supply.lean ====
section
/-! SUPPORT. The bit supply, the header reader and the payload walk, said once: that each ends within its bound whatever the
devices do, and what each reads with quiet devices. -/

namespace Sys2Proof.Machine

/-! ## Reading exactly the bits `bs` with quiet devices -/

/-- `u'` is what quiet devices leave of `u` after the bits `bs` have been read, and nothing has been written. -/
structure Supply.Reads (u : Supply) (bs : List Bool) (u' : Supply) : Prop where
  ahead : u.ahead = bs ++ u'.ahead
  quiet : u'.dev.Quiet
  bytes : u'.dev.src.bytes = u.dev.src.bytes
  sink : u'.dev.sink = u.dev.sink
  dbits : u'.dbits = u.dbits + BitVec.ofNat 32 bs.length
  pulled : 8 * u'.dev.src.pos + u.dcnt.val = 8 * u.dev.src.pos + u'.dcnt.val + bs.length
  cursor : u.dcnt.val < 8 → u'.dcnt.val < 8

theorem Supply.Reads.nil {u : Supply} (h : u.dev.Quiet) : u.Reads [] u where
  ahead := rfl
  quiet := h
  bytes := rfl
  sink := rfl
  dbits := by simp
  pulled := by simp
  cursor := id

theorem Supply.Reads.trans {u v w : Supply} {as bs : List Bool} (h : u.Reads as v) (k : v.Reads bs w) :
    u.Reads (as ++ bs) w where
  ahead := by rw [h.ahead, k.ahead, List.append_assoc]
  quiet := k.quiet
  bytes := k.bytes.trans h.bytes
  sink := k.sink.trans h.sink
  dbits := by
    rw [k.dbits, h.dbits, List.length_append, BitVec.ofNat_add, BitVec.add_assoc]
  pulled := by
    have := h.pulled
    have := k.pulled
    simp only [List.length_append]
    omega
  cursor := fun hc => k.cursor (h.cursor hc)

theorem drop_bits8 (v : Byte) (k : Nat) (hk : k < 8) :
    (bits8 v).drop (8 - (k + 1)) = v.getLsbD k :: (bits8 v).drop (8 - k) := by
  have : k = 0 ∨ k = 1 ∨ k = 2 ∨ k = 3 ∨ k = 4 ∨ k = 5 ∨ k = 6 ∨ k = 7 := by omega
  rcases this with rfl | rfl | rfl | rfl | rfl | rfl | rfl | rfl <;> rfl

theorem readBit_ready (ctx : BitCtx) (u : Supply) (k : Nat) (hk : k + 1 < 9) (hd : u.dcnt = ⟨k + 1, hk⟩) :
    readBit ctx u =
      .ok (u.dcur.getLsbD k) { u with dcnt := ⟨k, Nat.lt_of_succ_lt hk⟩, dbits := u.dbits + 1#32 } := by
  obtain ⟨dev, dcur, dcnt, dbits⟩ := u
  subst hd
  rfl

theorem readBit_pull (ctx : BitCtx) (u : Supply) (hd : u.dcnt = 0) :
    readBit ctx u =
      match u.dev.srcNext with
      | .failed d => .raise .ioError { u with dev := d }
      | .answered .eoi d => .raise ctx.endError { u with dev := d }
      | .answered (.byte v) d =>
        .ok (v.getLsbD 7) { u with dev := d, dcur := v, dcnt := ⟨7, by decide⟩, dbits := u.dbits + 1#32 } := by
  obtain ⟨dev, dcur, dcnt, dbits⟩ := u
  subst hd
  rfl

theorem dcnt_cases (u : Supply) : u.dcnt = 0 ∨ ∃ k, ∃ hk : k + 1 < 9, u.dcnt = ⟨k + 1, hk⟩ := by
  obtain ⟨dev, dcur, ⟨n, hn⟩, dbits⟩ := u
  cases n with
  | zero => exact .inl rfl
  | succ k => exact .inr ⟨k, hn, rfl⟩

/-- With a bit ahead, `ReadBit` reads it (45_decoder.md R139). -/
theorem readBit_quiet (ctx : BitCtx) (u : Supply) (b : Bool) (rest : List Bool) (hq : u.dev.Quiet)
    (ha : u.ahead = b :: rest) : ∃ u', readBit ctx u = .ok b u' ∧ u.Reads [b] u' ∧ u'.ahead = rest := by
  rcases dcnt_cases u with hd | ⟨k, hk, hd⟩
  · have h0 : u.ahead = bitsOf (u.dev.src.bytes.drop u.dev.src.pos) := by
      unfold Supply.ahead
      rw [hd]
      rfl
    rw [h0] at ha
    cases hx : u.dev.src.bytes.drop u.dev.src.pos with
    | nil => rw [hx] at ha; cases ha
    | cons v xs =>
      obtain ⟨hv, hx'⟩ := drop_pos_cons hx
      rw [hx, bitsOf_cons] at ha
      obtain ⟨hb, hr⟩ := List.cons.inj ha
      have hb' : v.getLsbD 7 = b := hb
      rw [readBit_pull ctx u hd, srcNext_quiet_byte hq hv]
      simp only [hb']
      have hah : Supply.ahead
          { dev := { u.dev with src := { u.dev.src with pos := u.dev.src.pos + 1 },
                                calls := .srcNext (.byte v) :: u.dev.calls },
            dcur := v, dcnt := ⟨7, by decide⟩, dbits := u.dbits + 1#32 } = rest := by
        unfold Supply.ahead
        simp only [hx']
        exact hr
      refine ⟨_, rfl, ?_, hah⟩
      exact {
        ahead := by
          rw [hah, h0, hx, bitsOf_cons, List.singleton_append]
          exact ha
        quiet := hq
        bytes := rfl
        sink := rfl
        dbits := rfl
        pulled := by
          rw [hd]
          simp
          omega
        cursor := fun _ => Nat.lt_succ_self 7 }
  · have h0 : u.ahead = u.dcur.getLsbD k :: ((bits8 u.dcur).drop (8 - k) ++
        bitsOf (u.dev.src.bytes.drop u.dev.src.pos)) := by
      unfold Supply.ahead
      rw [hd]
      simp only
      rw [drop_bits8 _ _ (by omega), List.cons_append]
    rw [h0] at ha
    obtain ⟨hb, hr⟩ := List.cons.inj ha
    rw [readBit_ready ctx u k hk hd, hb]
    refine ⟨_, rfl, ?_, hr⟩
    exact {
      ahead := by rw [h0, hb]; rfl
      quiet := hq
      bytes := rfl
      sink := rfl
      dbits := rfl
      pulled := by
        rw [hd]
        simp
        omega
      cursor := fun _ => by simp only; omega }

/-- With no bit ahead, `ReadBit` raises the error of its context (45_decoder.md R139). -/
theorem readBit_quiet_end (ctx : BitCtx) (u : Supply) (hq : u.dev.Quiet) (ha : u.ahead = []) :
    readBit ctx u = .raise ctx.endError { u with dev := { u.dev with calls := .srcNext .eoi :: u.dev.calls } } := by
  rcases dcnt_cases u with hd | ⟨k, hk, hd⟩
  · have h0 : u.ahead = bitsOf (u.dev.src.bytes.drop u.dev.src.pos) := by
      unfold Supply.ahead
      rw [hd]
      rfl
    rw [h0] at ha
    cases hx : u.dev.src.bytes.drop u.dev.src.pos with
    | nil => rw [readBit_pull ctx u hd, srcNext_quiet_eoi hq (drop_pos_nil hx)]
    | cons v xs => rw [hx] at ha; cases ha
  · have h0 : u.ahead = u.dcur.getLsbD k :: ((bits8 u.dcur).drop (8 - k) ++
        bitsOf (u.dev.src.bytes.drop u.dev.src.pos)) := by
      unfold Supply.ahead
      rw [hd]
      simp only
      rw [drop_bits8 _ _ (by omega), List.cons_append]
    rw [h0] at ha
    cases ha

/-- Whatever the devices do, `ReadBit` gives a bit, of which one fewer is then ahead, or raises; the sink is untouched. -/
theorem readBit_cases (ctx : BitCtx) (u : Supply) :
    (∃ b u', readBit ctx u = .ok b u' ∧ u'.bitsAhead + 1 ≤ u.bitsAhead ∧ u'.dev.sink = u.dev.sink) ∨
    (∃ e u', readBit ctx u = .raise e u' ∧ (e = .ioError ∨ e = ctx.endError) ∧ u'.dev.sink = u.dev.sink) := by
  rcases dcnt_cases u with hd | ⟨k, hk, hd⟩
  · rw [readBit_pull ctx u hd]
    rcases srcNext_cases u.dev with ⟨e, he, _, hs⟩ | ⟨e, he, _, hs⟩ | ⟨v, e, he, hb, hs⟩ <;> rw [he]
    · exact .inr ⟨_, _, rfl, .inl rfl, hs⟩
    · exact .inr ⟨_, _, rfl, .inr rfl, hs⟩
    · refine .inl ⟨_, _, rfl, ?_, hs⟩
      simp only [Supply.bitsAhead]
      omega
  · rw [readBit_ready ctx u k hk hd]
    refine .inl ⟨_, _, rfl, ?_, rfl⟩
    simp only [Supply.bitsAhead, hd]
    omega

/-! ## The header reader -/

theorem reading_bit_quiet (r : Reading) (b : Bool) (rest : List Bool) (hq : r.sup.dev.Quiet)
    (ha : r.sup.ahead = b :: rest) :
    ∃ u', r.bit = .ok b { r with sup := u' } ∧ r.sup.Reads [b] u' ∧ u'.ahead = rest := by
  obtain ⟨u', h, hr, hrest⟩ := readBit_quiet .hdr r.sup b rest hq ha
  exact ⟨u', by simp only [Reading.bit, h, Res.lift], hr, hrest⟩

/-- Whatever the devices do, reading a header bit gives a bit or raises; NCOUNT and the sink are untouched. -/
theorem reading_bit_cases (r : Reading) :
    (∃ b u', r.bit = .ok b { r with sup := u' } ∧ u'.bitsAhead + 1 ≤ r.sup.bitsAhead ∧
      u'.dev.sink = r.sup.dev.sink) ∨
    (∃ e u', r.bit = .raise e { r with sup := u' } ∧ (e = .ioError ∨ e = .malformedHeader) ∧
      u'.dev.sink = r.sup.dev.sink) := by
  rcases readBit_cases .hdr r.sup with ⟨b, u', h, hb, hs⟩ | ⟨e, u', h, he, hs⟩
  · exact .inl ⟨b, u', by simp only [Reading.bit, h, Res.lift], hb, hs⟩
  · exact .inr ⟨e, u', by simp only [Reading.bit, h, Res.lift], he, hs⟩

/-- The byte whose bits, most significant first, follow the bits of `v`. -/
def shiftIn (v : Byte) (bs : List Bool) : Byte := bs.foldl (fun v b => v + v + (BitVec.ofBool b).setWidth 8) v

theorem shiftIn_bits8 (v : Byte) : shiftIn 0#8 (bits8 v) = v := by
  have key : ∀ v : Byte, shiftIn 0#8 (bits8 v) = v := by decide +kernel
  exact key v

theorem readByteBits_quiet (bs : List Bool) (v : Byte) (r : Reading) (rest : List Bool) (hq : r.sup.dev.Quiet)
    (ha : r.sup.ahead = bs ++ rest) :
    ∃ u', readByteBits bs.length v r = .ok (shiftIn v bs) { r with sup := u' } ∧ r.sup.Reads bs u' ∧
      u'.ahead = rest := by
  induction bs generalizing v r with
  | nil => exact ⟨r.sup, rfl, .nil hq, ha⟩
  | cons b bs ih =>
    obtain ⟨u, h, hr, hrest⟩ := reading_bit_quiet r b (bs ++ rest) hq ha
    obtain ⟨u', h', hr', hrest'⟩ :=
      ih (v + v + (BitVec.ofBool b).setWidth 8) { r with sup := u } hr.quiet hrest
    refine ⟨u', ?_, hr.trans hr', hrest'⟩
    simp only [List.length_cons, readByteBits, h, Res.andThen, h']
    rfl

theorem alloc_ok {cap : Nat} (r : Reading) (h : r.nodeCount < cap) :
    r.alloc cap = .ok () { r with nodeCount := r.nodeCount + 1 } := by
  have : r.nodeCount ≠ cap := by omega
  simp [Reading.alloc, allocNode, this]

theorem Node.size_pos (n : Node) : 0 < n.size := by cases n <;> simp [Node.size]

/-- Reading a header the writer wrote: exactly its bits are read, and the tree comes back without its weights
(42_header.md R123, R126). -/
theorem readNode_header {cap : Nat} (n : Node) (fuel : Nat) (r : Reading) (rest : List Bool) (hq : r.sup.dev.Quiet)
    (ha : r.sup.ahead = n.header ++ rest) (hf : n.size ≤ fuel) (hc : r.nodeCount + n.size ≤ cap) :
    ∃ u', readNode cap fuel r = .ok n.bare { sup := u', nodeCount := r.nodeCount + n.size } ∧
      r.sup.Reads n.header u' ∧ u'.ahead = rest := by
  induction n generalizing fuel r rest with
  | leaf sym w =>
    obtain ⟨fuel, rfl⟩ : ∃ k, fuel = k + 1 := ⟨fuel - 1, by simp [Node.size] at hf; omega⟩
    simp only [Node.size] at hc
    cases sym with
    | eos =>
      obtain ⟨u, h, hr, hrest⟩ := reading_bit_quiet r true (true :: rest) hq ha
      have hall := alloc_ok (cap := cap) { sup := u, nodeCount := r.nodeCount } (by simp only; omega)
      obtain ⟨u', h', hr', hrest'⟩ :=
        reading_bit_quiet { sup := u, nodeCount := r.nodeCount + 1 } true rest hr.quiet hrest
      refine ⟨u', ?_, hr.trans hr', hrest'⟩
      simp only [readNode, h, Res.andThen, hall, h']
      rfl
    | byte v =>
      obtain ⟨u, h, hr, hrest⟩ := reading_bit_quiet r true (false :: (bits8 v ++ rest)) hq ha
      have hall := alloc_ok (cap := cap) { sup := u, nodeCount := r.nodeCount } (by simp only; omega)
      obtain ⟨u', h', hr', hrest'⟩ :=
        reading_bit_quiet { sup := u, nodeCount := r.nodeCount + 1 } false (bits8 v ++ rest) hr.quiet hrest
      obtain ⟨u'', h'', hr'', hrest''⟩ :=
        readByteBits_quiet (bits8 v) 0#8 { sup := u', nodeCount := r.nodeCount + 1 } rest hr'.quiet hrest'
      refine ⟨u'', ?_, (hr.trans hr').trans hr'', hrest''⟩
      rw [bits8_length, shiftIn_bits8] at h''
      simp only [readNode, h, Res.andThen, hall, h']
      rw [if_neg (by decide), if_neg (by decide), h'']
      rfl
  | internal w l rt ihl ihr =>
    obtain ⟨fuel, rfl⟩ : ∃ k, fuel = k + 1 := ⟨fuel - 1, by simp [Node.size] at hf; omega⟩
    simp only [Node.size] at hc hf
    have hhead : (Node.internal w l rt).header = [false] ++ (l.header ++ rt.header) := rfl
    rw [hhead, List.append_assoc, List.append_assoc] at ha
    obtain ⟨u, h, hr, hrest⟩ := reading_bit_quiet r false _ hq ha
    have hall := alloc_ok (cap := cap) { sup := u, nodeCount := r.nodeCount } (by simp only; omega)
    obtain ⟨u', h', hr', hrest'⟩ :=
      ihl fuel { sup := u, nodeCount := r.nodeCount + 1 } (rt.header ++ rest) hr.quiet hrest (by omega)
        (by simp only; omega)
    obtain ⟨u'', h'', hr'', hrest''⟩ :=
      ihr fuel { sup := u', nodeCount := r.nodeCount + 1 + l.size } rest hr'.quiet hrest' (by omega)
        (by simp only; omega)
    refine ⟨u'', ?_, ?_, hrest''⟩
    · simp only [readNode, h, Res.andThen, hall, if_true, h', h'']
      simp only [Node.bare, Node.size]
      congr 2
      omega
    · rw [hhead]
      exact hr.trans (hr'.trans hr'')

theorem readByteBits_cases (n : Nat) (v : Byte) (r : Reading) :
    (∃ x u', readByteBits n v r = .ok x { r with sup := u' } ∧ u'.bitsAhead ≤ r.sup.bitsAhead ∧
      u'.dev.sink = r.sup.dev.sink) ∨
    (∃ e u', readByteBits n v r = .raise e { r with sup := u' } ∧ (e = .ioError ∨ e = .malformedHeader) ∧
      u'.dev.sink = r.sup.dev.sink) := by
  induction n generalizing v r with
  | zero => exact .inl ⟨v, r.sup, rfl, le_refl _, rfl⟩
  | succ n ih =>
    rcases reading_bit_cases r with ⟨b, u, h, hb, hs⟩ | ⟨e, u, h, he, hs⟩
    · simp only [readByteBits, h, Res.andThen]
      rcases ih (v + v + (BitVec.ofBool b).setWidth 8) { r with sup := u } with
        ⟨x, u', h', hb', hs'⟩ | ⟨e, u', h', he', hs'⟩
      · exact .inl ⟨x, u', h', by simp only at hb'; omega, hs'.trans hs⟩
      · exact .inr ⟨e, u', h', he', hs'.trans hs⟩
    · exact .inr ⟨e, u, by simp only [readByteBits, h, Res.andThen], he, hs⟩

/-- Whatever the devices do and the header says: within a bound above the bits ahead the reader ends; a tree it builds has
as many nodes as it allocated; it raises only the errors of 42_header.md R124; the sink is untouched, and the node store
is not overfilled. -/
theorem readNode_cases {cap : Nat} (fuel : Nat) (r : Reading) (hf : r.sup.bitsAhead < fuel) (hc : r.nodeCount ≤ cap) :
    (∃ n r', readNode cap fuel r = .ok n r' ∧ r'.sup.bitsAhead + 1 ≤ r.sup.bitsAhead ∧
      r'.sup.dev.sink = r.sup.dev.sink ∧ r'.nodeCount = r.nodeCount + n.size ∧ r'.nodeCount ≤ cap) ∨
    (∃ e r', readNode cap fuel r = .raise e r' ∧ (e = .ioError ∨ e = .malformedHeader ∨ e = .allocationError) ∧
      r'.sup.dev.sink = r.sup.dev.sink ∧ r'.nodeCount ≤ cap) := by
  induction fuel generalizing r with
  | zero => exact absurd hf (Nat.not_lt_zero _)
  | succ fuel ih =>
    rcases reading_bit_cases r with ⟨t, u, h, hb, hs⟩ | ⟨e, u, h, he, hs⟩
    · by_cases hcap : r.nodeCount = cap
      · refine .inr ⟨.allocationError, { r with sup := u }, ?_, by simp, hs, hc⟩
        simp only [readNode, h, Res.andThen, Reading.alloc, allocNode, hcap, if_true]
      · have ha := alloc_ok { r with sup := u } (show r.nodeCount < cap by omega)
        cases t with
        | false =>
          simp only [readNode, h, Res.andThen, ha, if_true]
          rcases ih { sup := u, nodeCount := r.nodeCount + 1 } (by simp only; omega) (by simp only; omega) with
            ⟨l, r1, h1, hb1, hs1, hn1, hc1⟩ | ⟨e, r1, h1, he1, hs1, hc1⟩
          · simp only at hb1 hs1 hn1
            rcases ih r1 (by omega) hc1 with ⟨rt, r2, h2, hb2, hs2, hn2, hc2⟩ | ⟨e, r2, h2, he2, hs2, hc2⟩
            · refine .inl ⟨.internal none l rt, r2, by simp only [h1, h2], by omega, hs2.trans (hs1.trans hs), ?_, hc2⟩
              simp only [Node.size]
              omega
            · exact .inr ⟨e, r2, by simp only [h1, h2], he2, hs2.trans (hs1.trans hs), hc2⟩
          · exact .inr ⟨e, r1, by simp only [h1], he1, hs1.trans hs, hc1⟩
        | true =>
          simp only [readNode, h, Res.andThen, ha]
          rw [if_neg (by decide)]
          rcases reading_bit_cases { sup := u, nodeCount := r.nodeCount + 1 } with
            ⟨e, u', h', hb', hs'⟩ | ⟨e, u', h', he', hs'⟩
          · simp only at hb' hs'
            simp only [h']
            cases e with
            | true =>
              refine .inl ⟨.leaf .eos none, _, if_pos rfl, ?_, hs'.trans hs, rfl, ?_⟩ <;> simp only <;> omega
            | false =>
              rw [if_neg (by decide)]
              rcases readByteBits_cases 8 0#8 { sup := u', nodeCount := r.nodeCount + 1 } with
                ⟨x, u'', h'', hb'', hs''⟩ | ⟨e, u'', h'', he'', hs''⟩
              · simp only at hb'' hs''
                refine .inl ⟨.leaf (.byte x) none, _, by rw [h''], ?_, hs''.trans (hs'.trans hs), rfl, ?_⟩ <;>
                  simp only <;> omega
              · refine .inr ⟨e, _, by rw [h''], ?_, hs''.trans (hs'.trans hs), ?_⟩
                · rcases he'' with rfl | rfl <;> simp
                · simp only; omega
          · refine .inr ⟨e, { sup := u', nodeCount := r.nodeCount + 1 }, by simp only [h'], ?_, hs'.trans hs, ?_⟩
            · rcases he' with rfl | rfl <;> simp
            · simp only; omega
    · refine .inr ⟨e, { r with sup := u }, by simp only [readNode, h, Res.andThen], ?_, hs, hc⟩
      rcases he with rfl | rfl <;> simp

/-! ## The payload walk -/

theorem walk_bit_quiet (w : Walk) (b : Bool) (rest : List Bool) (hq : w.sup.dev.Quiet)
    (ha : w.sup.ahead = b :: rest) :
    ∃ u', w.bit = .ok b { w with sup := u' } ∧ w.sup.Reads [b] u' ∧ u'.ahead = rest := by
  obtain ⟨u', h, hr, hrest⟩ := readBit_quiet .pay w.sup b rest hq ha
  exact ⟨u', by simp only [Walk.bit, h, Res.lift], hr, hrest⟩

theorem walk_bit_cases (w : Walk) :
    (∃ b u', w.bit = .ok b { w with sup := u' } ∧ u'.bitsAhead + 1 ≤ w.sup.bitsAhead ∧
      u'.dev.sink = w.sup.dev.sink) ∨
    (∃ e u', w.bit = .raise e { w with sup := u' } ∧ (e = .ioError ∨ e = .truncatedPayload) ∧
      u'.dev.sink = w.sup.dev.sink) := by
  rcases readBit_cases .pay w.sup with ⟨b, u', h, hb, hs⟩ | ⟨e, u', h, he, hs⟩
  · exact .inl ⟨b, u', by simp only [Walk.bit, h, Res.lift], hb, hs⟩
  · exact .inr ⟨e, u', by simp only [Walk.bit, h, Res.lift], he, hs⟩

/-- Whatever the devices do, within a bound above the bits ahead the walk ends; it raises only IO_ERROR and
TRUNCATED_PAYLOAD; what it wrote is appended to the sink, which it does not flush. -/
theorem walkLoop_cases (root : Node) (fuel : Nat) (w : Walk) (hf : w.sup.bitsAhead < fuel) :
    (∃ w', walkLoop root fuel w = .ok () w' ∧ w.sup.dev.sink.bytes <+: w'.sup.dev.sink.bytes ∧
      w'.sup.dev.sink.flushes = w.sup.dev.sink.flushes) ∨
    (∃ e w', walkLoop root fuel w = .raise e w' ∧ (e = .ioError ∨ e = .truncatedPayload) ∧
      w.sup.dev.sink.bytes <+: w'.sup.dev.sink.bytes ∧ w'.sup.dev.sink.flushes = w.sup.dev.sink.flushes) := by
  induction fuel generalizing w with
  | zero => exact absurd hf (Nat.not_lt_zero _)
  | succ fuel ih =>
    rcases walk_bit_cases w with ⟨b, u, h, hb, hs⟩ | ⟨e, u, h, he, hs⟩
    · simp only [walkLoop, h, Res.andThen]
      cases w.dnode.child b with
      | internal x l r =>
        have := ih { sup := u, dnode := .internal x l r, dout := w.dout } (by simp only; omega)
        simpa only [hs] using this
      | leaf sym x =>
        cases sym with
        | eos => exact .inl ⟨_, rfl, by simp only [hs]; exact List.prefix_refl _, by simp only [hs]⟩
        | byte v =>
          simp only
          rcases sinkWrite_cases v u.dev with ⟨e, he, _, hse⟩ | ⟨e, he, hbe, hse⟩ <;> simp only [he]
          · exact .inr ⟨_, _, rfl, .inl rfl, by simp only [hse, hs]; exact List.prefix_refl _, by simp only [hse, hs]⟩
          · have hpre : w.sup.dev.sink.bytes <+: e.sink.bytes := by
              rw [hse, ← hs]; exact List.prefix_append _ _
            have hfl : e.sink.flushes = w.sup.dev.sink.flushes := by rw [hse, ← hs]
            rcases ih { sup := { u with dev := e }, dnode := root, dout := w.dout + 1#32 }
                (by simp only [Supply.bitsAhead] at hb hf ⊢; omega) with
              ⟨w', h', hp', hf'⟩ | ⟨e', w', h', he', hp', hf'⟩
            · exact .inl ⟨w', h', hpre.trans hp', hf'.trans hfl⟩
            · exact .inr ⟨e', w', h', he', hpre.trans hp', hf'.trans hfl⟩
    · exact .inr ⟨e, { w with sup := u }, by simp only [walkLoop, h, Res.andThen], he,
        by simp only [hs]; exact List.prefix_refl _, by simp only [hs]⟩

/-- Walking down from an internal node along a codeword, with its bits ahead: the walk reads exactly them and stands on the
leaf; here the last bit is taken and what the walk does next is `walkLoop`'s own match. -/
theorem walkLoop_down (root : Node) (p : List Bool) (fuel : Nat) (w : Walk) (rest : List Bool) (n : Node) (x : Sym)
    (hq : w.sup.dev.Quiet) (hn : w.dnode = n) (hcw : n.codeword x = some p) (hp : p ≠ [])
    (ha : w.sup.ahead = p ++ rest) (hf : p.length ≤ fuel) :
    ∃ u' k z, k + p.length = fuel ∧ w.sup.Reads p u' ∧ u'.ahead = rest ∧
      walkLoop root fuel w =
        match x with
        | .eos => .ok () { w with sup := u', dnode := .leaf .eos z }
        | .byte v =>
          match u'.dev.sinkWrite v with
          | .failed d => .raise .ioError { w with sup := { u' with dev := d }, dnode := .leaf (.byte v) z }
          | .answered _ d =>
            walkLoop root k { sup := { u' with dev := d }, dnode := root, dout := w.dout + 1#32 } := by
  induction p generalizing fuel w n with
  | nil => exact absurd rfl hp
  | cons b p ih =>
    obtain ⟨fuel, rfl⟩ : ∃ k, fuel = k + 1 := ⟨fuel - 1, by simp at hf; omega⟩
    simp only [List.length_cons] at hf
    obtain ⟨u, h, hr, hrest⟩ := walk_bit_quiet w b (p ++ rest) hq ha
    have hchild : (n.child b).codeword x = some p := by
      cases n with
      | leaf sym z => by_cases hx : sym = x <;> simp [Node.codeword, hx] at hcw
      | internal z l r =>
        simp only [Node.codeword] at hcw
        cases hrx : r.codeword x with
        | some q =>
          simp only [hrx, Option.some.injEq, List.cons.injEq] at hcw
          obtain ⟨rfl, rfl⟩ := hcw
          exact hrx
        | none =>
          simp only [hrx, Option.map_eq_some_iff, List.cons.injEq] at hcw
          obtain ⟨q, hq', rfl, rfl⟩ := hcw
          exact hq'
    simp only [walkLoop, h, Res.andThen, hn]
    cases hc : n.child b with
    | leaf sym z =>
      rw [hc] at hchild
      by_cases hx : sym = x
      · subst hx
        simp only [Node.codeword, if_true, Option.some.injEq] at hchild
        subst hchild
        refine ⟨u, fuel, z, rfl, hr, hrest, ?_⟩
        cases sym <;> rfl
      · simp [Node.codeword, hx] at hchild
    | internal z l r =>
      rw [hc] at hchild
      have hp' : p ≠ [] := by
        rintro rfl
        simp only [Node.codeword] at hchild
        cases hrx : r.codeword x <;> simp [hrx] at hchild
      obtain ⟨u', k, z', hk, hr', hrest', hw⟩ :=
        ih fuel { sup := u, dnode := .internal z l r, dout := w.dout } (.internal z l r) hr.quiet rfl hchild hp'
          hrest (by omega)
      refine ⟨u', k, z', by simp only [List.length_cons]; omega, hr.trans hr', hrest', ?_⟩
      exact hw

/-- The payload walk over the codewords of `xs` and of EOS writes `xs` to the sink and stops after exactly those bits
(45_decoder.md R143). -/
theorem walkLoop_payload (root : Node) (hroot : root.isLeaf = false) (heos : root.codeword .eos ≠ none)
    (xs : List Byte) (hxs : ∀ v ∈ xs, root.codeword (.byte v) ≠ none) (fuel : Nat) (w : Walk) (rest : List Bool)
    (hq : w.sup.dev.Quiet) (hn : w.dnode = root) (ha : w.sup.ahead = root.payload xs ++ rest)
    (hf : (root.payload xs).length ≤ fuel) :
    ∃ w', walkLoop root fuel w = .ok () w' ∧ w'.sup.ahead = rest ∧ w'.sup.dev.Quiet ∧
      w'.sup.dev.src.bytes = w.sup.dev.src.bytes ∧
      w'.sup.dev.sink = { w.sup.dev.sink with bytes := w.sup.dev.sink.bytes ++ xs } ∧
      w'.sup.dbits = w.sup.dbits + BitVec.ofNat 32 (root.payload xs).length ∧
      8 * w'.sup.dev.src.pos + w.sup.dcnt.val =
        8 * w.sup.dev.src.pos + w'.sup.dcnt.val + (root.payload xs).length ∧
      (w.sup.dcnt.val < 8 → w'.sup.dcnt.val < 8) ∧ w'.dout = w.dout + BitVec.ofNat 32 xs.length ∧ ∃ z, w'.dnode = .leaf .eos z := by
  have hne : ∀ x p, root.codeword x = some p → p ≠ [] := by
    rintro x p hp rfl
    obtain ⟨z, hz⟩ := follow_codeword root x [] hp
    have : root = .leaf x z := hz
    subst this
    cases hroot
  induction xs generalizing fuel w with
  | nil =>
    obtain ⟨p, hp⟩ := Option.ne_none_iff_exists'.mp heos
    have hpay : root.payload [] = p := by simp [Node.payload, Node.codeBits, hp]
    rw [hpay] at ha hf
    obtain ⟨u', k, z, hk, hr, hrest, hw⟩ := walkLoop_down root p fuel w rest root .eos hq hn hp (hne _ _ hp) ha hf
    refine ⟨_, hw, hrest, hr.quiet, hr.bytes, ?_, ?_, ?_, hr.cursor, ?_, ⟨z, rfl⟩⟩
    · simp [hr.sink]
    · rw [hpay]; exact hr.dbits
    · rw [hpay]; exact hr.pulled
    · simp
  | cons v xs ih =>
    obtain ⟨p, hp⟩ := Option.ne_none_iff_exists'.mp (hxs v (by simp))
    have hpay : root.payload (v :: xs) = p ++ root.payload xs := by
      simp [Node.payload, Node.codeBits, hp]
    rw [hpay, List.append_assoc] at ha
    rw [hpay, List.length_append] at hf
    obtain ⟨u', k, z, hk, hr, hrest, hw⟩ :=
      walkLoop_down root p fuel w (root.payload xs ++ rest) root (.byte v) hq hn hp (hne _ _ hp) ha (by omega)
    simp only [sinkWrite_quiet v hr.quiet] at hw
    obtain ⟨w', h', hrest', hq', hb', hs', hd', hp', hc', ho', hz'⟩ :=
      ih (fun y hy => hxs y (by simp [hy])) k
        { sup := { u' with dev := { u'.dev with
            sink := { u'.dev.sink with bytes := u'.dev.sink.bytes ++ [v] },
            calls := .sinkWrite v :: u'.dev.calls } }, dnode := root, dout := w.dout + 1#32 }
        hr.quiet rfl hrest (by omega)
    refine ⟨w', hw.trans h', hrest', hq', hb'.trans hr.bytes, ?_, ?_, ?_, fun h => hc' (hr.cursor h), ?_, hz'⟩
    · rw [hs']; simp [hr.sink]
    · rw [hd', hpay, List.length_append, BitVec.ofNat_add, ← BitVec.add_assoc]
      simp only [hr.dbits]
    · have h1 := hr.pulled
      simp only at hp'
      rw [hpay, List.length_append]
      omega
    · rw [ho', List.length_cons, Nat.add_comm xs.length 1, BitVec.ofNat_add, ← BitVec.add_assoc]

end Sys2Proof.Machine
end

