-- ==== Sys2Proof/Laws/Trace.lean ====
section
/-! SUPPORT. What each part of a command does to the devices, whatever they answer: the calls it adds to the list of calls,
that making them again leaves the same devices, and how often the sink is flushed; and which errors the part raises. -/

namespace Sys2Proof.Machine

/-! ## Lists of calls -/

theorem source_after_append (as bs : List DevCall) (ds : List Draw) (c : Source) :
    Source.after (as ++ bs) ds c = Source.after bs (ds.drop as.length) (Source.after as ds c) := by
  induction as generalizing ds c with
  | nil => rfl
  | cons a as ih => cases ds <;> simp [Source.after, ih]

theorem bytesWritten_append (as bs : List DevCall) : bytesWritten (as ++ bs) = bytesWritten as ++ bytesWritten bs :=
  List.filterMap_append

theorem after_append (as bs : List DevCall) (d : Devices) : d.after (as ++ bs) = (d.after as).after bs := by
  simp only [Devices.after, source_after_append, bytesWritten_append, List.append_assoc, List.count_append,
    List.reverse_append, List.length_append, List.drop_drop, Nat.add_assoc]

theorem after_nil (d : Devices) : d.after [] = d := by simp [Devices.after, Source.after, bytesWritten]

/-- `d` answers the calls `cs` as the list records them, so that making them again does what the rules say of them. -/
def Devices.Answers : List DevCall → Devices → Prop
  | [], _ => True
  | c :: cs, d => d.again c = d.after [c] ∧ (d.after [c]).Answers cs

theorem Devices.Answers.append {as bs : List DevCall} {d : Devices} (h : d.Answers as) (k : (d.after as).Answers bs) :
    d.Answers (as ++ bs) := by
  induction as generalizing d with
  | nil => rwa [after_nil] at k
  | cons a as ih => exact ⟨h.1, ih h.2 (by rwa [← after_append])⟩

theorem Devices.Answers.take {cs : List DevCall} {d : Devices} (h : d.Answers cs) (k : Nat) : d.Answers (cs.take k) := by
  induction cs generalizing d k with
  | nil => simpa using h
  | cons c cs ih =>
    cases k with
    | zero => trivial
    | succ k => exact ⟨h.1, ih h.2 k⟩

theorem Devices.Answers.replay {cs : List DevCall} {d : Devices} (h : d.Answers cs) : d.replay cs = d.after cs := by
  induction cs generalizing d with
  | nil => exact (after_nil d).symm
  | cons c cs ih =>
    have h2 := ih h.2
    rw [show d.after (c :: cs) = (d.after [c]).after cs from after_append [c] cs d, ← h2, ← h.1]
    rfl

theorem bytesWritten_prefix (d : Devices) (cs : List DevCall) : d.sink.bytes <+: (d.after cs).sink.bytes :=
  List.prefix_append _ _

/-! ## What a part of a command does to the devices -/

/-- `d'` is what calls leave of `d`: the calls are listed, `d` answers them as listed, and `d'` is what the rules say they
leave; the newest is a failed call exactly if `failed`, and `n` of them flush (20_memory.md R71 to R77). -/
structure Devices.Ran (d d' : Devices) (failed : Bool) (n : Nat) : Prop where
  made : ∃ made, d' = d.after made.reverse ∧ d.Answers made.reverse ∧
    (failed = true ↔ ∃ k cs, made = .failed k :: cs) ∧ made.count .sinkFlush = n

theorem Devices.Ran.calls {d d' : Devices} {failed : Bool} {n : Nat} (h : d.Ran d' failed n) :
    ∃ made, d'.calls = made ++ d.calls ∧ (failed = true ↔ ∃ k cs, made = .failed k :: cs) := by
  obtain ⟨made, rfl, -, hf, -⟩ := h.made
  exact ⟨made, by simp [Devices.after], hf⟩

theorem Devices.Ran.sink {d d' : Devices} {failed : Bool} {n : Nat} (h : d.Ran d' failed n) :
    d.sink.bytes <+: d'.sink.bytes := by
  obtain ⟨made, rfl, -⟩ := h.made
  exact bytesWritten_prefix d _

theorem Devices.Ran.flushes {d d' : Devices} {failed : Bool} {n : Nat} (h : d.Ran d' failed n) :
    d'.sink.flushes = d.sink.flushes + n := by
  obtain ⟨made, rfl, -, -, rfl⟩ := h.made
  simp [Devices.after]

theorem Devices.Ran.refl (d : Devices) : d.Ran d false 0 where
  made := ⟨[], (after_nil d).symm, trivial, by simp, rfl⟩

theorem Devices.Ran.trans {d e f : Devices} {failed : Bool} {m n : Nat} (h : d.Ran e false m) (k : e.Ran f failed n) :
    d.Ran f failed (m + n) where
  made := by
    obtain ⟨as, rfl, ha, hfa, rfl⟩ := h.made
    obtain ⟨bs, rfl, hb, hfb, rfl⟩ := k.made
    refine ⟨bs ++ as, by rw [List.reverse_append, after_append], by rw [List.reverse_append]; exact ha.append hb, ?_,
      by rw [List.count_append, Nat.add_comm]⟩
    rw [hfb]
    cases bs with
    | nil => simpa using hfa
    | cons c cs => simp

theorem Devices.Ran.trans0 {d e f : Devices} {failed : Bool} {n : Nat} (h : d.Ran e false 0) (k : e.Ran f failed n) :
    d.Ran f failed n := by
  have := h.trans k
  rwa [Nat.zero_add] at this

theorem draw_eq (d : Devices) :
    d.draw.2 = { d with src := (d.draws.head?.bind Draw.source).getD d.src, draws := d.draws.drop 1 } := by
  rcases d with ⟨src, sink, _ | ⟨x, xs⟩, calls⟩ <;> rfl

/-- One call that `d` answers as the list records it. -/
theorem one_ran {d e : Devices} (c : DevCall) (he : e = d.after [c]) (ha : d.again c = d.after [c]) :
    d.Ran e (match c with | .failed _ => true | _ => false) (if c = .sinkFlush then 1 else 0) where
  made := ⟨[c], he, ⟨ha, trivial⟩, by cases c <;> simp, by cases c <;> simp⟩

theorem failed_ran (d : Devices) (kind : CallKind) : d.Ran (d.draw.2.log (.failed kind)) true 0 := by
  have h : d.draw.2.log (.failed kind) = d.after [.failed kind] := by
    rw [draw_eq]; simp [Devices.log, Devices.after, Source.after, bytesWritten]
  exact one_ran (.failed kind) h h

theorem srcRewind_ran (d : Devices) :
    match d.srcRewind with
    | .failed e => d.Ran e true 0
    | .answered _ e => d.Ran e false 0 := by
  rcases call_cases d .srcRewind _ with h | h
  · unfold Devices.srcRewind; rw [h]; exact failed_ran d _
  · have he : d.srcRewind = .answered () (d.after [.srcRewind]) := by
      unfold Devices.srcRewind; rw [h, draw_eq]; simp [Devices.log, Devices.after, Source.after, bytesWritten]
    rw [he]; exact one_ran .srcRewind rfl (by simp only [Devices.again, he, Call.devices])

theorem srcNext_ran (d : Devices) :
    match d.srcNext with
    | .failed e => d.Ran e true 0
    | .answered _ e => d.Ran e false 0 := by
  rcases call_cases d .srcNext _ with h | h
  · unfold Devices.srcNext; rw [h]; exact failed_ran d _
  · obtain ⟨r, he⟩ : ∃ r, d.srcNext = .answered r (d.after [.srcNext r]) := by
      unfold Devices.srcNext
      rw [h]
      cases hb : d.draw.2.src.bytes[d.draw.2.src.pos]? with
      | none => exact ⟨.eoi, by rw [draw_eq]; simp [Devices.log, Devices.after, Source.after, bytesWritten]⟩
      | some v => exact ⟨.byte v, by rw [draw_eq]; simp [Devices.log, Devices.after, Source.after, bytesWritten]⟩
    rw [he]; exact one_ran (.srcNext r) rfl (by simp only [Devices.again, he, Call.devices])

theorem sinkWrite_ran (v : Byte) (d : Devices) :
    match d.sinkWrite v with
    | .failed e => d.Ran e true 0
    | .answered _ e => d.Ran e false 0 := by
  rcases call_cases d .sinkWrite _ with h | h
  · unfold Devices.sinkWrite; rw [h]; exact failed_ran d _
  · have he : d.sinkWrite v = .answered () (d.after [.sinkWrite v]) := by
      unfold Devices.sinkWrite; rw [h, draw_eq]; simp [Devices.log, Devices.after, Source.after, bytesWritten]
    rw [he]; exact one_ran (.sinkWrite v) rfl (by simp only [Devices.again, he, Call.devices])

theorem sinkFlush_ran (d : Devices) :
    match d.sinkFlush with
    | .failed e => d.Ran e true 0
    | .answered _ e => d.Ran e false 1 := by
  rcases call_cases d .sinkFlush _ with h | h
  · unfold Devices.sinkFlush; rw [h]; exact failed_ran d _
  · have he : d.sinkFlush = .answered () (d.after [.sinkFlush]) := by
      unfold Devices.sinkFlush; rw [h, draw_eq]; simp [Devices.log, Devices.after, Source.after, bytesWritten]
    rw [he]; exact one_ran .sinkFlush rfl (by simp only [Devices.again, he, Call.devices])

/-- A part of a command that runs the devices `dev` of its component: it ends well, or raises an error of `errs`, which is
IO_ERROR exactly if the newest call failed. -/
def Res.Runs {σ α : Type} (r : Res σ α) (dev : σ → Devices) (d : Devices) (errs : List ErrCode) (n : Nat) : Prop :=
  match r with
  | .ok _ s => d.Ran (dev s) false n
  | .raise e s => d.Ran (dev s) (e == .ioError) 0 ∧ e ∈ errs
  | .stuck => True

theorem Res.Runs.pure {σ α : Type} {dev : σ → Devices} {errs : List ErrCode} (v : α) (s : σ) :
    (Res.ok v s).Runs dev (dev s) errs 0 := Devices.Ran.refl _

theorem Res.Runs.step {σ α : Type} {r : Res σ α} {dev : σ → Devices} {d e : Devices} {errs : List ErrCode} {n : Nat}
    (h : d.Ran e false 0) (k : r.Runs dev e errs n) : r.Runs dev d errs n := by
  cases r with
  | ok v s => exact h.trans0 k
  | raise x s => exact ⟨h.trans0 k.1, k.2⟩
  | stuck => trivial

theorem Res.Runs.bind {σ α β : Type} {r : Res σ α} {f : α → σ → Res σ β} {dev : σ → Devices} {d : Devices}
    {errs : List ErrCode} {n : Nat} (h : r.Runs dev d errs 0)
    (k : ∀ v s, r = .ok v s → (f v s).Runs dev (dev s) errs n) : (r.andThen f).Runs dev d errs n := by
  cases r with
  | ok v s => exact Res.Runs.step h (k v s rfl)
  | raise x s => exact h
  | stuck => trivial

theorem Res.Runs.lifted {σ τ α : Type} {r : Res σ α} {put : σ → τ} {dev : σ → Devices} {dev' : τ → Devices} {d : Devices}
    {errs : List ErrCode} {n : Nat} (h : r.Runs dev d errs n) (hp : ∀ s, dev' (put s) = dev s) :
    (r.lift put).Runs dev' d errs n := by
  cases r with
  | ok v s => simpa only [Res.Runs, Res.lift, hp] using h
  | raise x s => simpa only [Res.Runs, Res.lift, hp] using h
  | stuck => trivial

theorem Res.Runs.mono {σ α : Type} {r : Res σ α} {dev : σ → Devices} {d : Devices} {errs errs' : List ErrCode} {n : Nat}
    (h : r.Runs dev d errs n) (hs : ∀ e ∈ errs, e ∈ errs') : r.Runs dev d errs' n := by
  cases r with
  | ok v s => exact h
  | raise x s => exact ⟨h.1, hs _ h.2⟩
  | stuck => trivial

/-! ## The loops -/

theorem countLoop_runs (m fuel n : Nat) (c : Counting) :
    (countLoop m fuel n c).Runs Counting.dev c.dev [.ioError, .counterOverflow] 0 := by
  induction fuel generalizing n c with
  | zero => trivial
  | succ fuel ih =>
    have hr := srcNext_ran c.dev
    unfold countLoop
    rcases hs : c.dev.srcNext with ⟨v | _, d⟩ | ⟨d⟩ <;> simp only [hs] at hr ⊢
    · split
      · exact ⟨hr, by simp⟩
      · exact Res.Runs.step hr (ih _ _)
    · exact hr
    · exact ⟨hr, by simp⟩

theorem fillLoop_runs (cap n1 : Nat) (cw : Vector (Option (List Bool)) 257) (fuel n : Nat) (c : Filling) :
    (fillLoop cap n1 cw fuel n c).Runs Filling.dev c.dev [.ioError, .allocationError, .sourceMismatch] 0 := by
  induction fuel generalizing n c with
  | zero => trivial
  | succ fuel ih =>
    have hr := srcNext_ran c.dev
    unfold fillLoop
    rcases hs : c.dev.srcNext with ⟨v | _, d⟩ | ⟨d⟩ <;> simp only [hs] at hr ⊢
    · split
      · exact ⟨hr, by simp⟩
      · split
        · exact ⟨hr, by simp⟩
        · rename_i bits _
          rcases appendAll_cases cap bits c.bb with ⟨q, hq⟩ | ⟨q, hq⟩ <;> rw [hq]
          · exact Res.Runs.step hr (ih _ _)
          · exact ⟨hr, by simp⟩
    · exact hr
    · exact ⟨hr, by simp⟩

theorem writeAll_runs (vs : List Byte) (d : Devices) : (writeAll vs d).Runs id d [.ioError] 0 := by
  induction vs generalizing d with
  | nil => exact Devices.Ran.refl d
  | cons v vs ih =>
    have hr := sinkWrite_ran v d
    unfold writeAll
    rcases hs : d.sinkWrite v with ⟨u, e⟩ | ⟨e⟩ <;> simp only [hs] at hr ⊢
    · exact Res.Runs.step hr (ih e)
    · exact ⟨hr, by simp⟩

theorem flushSink_runs (d : Devices) : (flushSink d).Runs id d [.ioError] 1 := by
  have hr := sinkFlush_ran d
  unfold flushSink
  rcases hs : d.sinkFlush with ⟨u, e⟩ | ⟨e⟩ <;> simp only [hs] at hr ⊢
  · exact hr
  · exact ⟨hr, by simp⟩

theorem readBit_runs (ctx : BitCtx) (u : Supply) :
    (readBit ctx u).Runs Supply.dev u.dev [.ioError, ctx.endError] 0 := by
  rcases dcnt_cases u with hd | ⟨k, hk, hd⟩
  · rw [readBit_pull ctx u hd]
    have hr := srcNext_ran u.dev
    rcases hs : u.dev.srcNext with ⟨v | _, e⟩ | ⟨e⟩ <;> simp only [hs] at hr ⊢
    · exact hr
    · refine ⟨?_, by simp⟩
      cases ctx <;> exact hr
    · exact ⟨hr, by simp⟩
  · rw [readBit_ready ctx u k hk hd]
    exact Devices.Ran.refl _

/-- The devices of a header reader. -/
abbrev Reading.devices (r : Reading) : Devices := r.sup.dev

/-- The devices of a payload walk. -/
abbrev Walk.devices (w : Walk) : Devices := w.sup.dev

theorem reading_bit_runs (r : Reading) : r.bit.Runs Reading.devices r.devices [.ioError, .malformedHeader] 0 :=
  (readBit_runs .hdr r.sup).lifted fun _ => rfl

theorem alloc_runs (cap : Nat) (r : Reading) : (r.alloc cap).Runs Reading.devices r.devices [.allocationError] 0 := by
  unfold Reading.alloc
  split
  · exact ⟨Devices.Ran.refl _, by simp⟩
  · exact Devices.Ran.refl _

theorem readByteBits_runs (k : Nat) (v : Byte) (r : Reading) :
    (readByteBits k v r).Runs Reading.devices r.devices [.ioError, .malformedHeader] 0 := by
  induction k generalizing v r with
  | zero => exact Devices.Ran.refl _
  | succ k ih => exact (reading_bit_runs r).bind fun b s _ => ih _ s

/-- The errors of D_HEADER (60_exceptions.md R157). -/
abbrev headerErrors : List ErrCode := [.ioError, .malformedHeader, .allocationError]

theorem readNode_runs (cap fuel : Nat) (r : Reading) :
    (readNode cap fuel r).Runs Reading.devices r.devices headerErrors 0 := by
  induction fuel generalizing r with
  | zero => trivial
  | succ fuel ih =>
    refine ((reading_bit_runs r).mono (by simp)).bind fun t r _ => ?_
    refine ((alloc_runs cap r).mono (by simp)).bind fun _ r _ => ?_
    split
    · refine (ih r).bind fun left r _ => (ih r).bind fun right r _ => Devices.Ran.refl _
    · refine ((reading_bit_runs r).mono (by simp)).bind fun e r _ => ?_
      split
      · exact Devices.Ran.refl _
      · exact ((readByteBits_runs 8 0#8 r).mono (by simp)).bind fun v r _ => Devices.Ran.refl _

theorem walk_bit_runs (w : Walk) : w.bit.Runs Walk.devices w.devices [.ioError, .truncatedPayload] 0 :=
  (readBit_runs .pay w.sup).lifted fun _ => rfl

theorem walkLoop_runs (root : Node) (fuel : Nat) (w : Walk) :
    (walkLoop root fuel w).Runs Walk.devices w.devices [.ioError, .truncatedPayload] 0 := by
  induction fuel generalizing w with
  | zero => trivial
  | succ fuel ih =>
    refine (walk_bit_runs w).bind fun b w _ => ?_
    split
    · exact ih _
    · exact Devices.Ran.refl _
    · rename_i v x _
      have hr := sinkWrite_ran v w.sup.dev
      rcases hs : w.sup.dev.sinkWrite v with ⟨u, e⟩ | ⟨e⟩ <;> simp only [hs] at hr ⊢
      · exact Res.Runs.step hr (ih _)
      · exact ⟨hr, by simp⟩

end Sys2Proof.Machine
end

