-- ==== Sys2Proof/Laws/Bodies.lean ====
section
/-! SUPPORT. Each command's body said once, whatever the devices do: which fields it changes when it ends well and when it
raises, and what it does to the devices; and each body with devices that do not interfere. -/

namespace Sys2Proof.Machine

/-! ## Whatever the devices do: the shape of the outcome -/

theorem bodyECount_cases (s : State) :
    (∃ n f dev, bodyECount s = .ok (BitVec.ofNat 32 n) { s with dev := dev, freq := f, n1 := n, opstate := .eFreqCounted } ∧
      freqSum f = n ∧ n ≤ s.cfg.maxW - 1) ∨
    (∃ e f dev, bodyECount s = .raise e { s with dev := dev, freq := f }) := by
  unfold bodyECount
  rcases srcRewind_cases s.dev with ⟨d, h, _⟩ | ⟨d, h, _⟩ <;> simp only [h]
  · exact .inr ⟨_, _, _, rfl⟩
  · have hend := countLoop_ends s.cfg.maxW (d.bytesAhead + 1) 0 { dev := d, freq := Vector.replicate 256 0 }
      (Nat.lt_succ_self _)
    cases hc : countLoop s.cfg.maxW (d.bytesAhead + 1) 0 { dev := d, freq := Vector.replicate 256 0 } with
    | ok k c =>
      obtain ⟨h1, h2⟩ := countLoop_sum _ _ _ _ k c (freqSum_of_zero freqAt_zero) (Nat.zero_le _) hc
      exact .inl ⟨k, c.freq, c.dev, rfl, h1, h2⟩
    | raise e c => exact .inr ⟨e, c.freq, c.dev, rfl⟩
    | stuck => exact absurd hc hend

theorem bodyECount_runs (s : State) : (bodyECount s).Runs State.dev s.dev [.ioError, .counterOverflow] 0 := by
  unfold bodyECount
  have hr := srcRewind_ran s.dev
  rcases hs : s.dev.srcRewind with ⟨u, d⟩ | ⟨d⟩ <;> simp only [hs] at hr ⊢
  · refine Res.Runs.step hr (Res.Runs.bind (Res.Runs.lifted (countLoop_runs _ _ _ _) fun _ => rfl) fun v t _ => ?_)
    exact Devices.Ran.refl _
  · exact ⟨hr, by simp⟩

theorem weights_byteLeaves (f : Vector Nat 256) (vs : List Byte) :
    weights (byteLeaves f vs) = (vs.map (freqAt f)).sum := by
  induction vs with
  | nil => rfl
  | cons v vs ih =>
    simp only [weights, byteLeaves] at ih ⊢
    by_cases h : freqAt f v = 0
    · simp [h] at ih ⊢; exact ih
    · simp [h, Node.weight] at ih ⊢; exact ih

/-- The root's weight is the number of input bytes and one for EOS. -/
theorem treeOf_weight (f : Vector Nat 256) : (treeOf f).weight = freqSum f + 1 := by
  have h := mergeAll_weights (initialLeaves f).length (insertAll (initialLeaves f) [])
  rw [mergeAll_initial, weights_perm (insertAll_perm _ _), List.append_nil, initialLeaves_eq] at h
  have h2 : weights (byteLeaves f allBytes ++ [.leaf .eos (some 1)]) = weights (byteLeaves f allBytes) + 1 := by
    simp [weights, Node.weight]
  rw [h2, weights_byteLeaves] at h
  simpa [weights, freqSum] using h

/-- E_BUILD, with a node store as large as 00_scope.md R6 asks. -/
theorem bodyEBuild_eq (s : State) (hc : 513 ≤ s.cfg.nodeCap) :
    bodyEBuild s = .ok (BitVec.ofNat 32 (freqSum s.freq + 1))
      { s with pl := [], root := treeOf s.freq, nodeCount := (treeOf s.freq).size, opstate := .eTreeBuilt } := by
  simp [bodyEBuild, buildList_eq s.freq hc, Res.lift, Res.andThen, plRemoveLowest, treeOf_weight]

/-- What E_BUILD's list operations leave in the node store, even one smaller than 00_scope.md R6 allows. -/
theorem insertNew_cases (cap : Nat) (n : Node) (b : Builder) :
    insertNew cap n b = .ok () { pl := plInsert n b.pl, nodeCount := b.nodeCount + 1 } ∨
      insertNew cap n b = .raise .allocationError b := by
  unfold insertNew allocNode
  by_cases h : b.nodeCount = cap <;> simp [h]

theorem insertLeaves_cases (cap : Nat) (f : Vector Nat 256) (vs : List Byte) (b : Builder) :
    (∃ b', insertLeaves cap f vs b = .ok () b') ∨ ∃ b', insertLeaves cap f vs b = .raise .allocationError b' := by
  induction vs generalizing b with
  | nil => exact .inl ⟨b, rfl⟩
  | cons v vs ih =>
    unfold insertLeaves
    split
    · rcases insertNew_cases cap (.leaf (.byte v) (some (freqAt f v))) b with h | h <;> rw [h]
      · exact ih _
      · exact .inr ⟨b, rfl⟩
    · exact ih b

theorem mergeLoop_cases (cap : Nat) (fuel : Nat) (b : Builder) (hp : b.pl ≠ []) (hf : b.pl.length ≤ fuel + 1) :
    (∃ n k, mergeLoop cap fuel b = .ok () { pl := [n], nodeCount := k }) ∨
      ∃ b', mergeLoop cap fuel b = .raise .allocationError b' := by
  induction fuel generalizing b with
  | zero =>
    obtain ⟨pl, c⟩ := b
    match pl with
    | [] => exact absurd rfl hp
    | [n] => exact .inl ⟨n, c, rfl⟩
    | _ :: _ :: _ => simp at hf
  | succ fuel ih =>
    obtain ⟨pl, c⟩ := b
    match pl with
    | [] => exact absurd rfl hp
    | [n] => exact .inl ⟨n, c, rfl⟩
    | x :: y :: rest =>
      simp only [mergeLoop]
      rcases insertNew_cases cap (.internal (some (x.weight + y.weight)) x y) { pl := rest, nodeCount := c } with h | h <;>
        rw [h]
      · refine ih _ ?_ ?_
        · intro he
          have := plInsert_length (.internal (some (x.weight + y.weight)) x y) rest
          simp only at he
          rw [he] at this
          simp at this
        · simp only [plInsert_length]
          simp only [List.length_cons] at hf
          omega
      · exact .inr ⟨_, rfl⟩

theorem bodyEBuild_cases (s : State) :
    (∃ v r k, bodyEBuild s = .ok v { s with pl := [], root := r, nodeCount := k, opstate := .eTreeBuilt }) ∨
    (∃ pl k, bodyEBuild s = .raise .allocationError { s with pl := pl, nodeCount := k }) := by
  unfold bodyEBuild buildList
  rcases insertLeaves_cases s.cfg.nodeCap s.freq allBytes { pl := [], nodeCount := 0 } with ⟨b, h⟩ | ⟨b, h⟩ <;> rw [h]
  · simp only [Res.andThen]
    rcases insertNew_cases s.cfg.nodeCap (.leaf .eos (some 1)) b with h' | h' <;> rw [h']
    · have hlen := plInsert_length (.leaf .eos (some 1)) b.pl
      have hne : plInsert (.leaf .eos (some 1)) b.pl ≠ [] := by
        intro he
        rw [he] at hlen
        simp at hlen
      rcases mergeLoop_cases s.cfg.nodeCap (plInsert (.leaf .eos (some 1)) b.pl).length
        { pl := plInsert (.leaf .eos (some 1)) b.pl, nodeCount := b.nodeCount + 1 } hne (Nat.le_succ _) with
        ⟨n, k, h2⟩ | ⟨b', h2⟩ <;> simp only [h2]
      · exact .inl ⟨_, n, k, rfl⟩
      · exact .inr ⟨_, _, rfl⟩
    · exact .inr ⟨_, _, rfl⟩
  · exact .inr ⟨_, _, rfl⟩

theorem bodyETable_eq (s : State) :
    bodyETable s = .ok (BitVec.ofNat 32 s.root.symbols.length)
      { s with cw := tableOf s.root, path := [], opstate := .eTableBuilt } := by
  simp [bodyETable, visit_root]

theorem bodyEHeader_cases (s : State) :
    (∃ v q, bodyEHeader s = .ok v { s with bb := q, opstate := .eHeaderWritten } ∧
      (s.bb.used ≤ s.cfg.bbCap → q.used ≤ s.cfg.bbCap)) ∨
    (∃ q, bodyEHeader s = .raise .allocationError { s with bb := q } ∧
      (s.bb.used ≤ s.cfg.bbCap → q.used ≤ s.cfg.bbCap)) := by
  have hu := fun h => appendAll_used s.root.header s.bb.clear (cap := s.cfg.bbCap) (by rw [clear_used]; exact h)
  unfold bodyEHeader
  rw [writeNode_eq]
  rcases appendAll_cases s.cfg.bbCap s.root.header s.bb.clear with ⟨q, h⟩ | ⟨q, h⟩ <;> simp only [h] at hu ⊢
  · exact .inl ⟨_, q, rfl, hu⟩
  · exact .inr ⟨q, rfl, hu⟩

theorem bodyEHeader_fits (s : State) (h : s.root.header.length ≤ s.cfg.bbCap) :
    bodyEHeader s = .ok (BitVec.ofNat 32 s.root.header.length)
      { s with
        bb := { content := s.root.header, stale := (s.bb.content ++ s.bb.stale).drop s.root.header.length }
        opstate := .eHeaderWritten } := by
  simp only [bodyEHeader, writeNode_eq]
  rw [appendAll_fits _ _ (by simpa [BitBuf.clear] using h)]
  simp [Res.lift, Res.andThen, BitBuf.clear, State.bbLenWord, BitBuf.len]

theorem fillLoop_used (cap n1 : Nat) (cw : Vector (Option (List Bool)) 257) (fuel n : Nat) (c : Filling)
    (h : c.bb.used ≤ cap) :
    match fillLoop cap n1 cw fuel n c with
    | .ok _ c' => c'.bb.used ≤ cap
    | .raise _ c' => c'.bb.used ≤ cap
    | .stuck => True := by
  induction fuel generalizing n c with
  | zero => trivial
  | succ fuel ih =>
    unfold fillLoop
    rcases hs : c.dev.srcNext with ⟨v | _, d⟩ | ⟨d⟩ <;> simp only
    · by_cases hn : n = n1
      · simp only [hn, if_true]
        exact h
      · simp only [hn, if_false]
        cases hcw : cwAt cw (.byte v) with
        | none => exact h
        | some bits =>
          have hu := appendAll_used bits c.bb h
          rcases appendAll_cases cap bits c.bb with ⟨q, hq⟩ | ⟨q, hq⟩ <;> simp only [hq] at hu ⊢
          · exact ih _ _ hu
          · exact hu
    · exact h
    · exact h

theorem bodyEPayload_cases (s : State) :
    (∃ v q dev, bodyEPayload s = .ok v { s with bb := q, dev := dev, opstate := .ePayloadWritten } ∧
      (s.bb.used ≤ s.cfg.bbCap → q.used ≤ s.cfg.bbCap)) ∨
    (∃ e q dev, bodyEPayload s = .raise e { s with bb := q, dev := dev } ∧
      (s.bb.used ≤ s.cfg.bbCap → q.used ≤ s.cfg.bbCap)) := by
  unfold bodyEPayload
  rcases srcRewind_cases s.dev with ⟨d, h, _⟩ | ⟨d, h, _⟩ <;> simp only [h]
  · exact .inr ⟨_, s.bb, d, rfl, id⟩
  · have hend := fillLoop_ends s.cfg.bbCap s.n1 s.cw (d.bytesAhead + 1) 0 { dev := d, bb := s.bb } (Nat.lt_succ_self _)
    have hu := fillLoop_used s.cfg.bbCap s.n1 s.cw (d.bytesAhead + 1) 0 { dev := d, bb := s.bb }
    cases hc : fillLoop s.cfg.bbCap s.n1 s.cw (d.bytesAhead + 1) 0 { dev := d, bb := s.bb } with
    | ok k c =>
      rw [hc] at hu
      simp only [Res.lift, Res.andThen]
      split
      · exact .inr ⟨_, c.bb, c.dev, rfl, hu⟩
      · have hu2 := fun h => appendAll_used (eosBits s.cw) c.bb (hu h)
        rcases appendAll_cases s.cfg.bbCap (eosBits s.cw) c.bb with ⟨q, hq⟩ | ⟨q, hq⟩ <;> simp only [hq] at hu2 ⊢
        · exact .inl ⟨_, q, c.dev, rfl, hu2⟩
        · exact .inr ⟨_, q, c.dev, rfl, hu2⟩
    | raise e c =>
      rw [hc] at hu
      exact .inr ⟨e, c.bb, c.dev, rfl, hu⟩
    | stuck => exact absurd hc hend

theorem bodyEPayload_runs (s : State) :
    (bodyEPayload s).Runs State.dev s.dev [.ioError, .allocationError, .sourceMismatch] 0 := by
  unfold bodyEPayload
  have hr := srcRewind_ran s.dev
  rcases hs : s.dev.srcRewind with ⟨u, d⟩ | ⟨d⟩ <;> simp only [hs] at hr ⊢
  · refine Res.Runs.step hr (Res.Runs.bind (Res.Runs.lifted (fillLoop_runs _ _ _ _ _ _) fun _ => rfl) fun v t _ => ?_)
    split
    · exact ⟨Devices.Ran.refl _, by simp⟩
    · rcases appendAll_cases t.cfg.bbCap (eosBits t.cw) t.bb with ⟨q, hq⟩ | ⟨q, hq⟩ <;> rw [hq]
      · exact Devices.Ran.refl _
      · exact ⟨Devices.Ran.refl _, by simp⟩
  · exact ⟨hr, by simp⟩

theorem bodyEFlush_cases (s : State) :
    (∃ v dev, bodyEFlush s = .ok v { s with dev := dev, opstate := .eDone }) ∨
    (∃ e dev, bodyEFlush s = .raise e { s with dev := dev }) := by
  unfold bodyEFlush
  have h1 := writeAll_ends s.bb.rawBytes s.dev
  cases hw : writeAll s.bb.rawBytes s.dev with
  | ok u d =>
    have h2 := flushSink_ends d
    cases hf : flushSink d with
    | ok u2 d2 => exact .inl ⟨_, d2, by simp only [Res.andThen, hf, Res.lift]; rfl⟩
    | raise e d2 => exact .inr ⟨e, d2, by simp only [Res.andThen, hf, Res.lift]⟩
    | stuck => exact absurd hf h2
  | raise e d => exact .inr ⟨e, d, rfl⟩
  | stuck => exact absurd hw h1

theorem bodyEFlush_runs (s : State) : (bodyEFlush s).Runs State.dev s.dev [.ioError] 1 := by
  unfold bodyEFlush
  have hw := writeAll_runs s.bb.rawBytes s.dev
  cases hwe : writeAll s.bb.rawBytes s.dev with
  | ok u d =>
    rw [hwe] at hw
    have hf := flushSink_runs d
    simp only [Res.andThen]
    cases hfe : flushSink d with
    | ok u2 d2 => rw [hfe] at hf; exact hw.trans0 hf
    | raise e d2 => rw [hfe] at hf; exact ⟨hw.trans0 hf.1, hf.2⟩
    | stuck => trivial
  | raise e d => rw [hwe] at hw; exact hw
  | stuck => trivial

theorem bodyDHeader_cases (s : State) :
    (∃ v u n k, bodyDHeader s = .ok v { s.putSupply u with root := n, nodeCount := k, opstate := .dHeaderParsed } ∧
      n.isByteLeaf = false ∧ k = n.size ∧ k ≤ s.cfg.nodeCap) ∨
    (∃ e u n k, bodyDHeader s = .raise e { s.putSupply u with root := n, nodeCount := k } ∧
      (k ≤ s.cfg.nodeCap ∨ k = s.nodeCount)) := by
  unfold bodyDHeader
  rcases srcRewind_cases s.dev with ⟨d, h, _⟩ | ⟨d, h, _⟩ <;> simp only [h]
  · exact .inr ⟨_, { dev := d, dcur := s.dcur, dcnt := s.dcnt, dbits := s.dbits }, s.root, s.nodeCount, rfl, .inr rfl⟩
  · rcases readNode_cases (cap := s.cfg.nodeCap)
      (Supply.bitsAhead { dev := d, dcur := s.dcur, dcnt := 0, dbits := 0#32 } + 1)
      { sup := { dev := d, dcur := s.dcur, dcnt := 0, dbits := 0#32 }, nodeCount := 0 }
      (Nat.lt_succ_self _) (Nat.zero_le _) with ⟨n, r, hn, _, _, hc, hle⟩ | ⟨e, r, hn, _, _, hle⟩ <;> rw [hn]
    · simp only [Res.lift, Res.andThen]
      split
      · exact .inr ⟨_, r.sup, n, r.nodeCount, rfl, .inl hle⟩
      · rename_i hb
        exact .inl ⟨_, r.sup, n, r.nodeCount, rfl, by simpa using hb, by simpa using hc, hle⟩
    · exact .inr ⟨e, r.sup, s.root, r.nodeCount, rfl, .inl hle⟩

theorem bodyDHeader_runs (s : State) : (bodyDHeader s).Runs State.dev s.dev headerErrors 0 := by
  unfold bodyDHeader
  have hr := srcRewind_ran s.dev
  rcases hs : s.dev.srcRewind with ⟨u, d⟩ | ⟨d⟩ <;> simp only [hs] at hr ⊢
  · refine Res.Runs.step hr (Res.Runs.bind (Res.Runs.lifted (readNode_runs _ _ _) fun _ => rfl) fun n t _ => ?_)
    split
    · exact ⟨Devices.Ran.refl _, by simp⟩
    · exact Devices.Ran.refl _
  · exact ⟨hr, by simp⟩

theorem bodyDPayload_cases (s : State) :
    (∃ v u n o, bodyDPayload s = .ok v { s.putSupply u with dnode := n, dout := o, opstate := .dPayloadDecoded }) ∨
    (∃ e u n o, bodyDPayload s = .raise e { s.putSupply u with dnode := n, dout := o }) := by
  unfold bodyDPayload
  by_cases hl : s.root.isLeaf
  · simp only [hl, if_true]
    exact .inl ⟨_, _, _, _, rfl⟩
  · simp only [hl]
    rcases walkLoop_cases s.root (s.supply.bitsAhead + 1) { sup := s.supply, dnode := s.root, dout := 0#32 }
      (Nat.lt_succ_self _) with ⟨w, h, _⟩ | ⟨e, w, h, _⟩ <;> simp only [Bool.false_eq_true, if_false, h]
    · exact .inl ⟨_, _, _, _, rfl⟩
    · exact .inr ⟨_, _, _, _, rfl⟩

theorem bodyDPayload_runs (s : State) : (bodyDPayload s).Runs State.dev s.dev [.ioError, .truncatedPayload] 0 := by
  unfold bodyDPayload
  have hw : (if s.root.isLeaf then (.ok () { sup := s.supply, dnode := s.root, dout := 0#32 } : Res Walk Unit)
      else walkLoop s.root (s.supply.bitsAhead + 1) { sup := s.supply, dnode := s.root, dout := 0#32 }).Runs
        Walk.devices s.dev [.ioError, .truncatedPayload] 0 := by
    split
    · exact Devices.Ran.refl _
    · exact walkLoop_runs _ _ _
  exact Res.Runs.bind (Res.Runs.lifted hw fun _ => rfl) fun _ t _ => Devices.Ran.refl _

theorem bodyDFinish_cases (s : State) :
    (∃ dev, bodyDFinish s = .ok s.dout { s with dev := dev, opstate := .dDone }) ∨
    (∃ dev, bodyDFinish s = .raise .ioError { s with dev := dev }) := by
  unfold bodyDFinish flushSink
  rcases sinkFlush_cases s.dev with ⟨d, h, _⟩ | ⟨d, h, _⟩ <;> rw [h]
  · exact .inr ⟨d, rfl⟩
  · exact .inl ⟨d, rfl⟩

theorem bodyDFinish_runs (s : State) : (bodyDFinish s).Runs State.dev s.dev [.ioError] 1 := by
  unfold bodyDFinish
  have hf := flushSink_runs s.dev
  cases hfe : flushSink s.dev with
  | ok u2 d2 => rw [hfe] at hf; exact hf
  | raise e d2 => rw [hfe] at hf; exact hf
  | stuck => trivial

/-! ## ENCODE and DECODE -/

/-- What an aborted or finished ENCODE can have changed. -/
theorem bodyEncode_cases (s : State) :
    (∃ v dev f n pl r k cw path q, bodyEncode s = .ok v
      { s with dev := dev, freq := f, n1 := n, pl := pl, root := r, nodeCount := k, cw := cw, path := path, bb := q,
               opstate := .eDone }) ∨
    (∃ e dev f n pl r k cw path q o, bodyEncode s = .raise e
      { s with dev := dev, freq := f, n1 := n, pl := pl, root := r, nodeCount := k, cw := cw, path := path, bb := q,
               opstate := o }) := by
  unfold bodyEncode
  rcases bodyECount_cases s with ⟨n, f, d, h, _⟩ | ⟨e, f, d, h⟩ <;> rw [h]
  · simp only [Res.andThen]
    rcases bodyEBuild_cases { s with dev := d, freq := f, n1 := n, opstate := .eFreqCounted } with
      ⟨v, r, k, h⟩ | ⟨pl, k, h⟩ <;> rw [h]
    · simp only [bodyETable_eq]
      rcases bodyEHeader_cases
        { s with dev := d, freq := f, n1 := n, pl := [], root := r, nodeCount := k, cw := tableOf r, path := [],
                 opstate := .eTableBuilt } with ⟨v, q, h, _⟩ | ⟨q, h, _⟩ <;> rw [h]
      · simp only
        rcases bodyEPayload_cases
          { s with dev := d, freq := f, n1 := n, pl := [], root := r, nodeCount := k, cw := tableOf r, path := [],
                   bb := q, opstate := .eHeaderWritten } with ⟨v, q', d', h, _⟩ | ⟨e, q', d', h, _⟩ <;> rw [h]
        · simp only
          rcases bodyEFlush_cases
            { s with dev := d', freq := f, n1 := n, pl := [], root := r, nodeCount := k, cw := tableOf r, path := [],
                     bb := q', opstate := .ePayloadWritten } with ⟨v, d2, h⟩ | ⟨e, d2, h⟩ <;> rw [h]
          · exact .inl ⟨_, _, _, _, _, _, _, _, _, _, rfl⟩
          · exact .inr ⟨_, _, _, _, _, _, _, _, _, _, _, rfl⟩
        · exact .inr ⟨_, _, _, _, _, _, _, _, _, _, _, rfl⟩
      · exact .inr ⟨_, _, _, _, _, _, _, _, _, _, _, rfl⟩
    · exact .inr ⟨_, _, _, _, _, _, _, _, _, _, _, rfl⟩
  · exact .inr ⟨_, _, _, _, _, _, _, _, _, _, _, rfl⟩

/-- The errors of ENCODE (60_exceptions.md R157). -/
abbrev encodeErrors : List ErrCode := [.ioError, .allocationError, .counterOverflow, .sourceMismatch]

theorem bodyEncode_runs (s : State) : (bodyEncode s).Runs State.dev s.dev encodeErrors 1 := by
  refine ((bodyECount_runs s).mono (by simp)).bind fun _ s _ => ?_
  refine Res.Runs.bind ?_ fun _ s _ => ?_
  · rcases bodyEBuild_cases s with ⟨v, r, k, h⟩ | ⟨pl, k, h⟩ <;> rw [h]
    · exact Devices.Ran.refl _
    · exact ⟨Devices.Ran.refl _, by simp⟩
  refine Res.Runs.bind (by rw [bodyETable_eq]; exact Devices.Ran.refl _) fun _ s _ => ?_
  refine Res.Runs.bind ?_ fun _ s _ => ?_
  · rcases bodyEHeader_cases s with ⟨v, q, h, _⟩ | ⟨q, h, _⟩ <;> rw [h]
    · exact Devices.Ran.refl _
    · exact ⟨Devices.Ran.refl _, by simp⟩
  exact ((bodyEPayload_runs s).mono (by simp)).bind fun _ s _ => (bodyEFlush_runs s).mono (by simp)

/-- What an aborted or finished DECODE can have changed. -/
theorem bodyDecode_cases (s : State) :
    (∃ v u n k m o, bodyDecode s = .ok v
      { s.putSupply u with root := n, nodeCount := k, dnode := m, dout := o, opstate := .dDone } ∧
      n.isByteLeaf = false ∧ k = n.size ∧ k ≤ s.cfg.nodeCap) ∨
    (∃ e u n k m o st, bodyDecode s = .raise e
      { s.putSupply u with root := n, nodeCount := k, dnode := m, dout := o, opstate := st } ∧
      (k ≤ s.cfg.nodeCap ∨ k = s.nodeCount)) := by
  unfold bodyDecode
  rcases bodyDHeader_cases s with ⟨v, u, n, k, h, hn⟩ | ⟨e, u, n, k, h, hk⟩ <;> rw [h]
  · simp only [Res.andThen]
    rcases bodyDPayload_cases { s.putSupply u with root := n, nodeCount := k, opstate := .dHeaderParsed } with
      ⟨v, u', m, o, h⟩ | ⟨e, u', m, o, h⟩ <;> rw [h]
    · simp only
      rcases bodyDFinish_cases
        { s.putSupply u' with root := n, nodeCount := k, dnode := m, dout := o, opstate := .dPayloadDecoded } with
        ⟨d, h⟩ | ⟨d, h⟩
      · exact .inl ⟨_, { u' with dev := d }, n, k, m, o, h, hn⟩
      · exact .inr ⟨_, { u' with dev := d }, n, k, m, o, _, h, .inl hn.2.2⟩
    · exact .inr ⟨e, u', n, k, m, o, _, rfl, .inl hn.2.2⟩
  · exact .inr ⟨e, u, n, k, s.dnode, s.dout, _, rfl, hk⟩

/-- The errors of DECODE (60_exceptions.md R157). -/
abbrev decodeErrors : List ErrCode := [.ioError, .malformedHeader, .truncatedPayload, .allocationError]

theorem bodyDecode_runs (s : State) : (bodyDecode s).Runs State.dev s.dev decodeErrors 1 :=
  ((bodyDHeader_runs s).mono (by simp)).bind fun _ s _ =>
    ((bodyDPayload_runs s).mono (by simp)).bind fun _ s _ => (bodyDFinish_runs s).mono (by simp)

end Sys2Proof.Machine
end

