-- ==== Sys2Proof/Laws/Quiet.lean ====
section
/-! SUPPORT. Each command's body with devices that do not interfere (20_memory.md R73, R74): what it reads, what it writes,
and where it ends with an error. -/

namespace Sys2Proof.Machine

/-! ## The encoder's bodies -/

theorem bytesAhead_quiet (d : Devices) (h : d.Quiet) : d.bytesAhead = d.src.bytes.length - d.src.pos := by
  obtain ⟨src, sink, draws, calls⟩ := d
  obtain rfl : draws = [] := h
  simp [Devices.bytesAhead]

/-- E_COUNT of an input that fits. -/
theorem bodyECount_quiet (s : State) (hq : s.dev.Quiet) (hl : s.dev.src.bytes.length + 1 ≤ s.cfg.maxW) :
   ∃ calls, bodyECount s = .ok (BitVec.ofNat 32 s.dev.src.bytes.length)
      { s with
        freq := countsOf s.dev.src.bytes
        n1 := s.dev.src.bytes.length
        dev := { s.dev with src := { s.dev.src with pos := s.dev.src.bytes.length }, calls := calls }
        opstate := .eFreqCounted } := by
  unfold bodyECount
  rw [srcRewind_quiet hq]
  simp only []
  rw [countLoop_quiet _ s.dev.src.bytes]
  · refine ⟨.srcNext .eoi :: nextCalls s.dev.src.bytes (.srcRewind :: s.dev.calls), ?_⟩
    simp [Res.lift, Res.andThen, Devices.drained, Devices.advance, bumpAll_zero]
  · exact hq
  · simp
  · rw [bytesAhead_quiet]; simp; exact hq
  · omega

theorem codesOf_eq (cw : Vector (Option (List Bool)) 257) (n : Node) (xs : List Byte)
    (h : ∀ x, cwAt cw x = n.codeword x) :
    codesOf cw xs = xs.flatMap fun v => n.codeBits (.byte v) := by
  simp [codesOf, Node.codeBits, h]

/-- E_PAYLOAD of the input that was counted, with room for it. -/
theorem bodyEPayload_quiet (s : State) (hq : s.dev.Quiet) (hn : s.n1 = s.dev.src.bytes.length)
    (hcw : ∀ v ∈ s.dev.src.bytes, s.root.codeword (.byte v) ≠ none) (ht : ∀ x, cwAt s.cw x = s.root.codeword x)
    (hfit : s.bb.content.length + (s.root.payload s.dev.src.bytes).length ≤ s.cfg.bbCap) :
    ∃ calls, bodyEPayload s = .ok (BitVec.ofNat 32 (s.bb.content.length + (s.root.payload s.dev.src.bytes).length))
      { s with
        bb := { content := s.bb.content ++ s.root.payload s.dev.src.bytes,
                stale := s.bb.stale.drop (s.root.payload s.dev.src.bytes).length }
        dev := { s.dev with src := { s.dev.src with pos := s.dev.src.bytes.length }, calls := calls }
        opstate := .ePayloadWritten } := by
  refine ⟨.srcNext .eoi :: nextCalls s.dev.src.bytes (.srcRewind :: s.dev.calls), ?_⟩
  have hc := codesOf_eq s.cw s.root s.dev.src.bytes ht
  have hp : s.root.payload s.dev.src.bytes = codesOf s.cw s.dev.src.bytes ++ eosBits s.cw := by
    simp [Node.payload, hc, eosBits, ht, Node.codeBits]
  rw [hp] at hfit ⊢
  simp only [List.length_append] at hfit
  unfold bodyEPayload
  rw [srcRewind_quiet hq]
  simp only []
  rw [fillLoop_quiet _ _ _ s.dev.src.bytes]
  · simp only [Res.lift, Res.andThen, Devices.drained, Devices.advance, Nat.zero_add, hn, ne_eq, not_true_eq_false,
      if_false]
    rw [appendAll_fits _ _ (by simp; omega)]
    simp [State.bbLenWord, BitBuf.len]
  · exact hq
  · simp
  · rw [bytesAhead_quiet]; simp; exact hq
  · omega
  · intro v hv; rw [ht]; exact hcw v hv
  · simp; omega

/-- The payload loop over a prefix `xs` of what the source still has. -/
theorem fillLoop_skip (cap n1 : Nat) (cw : Vector (Option (List Bool)) 257) (xs : List Byte) (fuel n : Nat)
    (c : Filling) (hq : c.dev.Quiet) (ys) (hx : c.dev.src.bytes.drop c.dev.src.pos = xs ++ ys)
    (hn : n + xs.length ≤ n1) (hcw : ∀ v ∈ xs, cwAt cw (.byte v) ≠ none)
    (hfit : c.bb.content.length + (codesOf cw xs).length ≤ cap) :
    fillLoop cap n1 cw (fuel + xs.length) n c =
      fillLoop cap n1 cw fuel (n + xs.length)
        { dev := c.dev.advance xs
          bb := { content := c.bb.content ++ codesOf cw xs, stale := c.bb.stale.drop (codesOf cw xs).length } } := by
  induction xs generalizing n c with
  | nil => simp [codesOf, Devices.advance, nextCalls]
  | cons v xs ih =>
    obtain ⟨h1, h2⟩ := drop_pos_cons hx
    obtain ⟨bits, hb⟩ := Option.ne_none_iff_exists'.mp (hcw v (by simp))
    have hcc : codesOf cw (v :: xs) = bits ++ codesOf cw xs := by simp [codesOf, hb]
    rw [hcc] at hfit ⊢
    simp only [List.length_append, List.length_cons] at hfit hn ⊢
    rw [show fuel + (xs.length + 1) = (fuel + xs.length) + 1 by omega]
    conv_lhs => unfold fillLoop
    rw [srcNext_quiet_byte hq h1]
    simp only [hb]
    rw [if_neg (by omega), appendAll_fits _ _ (by omega)]
    simp only [Res.lift, Res.andThen]
    rw [ih]
    · simp only [Devices.advance, nextCalls_cons, List.append_assoc, List.drop_drop, List.length_cons]
      rw [show n + 1 + xs.length = n + (xs.length + 1) by omega,
        show c.dev.src.pos + 1 + xs.length = c.dev.src.pos + (xs.length + 1) by omega]
    · exact hq
    · exact h2
    · omega
    · intro v hv; exact hcw v (by simp [hv])
    · simp; omega

/-- The payload loop fills the buffer: the bits that fit stay (44_encoder.md R133, 60_exceptions.md R155). -/
theorem fillLoop_full (cap n1 : Nat) (cw : Vector (Option (List Bool)) 257) (xs : List Byte) (fuel n : Nat)
    (c : Filling) (hq : c.dev.Quiet) (ys) (hx : c.dev.src.bytes.drop c.dev.src.pos = xs ++ ys)
    (hf : xs.length ≤ fuel) (hn : n + xs.length ≤ n1) (hcw : ∀ v ∈ xs, cwAt cw (.byte v) ≠ none)
    (hc : c.bb.content.length ≤ cap) (hfull : cap < c.bb.content.length + (codesOf cw xs).length) :
    ∃ pos calls, fillLoop cap n1 cw fuel n c = .raise .allocationError
      { dev := { c.dev with src := { c.dev.src with pos := pos }, calls := calls }
        bb := { content := (c.bb.content ++ codesOf cw xs).take cap,
                stale := c.bb.stale.drop (cap - c.bb.content.length) } } := by
  induction xs generalizing fuel n c with
  | nil => simp [codesOf] at hfull; omega
  | cons v xs ih =>
    obtain ⟨h1, h2⟩ := drop_pos_cons hx
    obtain ⟨bits, hb⟩ := Option.ne_none_iff_exists'.mp (hcw v (by simp))
    have hcc : codesOf cw (v :: xs) = bits ++ codesOf cw xs := by simp [codesOf, hb]
    obtain ⟨fuel, rfl⟩ : ∃ k, fuel = k + 1 := ⟨fuel - 1, by simp at hf; omega⟩
    rw [hcc] at hfull ⊢
    simp only [List.length_append, List.length_cons] at hfull hn hf
    unfold fillLoop
    rw [srcNext_quiet_byte hq h1]
    simp only [hb]
    rw [if_neg (by omega)]
    by_cases hfit : c.bb.content.length + bits.length ≤ cap
    · rw [appendAll_fits _ _ hfit]
      simp only [Res.lift, Res.andThen]
      obtain ⟨pos, calls, h⟩ := ih fuel (n + 1)
        { dev := { c.dev with src := { c.dev.src with pos := c.dev.src.pos + 1 },
                              calls := .srcNext (.byte v) :: c.dev.calls }
          bb := { content := c.bb.content ++ bits, stale := c.bb.stale.drop bits.length } }
        hq h2 (by omega) (by omega) (fun w hw => hcw w (by simp [hw])) (by simpa using hfit) (by simp; omega)
      refine ⟨pos, calls, h.trans ?_⟩
      simp only [List.append_assoc, List.drop_drop, List.length_append]
      rw [show bits.length + (cap - (c.bb.content.length + bits.length)) = cap - c.bb.content.length by omega]
    · rw [appendAll_full _ _ hc (by omega)]
      refine ⟨c.dev.src.pos + 1, .srcNext (.byte v) :: c.dev.calls, ?_⟩
      simp only [Res.lift, Res.andThen]
      rw [List.take_append, List.take_of_length_le hc, List.take_append_of_le_length (by omega)]

/-- E_PAYLOAD of an input whose codewords do not fit. -/
theorem bodyEPayload_full (s : State) (xs ys : List Byte) (hq : s.dev.Quiet) (hx : s.dev.src.bytes = xs ++ ys)
    (hn : xs.length ≤ s.n1) (hcw : ∀ v ∈ xs, cwAt s.cw (.byte v) ≠ none) (hc : s.bb.content.length ≤ s.cfg.bbCap)
    (hfull : s.cfg.bbCap < s.bb.content.length + (codesOf s.cw xs).length) :
    ∃ pos calls, bodyEPayload s = .raise .allocationError
      { s with
        dev := { s.dev with src := { s.dev.src with pos := pos }, calls := calls }
        bb := { content := (s.bb.content ++ codesOf s.cw xs).take s.cfg.bbCap,
                stale := s.bb.stale.drop (s.cfg.bbCap - s.bb.content.length) } } := by
  unfold bodyEPayload
  rw [srcRewind_quiet hq]
  simp only []
  rw [bytesAhead_quiet _ (by exact hq)]
  obtain ⟨pos, calls, h⟩ := fillLoop_full s.cfg.bbCap s.n1 s.cw xs (s.dev.src.bytes.length - 0 + 1) 0
    { dev := { s.dev with src := { s.dev.src with pos := 0 }, calls := .srcRewind :: s.dev.calls }, bb := s.bb }
    hq ys (by simpa using hx) (by simp [hx]; omega) (by omega) hcw hc hfull
  rw [h]
  exact ⟨pos, calls, rfl⟩

/-- E_PAYLOAD of an input whose codewords fit and leave no room for the EOS codeword. -/
theorem bodyEPayload_eosFull (s : State) (hq : s.dev.Quiet) (hn : s.n1 = s.dev.src.bytes.length)
    (hcw : ∀ v ∈ s.dev.src.bytes, cwAt s.cw (.byte v) ≠ none)
    (hfit : s.bb.content.length + (codesOf s.cw s.dev.src.bytes).length ≤ s.cfg.bbCap)
    (hfull : s.cfg.bbCap < s.bb.content.length + (codesOf s.cw s.dev.src.bytes).length + (eosBits s.cw).length) :
    ∃ calls, bodyEPayload s = .raise .allocationError
      { s with
        dev := { s.dev with src := { s.dev.src with pos := s.dev.src.bytes.length }, calls := calls }
        bb := { content := (s.bb.content ++ codesOf s.cw s.dev.src.bytes ++ eosBits s.cw).take s.cfg.bbCap,
                stale := s.bb.stale.drop (s.cfg.bbCap - s.bb.content.length) } } := by
  refine ⟨.srcNext .eoi :: nextCalls s.dev.src.bytes (.srcRewind :: s.dev.calls), ?_⟩
  unfold bodyEPayload
  rw [srcRewind_quiet hq]
  simp only []
  rw [fillLoop_quiet _ _ _ s.dev.src.bytes _ _ _ hq (by simp) (by rw [bytesAhead_quiet _ (by exact hq)]; simp)
    (by omega) hcw hfit]
  simp only [Res.lift, Res.andThen, Devices.drained, Devices.advance, Nat.zero_add, hn, ne_eq, not_true_eq_false,
    if_false]
  rw [appendAll_full _ _ (by simpa using hfit) (by simpa using hfull)]
  rw [List.take_append (l₁ := s.bb.content ++ codesOf s.cw s.dev.src.bytes),
    List.take_of_length_le (l := s.bb.content ++ codesOf s.cw s.dev.src.bytes) (by simpa using hfit)]
  simp only [List.drop_drop, List.length_append]
  rw [show (codesOf s.cw s.dev.src.bytes).length +
      (s.cfg.bbCap - (s.bb.content.length + (codesOf s.cw s.dev.src.bytes).length)) =
      s.cfg.bbCap - s.bb.content.length by omega]

/-- E_FLUSH. -/
theorem bodyEFlush_quiet (s : State) (hq : s.dev.Quiet) :
   ∃ calls, bodyEFlush s = .ok (BitVec.ofNat 32 ((s.bb.content.length + 7) / 8))
      { s with
        dev := { s.dev with
          sink := { bytes := s.dev.sink.bytes ++ s.bb.rawBytes, flushes := s.dev.sink.flushes + 1 }, calls := calls }
        opstate := .eDone } := by
  have : s.bb.rawBytes.length = (s.bb.content.length + 7) / 8 := packBytes_length _
  refine ⟨.sinkFlush :: ((s.bb.rawBytes.map DevCall.sinkWrite).reverse ++ s.dev.calls), ?_⟩
  unfold bodyEFlush
  rw [writeAll_quiet _ _ hq]
  simp only [Res.andThen]
  rw [flushSink_quiet _ (by exact hq)]
  simp [Res.lift, this]

/-- E_FLUSH where one of its calls fails: the first that does, after as many bytes as calls before it. -/
theorem bodyEFlush_fails (s : State) (oks : List Draw) (x : Draw) (more : List Draw)
    (hd : s.dev.draws = oks ++ x :: more) (hok : ∀ d ∈ oks, d.fails = false) (hx : x.fails = true)
    (hl : oks.length ≤ s.bb.rawBytes.length) :
    ∃ src, bodyEFlush s = .raise .ioError { s with
        dev := {
          src := src
          sink := { s.dev.sink with bytes := s.dev.sink.bytes ++ s.bb.rawBytes.take oks.length }
          draws := more
          calls := .failed (if oks.length < s.bb.rawBytes.length then .sinkWrite else .sinkFlush) ::
            (((s.bb.rawBytes.take oks.length).map DevCall.sinkWrite).reverse ++ s.dev.calls) } } ∧
      ((∀ d ∈ oks ++ [x], d.source = none) → src = s.dev.src) := by
  unfold bodyEFlush
  obtain ⟨src, h, hs⟩ := writeFlush_fails s.bb.rawBytes s.dev oks x more hd hok hx hl
  rw [h]
  exact ⟨src, rfl, hs⟩

/-! ## The tree of a frequency table -/

theorem treeOf_weightsAdd (f : Vector Nat 256) : (treeOf f).WeightsAdd := by
  have h := mergeAll_weightsAdd (initialLeaves f).length (insertAll (initialLeaves f) []) (by
    intro x hx
    have := (insertAll_perm (initialLeaves f) []).mem_iff.mp hx
    simp [initialLeaves] at this
    rcases this with ⟨a, _, rfl⟩ | rfl <;> simp [Node.WeightsAdd])
  rw [mergeAll_initial] at h
  exact h _ (by simp)

/-- A codeword is shorter than the number of leaves. -/
theorem codeword_lt (n : Node) (x : Sym) (p : List Bool) (h : n.codeword x = some p) :
    p.length + 1 ≤ n.symbols.length := by
  induction n generalizing p with
  | leaf sym w =>
    by_cases hx : sym = x <;> simp [Node.codeword, hx] at h
    simp [h, Node.symbols]
  | internal w l r ihl ihr =>
    have hl := l.symbols_pos
    have hr := r.symbols_pos
    simp only [Node.codeword] at h
    simp only [Node.symbols, List.length_append]
    split at h
    · rename_i q hq
      have := ihr q hq
      cases h; simp; omega
    · simp at h; obtain ⟨q, hq, rfl⟩ := h
      have := ihl q hq
      simp; omega

theorem treeOf_size_le (f : Vector Nat 256) : (treeOf f).size ≤ 513 := by
  have h1 := (treeOf f).size_eq
  have h2 := (treeOf_symbols f).length_eq
  have h3 := byteLeaves_length_le f
  simp only [byteLeaves, List.length_map] at h3
  simp only [List.length_map, List.length_append, List.length_singleton] at h2
  omega

/-- A byte has a codeword in the tree of a frequency table exactly if it occurs. -/
theorem treeOf_codeword_byte (f : Vector Nat 256) (v : Byte) :
    (treeOf f).codeword (.byte v) ≠ none ↔ freqAt f v ≠ 0 := by
    rw [Option.ne_none_iff_isSome, codeword_isSome, (treeOf_symbols f).mem_iff]
    simp [mem_allBytes]

/-! ## The decoder's bodies -/

theorem bitsOf_length (bs : List Byte) : (bitsOf bs).length = 8 * bs.length := by
  induction bs with
  | nil => rfl
  | cons v bs ih => rw [bitsOf_cons, List.length_append, ih, bits8_length, List.length_cons]; omega

theorem ahead_length (u : Supply) (hq : u.dev.Quiet) : u.ahead.length = u.bitsAhead := by
  have := u.dcnt.isLt
  simp only [Supply.ahead, List.length_append, List.length_drop, bits8_length, bitsOf_length, Supply.bitsAhead,
    bytesAhead_quiet _ hq]
  omega

theorem size_le_header (n : Node) : n.size ≤ n.header.length := by
  induction n with
  | leaf sym w => cases sym <;> simp [Node.size, Node.header]
  | internal w l r ihl ihr => simp [Node.size, Node.header]; omega

theorem bare_header (n : Node) : n.bare.header = n.header := by
  induction n with
  | leaf sym w => cases sym <;> rfl
  | internal w l r ihl ihr => simp only [Node.bare, Node.header, ihl, ihr]

/-- The reader D_HEADER starts with, after its rewind (45_decoder.md R142). -/
def startReading (s : State) : Reading where
  sup :=
    { dev := { s.dev with src := { s.dev.src with pos := 0 }, calls := .srcRewind :: s.dev.calls }
      dcur := s.dcur
      dcnt := 0
      dbits := 0#32 }
  nodeCount := 0

theorem startReading_ahead (s : State) : (startReading s).sup.ahead = bitsOf s.dev.src.bytes := by
  simp [startReading, Supply.ahead]; rfl

theorem bodyDHeader_quiet (s : State) (hq : s.dev.Quiet) : bodyDHeader s =
    ((readNode s.cfg.nodeCap ((startReading s).sup.bitsAhead + 1) (startReading s)).lift
      fun r => { s.putSupply r.sup with nodeCount := r.nodeCount }).andThen fun n s =>
      if n.isByteLeaf then .raise .malformedHeader { s with root := n }
      else .ok s.dbits { s with root := n, opstate := .dHeaderParsed } := by
  unfold bodyDHeader
  rw [srcRewind_quiet hq]
  rfl

/-- D_HEADER of a source that starts with a header whose root is no byte leaf. -/
theorem bodyDHeader_header (s : State) (n : Node) (rest : List Bool) (hq : s.dev.Quiet)
    (hb : bitsOf s.dev.src.bytes = n.header ++ rest) (hn : n.isByteLeaf = false) (hs : n.size ≤ s.cfg.nodeCap) :
    ∃ u', bodyDHeader s = .ok (BitVec.ofNat 32 n.header.length)
        { s.putSupply u' with nodeCount := n.size, root := n.bare, opstate := .dHeaderParsed } ∧
      (startReading s).sup.Reads n.header u' ∧ u'.ahead = rest := by
  rw [bodyDHeader_quiet s hq]
  have hq' : (startReading s).sup.dev.Quiet := hq
  have ha : (startReading s).sup.ahead = n.header ++ rest := by rw [startReading_ahead, hb]
  obtain ⟨u', h, hr, hrest⟩ :=
    readNode_header (cap := s.cfg.nodeCap) n ((startReading s).sup.bitsAhead + 1) (startReading s) rest hq' ha
    (by rw [← ahead_length _ hq', ha]; simp; have := size_le_header n; omega) (by simp [startReading]; exact hs)
  refine ⟨u', ?_, hr, hrest⟩
  rw [h]
  have hd : u'.dbits = BitVec.ofNat 32 n.header.length := by rw [hr.dbits]; simp [startReading]
  simp only [Res.lift, Res.andThen, bare_isByteLeaf, hn]
  simp [startReading]
  exact hd

/-- Reading from the start pulls as few bytes as hold the bits (45_decoder.md R139). -/
theorem reads_pos {s : State} {u' : Supply} {bs : List Bool} (hr : (startReading s).sup.Reads bs u') :
    u'.dev.src.pos = (bs.length + 7) / 8 := by
  have h1 := hr.pulled
  have h2 := hr.cursor (by simp [startReading])
  simp [startReading] at h1
  omega

/-- The header is as long as the list that marks its type bits. -/
theorem typeBits_length (n : Node) : n.typeBits.length = n.header.length := by
  induction n with
  | leaf sym w => cases sym <;> rfl
  | internal w l r ihl ihr => simp [Node.typeBits, Node.header, ihl, ihr]

/-- A whole header begins every node. -/
theorem begun_all (n : Node) (k : Nat) (h : n.header.length ≤ k) : n.begun k = n.size := by
  rw [Node.begun, List.take_of_length_le (by rw [typeBits_length]; exact h)]
  induction n generalizing k with
  | leaf sym w => cases sym <;> rfl
  | internal w l r ihl ihr =>
    simp only [Node.header, List.length_cons, List.length_append] at h
    simp only [Node.typeBits, List.count_cons_self, List.count_append, ihl k (by omega), ihr k (by omega), Node.size]

theorem begun_zero (n : Node) : n.begun 0 = 0 := by simp [Node.begun]

theorem begun_leaf (sym : Sym) (w : Option Nat) (k : Nat) : (Node.leaf sym w).begun (k + 1) = 1 := by
  cases sym with
  | eos => rcases k with _ | k <;> simp [Node.begun, Node.typeBits]
  | byte v =>
    simp only [Node.begun, Node.typeBits, List.take_succ_cons, List.count_cons_self, List.take_replicate,
      List.count_replicate]
    rfl

theorem begun_internal (w : Option Nat) (l r : Node) (k : Nat) :
    (Node.internal w l r).begun (k + 1) = l.begun k + r.begun (k - l.header.length) + 1 := by
  simp [Node.begun, Node.typeBits, List.take_append, typeBits_length]

theorem begun_le_size (n : Node) (k : Nat) : n.begun k ≤ n.size := by
  rw [← begun_all n _ (Nat.le_refl _), Node.begun, Node.begun, List.take_of_length_le (i := n.header.length) (by
    rw [typeBits_length])]
  exact (List.take_sublist _ _).count_le _

theorem reading_bit_end (r : Reading) (hq : r.sup.dev.Quiet) (ha : r.sup.ahead = []) :
    ∃ u, r.bit = .raise .malformedHeader { r with sup := u } := by
  simp only [Reading.bit, readBit_quiet_end .hdr r.sup hq ha, Res.lift, BitCtx.endError]
  exact ⟨_, rfl⟩

theorem readByteBits_cut (bs : List Bool) (v : Byte) (k : Nat) (r : Reading) (hk : bs.length < k)
    (hq : r.sup.dev.Quiet) (ha : r.sup.ahead = bs) :
    ∃ u, readByteBits k v r = .raise .malformedHeader { r with sup := u } := by
  induction bs generalizing v k r with
  | nil =>
    obtain ⟨k, rfl⟩ : ∃ j, k = j + 1 := ⟨k - 1, by simp at hk; omega⟩
    obtain ⟨u, h⟩ := reading_bit_end r hq ha
    exact ⟨u, by simp [readByteBits, h, Res.andThen]⟩
  | cons b bs ih =>
    obtain ⟨k, rfl⟩ : ∃ j, k = j + 1 := ⟨k - 1, by simp at hk; omega⟩
    obtain ⟨u, h, hr, hrest⟩ := reading_bit_quiet r b bs hq ha
    simp only [readByteBits, h, Res.andThen]
    exact ih _ _ _ (by simpa using hk) hr.quiet hrest

theorem alloc_full {cap : Nat} (r : Reading) (h : r.nodeCount = cap) : r.alloc cap = .raise .allocationError r := by
  simp [Reading.alloc, allocNode, h]

/-- The error of a reader that does not get to the end of a header (42_header.md R124): ALLOCATION_ERROR if a type bit
asked for a node the store has no room for, else the source has ended. -/
def shortError (cap begun : Nat) : ErrCode := if cap < begun then .allocationError else .malformedHeader

/-- Where the source ends inside a header or the node store has no room for its tree, the reader ends with an error, and
NCOUNT counts the nodes whose type bit was read, up to the capacity (42_header.md R123, R124). `ahead` and the header agree
as far as both go. -/
theorem readNode_short {cap : Nat} (n : Node) (fuel : Nat) (r : Reading) (hq : r.sup.dev.Quiet)
    (ha : r.sup.ahead.take n.header.length = n.header.take r.sup.ahead.length) (hf : r.sup.ahead.length < fuel)
    (hc : r.nodeCount ≤ cap) (hbad : r.sup.ahead.length < n.header.length ∨ cap < r.nodeCount + n.size) :
    ∃ u, readNode cap fuel r =
      .raise (shortError cap (r.nodeCount + n.begun r.sup.ahead.length))
        { sup := u, nodeCount := min cap (r.nodeCount + n.begun r.sup.ahead.length) } := by
  induction n generalizing fuel r with
  | leaf sym w =>
    obtain ⟨fuel, rfl⟩ : ∃ k, fuel = k + 1 := ⟨fuel - 1, by omega⟩
    cases hal : r.sup.ahead with
    | nil =>
      obtain ⟨u, h⟩ := reading_bit_end r hq hal
      refine ⟨u, ?_⟩
      simp only [readNode, h, Res.andThen, List.length_nil, begun_zero, Nat.add_zero, shortError,
        if_neg (Nat.not_lt.mpr hc), Nat.min_eq_right hc]
    | cons b bs =>
      obtain ⟨u, h, hr, hrest⟩ := reading_bit_quiet r b bs hq hal
      rw [hal] at ha hbad
      simp only [List.length_cons, begun_leaf] at hbad ⊢
      have hb : b = true := by cases sym <;> simp [Node.header] at ha <;> simp [ha.1]
      subst hb
      simp only [readNode, h, Res.andThen]
      by_cases hfull : r.nodeCount = cap
      · rw [alloc_full { r with sup := u } hfull]
        exact ⟨u, by simp [shortError, hfull]⟩
      · rw [alloc_ok _ (by simp only; omega), shortError, if_neg (by omega), Nat.min_eq_right (by omega)]
        simp only [Bool.true_eq_false, if_false]
        simp only [Node.size] at hbad
        have hcut : bs.length + 1 < (Node.leaf sym w).header.length := by omega
        cases bs with
        | nil =>
          obtain ⟨u2, h2⟩ := reading_bit_end { sup := u, nodeCount := r.nodeCount + 1 } hr.quiet hrest
          exact ⟨u2, by simp only [h2]⟩
        | cons e bs =>
          obtain ⟨u2, h2, hr2, hrest2⟩ :=
            reading_bit_quiet { sup := u, nodeCount := r.nodeCount + 1 } e bs hr.quiet hrest
          simp only [h2]
          cases sym with
          | eos => simp [Node.header] at hcut
          | byte v =>
            simp [Node.header, bits8_length] at ha hcut
            obtain ⟨rfl, -⟩ := ha
            obtain ⟨u3, h3⟩ := readByteBits_cut bs 0#8 8 { sup := u2, nodeCount := r.nodeCount + 1 } (by omega)
              hr2.quiet hrest2
            exact ⟨u3, by simp [h3]⟩
  | internal w l rt ihl ihr =>
    obtain ⟨fuel, rfl⟩ : ∃ k, fuel = k + 1 := ⟨fuel - 1, by omega⟩
    cases hal : r.sup.ahead with
    | nil =>
      obtain ⟨u, h⟩ := reading_bit_end r hq hal
      refine ⟨u, ?_⟩
      simp only [readNode, h, Res.andThen, List.length_nil, begun_zero, Nat.add_zero, shortError,
        if_neg (Nat.not_lt.mpr hc), Nat.min_eq_right hc]
    | cons b bs =>
      obtain ⟨u, h, hr, hrest⟩ := reading_bit_quiet r b bs hq hal
      rw [hal] at ha hf hbad
      simp only [List.length_cons, begun_internal, Node.header, List.take_succ_cons, List.cons.injEq] at ha hf hbad ⊢
      obtain ⟨rfl, ha⟩ := ha
      simp only [List.length_append, Node.size] at ha hbad
      simp only [readNode, h, Res.andThen]
      by_cases hfull : r.nodeCount = cap
      · rw [alloc_full { r with sup := u } hfull]
        exact ⟨u, by simp [shortError, hfull]⟩
      · rw [alloc_ok _ (by simp only; omega)]
        simp only [if_true]
        have hal' : bs.take l.header.length = l.header.take bs.length := by
          have := congrArg (List.take l.header.length) ha
          rwa [List.take_take, Nat.min_eq_left (by omega), List.take_take, Nat.min_comm, ← List.take_take,
            List.take_left'  rfl] at this
        have hr' : (bs.drop l.header.length).take rt.header.length =
            rt.header.take (bs.length - l.header.length) := by
          have := congrArg (List.drop l.header.length) ha
          rwa [List.drop_take, Nat.add_sub_cancel_left, List.drop_take, List.drop_left' rfl] at this
        by_cases hl : bs.length < l.header.length ∨ cap < r.nodeCount + 1 + l.size
        · obtain ⟨u2, h2⟩ := ihl fuel { sup := u, nodeCount := r.nodeCount + 1 } hr.quiet (by simpa only [hrest] using hal')
            (by simp only [hrest]; omega) (by simp only; omega) (by simpa only [hrest] using hl)
          have hb : cap < r.nodeCount + 1 + l.begun bs.length ∨ rt.begun (bs.length - l.header.length) = 0 := by
            by_cases hlt : bs.length < l.header.length
            · right; rw [Nat.sub_eq_zero_of_le (by omega), begun_zero]
            · left; rw [begun_all _ _ (by omega)]; omega
          refine ⟨u2, ?_⟩
          simp only [h2, hrest, shortError]
          rcases hb with hb | hb
          · rw [if_pos hb, if_pos (by omega), Nat.min_eq_left (by omega), Nat.min_eq_left (by omega)]
          · rw [hb, show r.nodeCount + 1 + l.begun bs.length = r.nodeCount + (l.begun bs.length + 0 + 1) by omega]
        · obtain ⟨u2, h2, hr2, hrest2⟩ :=
            readNode_header (cap := cap) l fuel { sup := u, nodeCount := r.nodeCount + 1 } (bs.drop l.header.length)
              hr.quiet (by
                simp only [hrest]
                conv_lhs => rw [← List.take_append_drop l.header.length bs]
                rw [hal', List.take_of_length_le (by omega)])
              (by have := size_le_header l; omega) (by simp only; omega)
          simp only [h2]
          obtain ⟨u3, h3⟩ := ihr fuel { sup := u2, nodeCount := r.nodeCount + 1 + l.size } hr2.quiet
            (by simpa only [hrest2, List.length_drop] using hr')
            (by simp only [hrest2, List.length_drop]; omega) (by simp only; omega)
            (by simp only [hrest2, List.length_drop]; omega)
          refine ⟨u3, ?_⟩
          simp only [h3, hrest2, List.length_drop]
          rw [begun_all l bs.length (by omega), show r.nodeCount + 1 + l.size + rt.begun (bs.length - l.header.length) =
            r.nodeCount + (l.size + rt.begun (bs.length - l.header.length) + 1) by omega]

/-- D_HEADER of a source that ends inside a header, or whose header has more nodes than the node store. -/
theorem bodyDHeader_short (s : State) (n : Node) (hq : s.dev.Quiet)
    (ha : (bitsOf s.dev.src.bytes).take n.header.length = n.header.take (bitsOf s.dev.src.bytes).length)
    (hbad : (bitsOf s.dev.src.bytes).length < n.header.length ∨ s.cfg.nodeCap < n.size) :
    ∃ u, bodyDHeader s = .raise (shortError s.cfg.nodeCap (n.begun (bitsOf s.dev.src.bytes).length))
      { s.putSupply u with nodeCount := min s.cfg.nodeCap (n.begun (bitsOf s.dev.src.bytes).length) } := by
  rw [bodyDHeader_quiet s hq]
  have hq' : (startReading s).sup.dev.Quiet := hq
  obtain ⟨u, h⟩ := readNode_short (cap := s.cfg.nodeCap) n ((startReading s).sup.bitsAhead + 1) (startReading s) hq'
    (by rw [startReading_ahead]; exact ha) (by rw [ahead_length _ hq']; omega) (Nat.zero_le _)
    (by rw [startReading_ahead]; simpa [startReading] using hbad)
  rw [h, startReading_ahead]
  exact ⟨u, by simp [startReading, Res.lift, Res.andThen]⟩

/-- D_PAYLOAD with the codewords of `xs` and of EOS ahead. -/
theorem bodyDPayload_walks (s : State) (xs : List Byte) (rest : List Bool) (hq : s.dev.Quiet)
    (hl : s.root.isLeaf = false) (he : s.root.codeword .eos ≠ none) (hx : ∀ v ∈ xs, s.root.codeword (.byte v) ≠ none)
    (ha : s.supply.ahead = s.root.payload xs ++ rest) :
    ∃ (w' : Walk) (z : Option Nat), bodyDPayload s = .ok (BitVec.ofNat 32 xs.length)
        { s with
          dev := { s.dev with
            src := { s.dev.src with pos := w'.sup.dev.src.pos }
            sink := { s.dev.sink with bytes := s.dev.sink.bytes ++ xs }
            calls := w'.sup.dev.calls }
          dcur := w'.sup.dcur
          dcnt := w'.sup.dcnt
          dbits := s.dbits + BitVec.ofNat 32 (s.root.payload xs).length
          dnode := .leaf .eos z
          dout := BitVec.ofNat 32 xs.length
          opstate := .dPayloadDecoded } ∧ w'.sup.ahead = rest ∧
     8 * w'.sup.dev.src.pos + s.dcnt.val =
        8 * s.dev.src.pos + w'.sup.dcnt.val + (s.root.payload xs).length ∧
      (s.dcnt.val < 8 → w'.sup.dcnt.val < 8) ∧ w'.sup.dev.src.bytes = s.dev.src.bytes ∧ w'.sup.dev.Quiet := by
  obtain ⟨w', h, h1, h2, h3, h4, h5, h6, h7, h8, z, h9⟩ :=
    walkLoop_payload s.root hl he xs hx (s.supply.bitsAhead + 1) { sup := s.supply, dnode := s.root, dout := 0#32 } rest
      hq rfl ha (by rw [← ahead_length _ hq, ha]; simp; omega)
  refine ⟨w', z, ?_, h1, h6, h7, h3, h2⟩
  unfold bodyDPayload
  simp only [hl]
  simp only [Bool.false_eq_true, if_false, h, Res.lift, Res.andThen]
  simp only [BitVec.zero_add] at h8
  simp only [State.putSupply, h8, h9]
  have hd : w'.sup.dev = { s.dev with
            src := { s.dev.src with pos := w'.sup.dev.src.pos }
            sink := { s.dev.sink with bytes := s.dev.sink.bytes ++ xs }
            calls := w'.sup.dev.calls } := by
    obtain ⟨⟨⟨⟨b, p⟩, k, d, c⟩, x, y, z⟩, _, _⟩ := w'
    have hq' : s.dev.draws = [] := hq
    simp [State.supply] at h3 h4 ⊢
    exact ⟨h3, h4, by rw [hq']; exact h2⟩
  rw [← hd]
  simp only [State.supply] at h5
  rw [← h5]

theorem walk_bit_end (w : Walk) (hq : w.sup.dev.Quiet) (ha : w.sup.ahead = []) :
    ∃ w', w.bit = .raise .truncatedPayload w' ∧ w'.sup.dev.sink = w.sup.dev.sink := by
  simp only [Walk.bit, readBit_quiet_end .pay w.sup hq ha, Res.lift, BitCtx.endError]
  exact ⟨_, rfl, rfl⟩

theorem walkLoop_cut (root : Node) (p : List Bool) (fuel : Nat) (w : Walk) (n : Node) (x : Sym) (more : List Bool)
    (hm : more ≠ [])
    (hq : w.sup.dev.Quiet) (hn : w.dnode = n) (hcw : n.codeword x = some (p ++ more))
    (ha : w.sup.ahead = p) (hf : p.length < fuel) :
    ∃ w', walkLoop root fuel w = .raise .truncatedPayload w' ∧ w'.sup.dev.sink = w.sup.dev.sink := by
  induction p generalizing fuel w n with
  | nil =>
    obtain ⟨fuel, rfl⟩ : ∃ k, fuel = k + 1 := ⟨fuel - 1, by omega⟩
    obtain ⟨w', h, hs⟩ := walk_bit_end w hq ha
    exact ⟨w', by simp [walkLoop, h, Res.andThen], hs⟩
  | cons b p ih =>
    obtain ⟨fuel, rfl⟩ : ∃ k, fuel = k + 1 := ⟨fuel - 1, by omega⟩
    simp only [List.length_cons] at hf
    obtain ⟨u, h, hr, hrest⟩ := walk_bit_quiet w b p hq ha
    have hchild : (n.child b).codeword x = some (p ++ more) := by
      cases n with
      | leaf sym z => by_cases hx : sym = x <;> simp [Node.codeword, hx] at hcw
      | internal z l r =>
        simp only [Node.codeword] at hcw
        cases hrx : r.codeword x with
        | some q =>
          simp only [hrx, Option.some.injEq, List.cons_append, List.cons.injEq] at hcw
          obtain ⟨rfl, rfl⟩ := hcw
          exact hrx
        | none =>
          simp only [hrx, Option.map_eq_some_iff, List.cons_append, List.cons.injEq] at hcw
          obtain ⟨q, hq', rfl, rfl⟩ := hcw
          exact hq'
    simp only [walkLoop, h, Res.andThen, hn]
    cases hc : n.child b with
    | leaf sym z =>
      rw [hc] at hchild
      by_cases hx : sym = x
      · simp [Node.codeword, hx, hm] at hchild
      · simp [Node.codeword, hx] at hchild
    | internal z l r =>
      rw [hc] at hchild
      obtain ⟨w', h', hs'⟩ :=
        ih fuel { sup := u, dnode := .internal z l r, dout := w.dout } (.internal z l r) hr.quiet rfl hchild hrest
          (by omega)
      exact ⟨w', h', hs'.trans hr.sink⟩

/-- A source that ends inside a codeword, after those of `xs`, is TRUNCATED_PAYLOAD, with `xs` written (45_decoder.md
R143). -/
theorem walkLoop_truncated (root : Node) (hroot : root.isLeaf = false) (xs : List Byte)
    (hxs : ∀ v ∈ xs, root.codeword (.byte v) ≠ none) (x : Sym) (p more : List Bool) (hm : more ≠ [])
    (hpm : root.codeword x = some (p ++ more)) (fuel : Nat) (w : Walk) (hq : w.sup.dev.Quiet) (hn : w.dnode = root)
    (ha : w.sup.ahead = (xs.flatMap fun v => root.codeBits (.byte v)) ++ p) (hf : w.sup.ahead.length < fuel) :
    ∃ w', walkLoop root fuel w = .raise .truncatedPayload w' ∧
      w'.sup.dev.sink = { w.sup.dev.sink with bytes := w.sup.dev.sink.bytes ++ xs } := by
  have hne : ∀ x p, root.codeword x = some p → p ≠ [] := by
    rintro x p hp rfl
    obtain ⟨z, hz⟩ := follow_codeword root x [] hp
    have : root = .leaf x z := hz
    subst this
    cases hroot
  induction xs generalizing fuel w with
  | nil =>
    obtain ⟨w', h, hs⟩ :=
      walkLoop_cut root p fuel w root x more hm hq hn hpm (by simpa using ha) (by rw [ha] at hf; simpa using hf)
    exact ⟨w', h, by simp [hs]⟩
  | cons v xs ih =>
    obtain ⟨q, hqq⟩ := Option.ne_none_iff_exists'.mp (hxs v (by simp))
    have ha2 : w.sup.ahead = q ++ ((xs.flatMap fun v => root.codeBits (.byte v)) ++ p) := by
      rw [ha]
      simp [Node.codeBits, hqq]
    have hq0 := hne _ _ hqq
    rw [ha2] at hf
    simp at hf
    obtain ⟨u', k, z, hk, hr, hrest, hw⟩ :=
      walkLoop_down root q fuel w _ root (.byte v) hq hn hqq hq0 ha2 (by omega)
    simp only [sinkWrite_quiet v hr.quiet] at hw
    obtain ⟨w', h', hs'⟩ :=
      ih (fun y hy => hxs y (by simp [hy])) k
        { sup := { u' with dev := { u'.dev with
            sink := { u'.dev.sink with bytes := u'.dev.sink.bytes ++ [v] },
            calls := .sinkWrite v :: u'.dev.calls } }, dnode := root, dout := w.dout + 1#32 }
        hr.quiet rfl hrest (by change u'.ahead.length < k; rw [hrest]; simp; omega)
    refine ⟨w', hw.trans h', ?_⟩
    rw [hs']; simp [hr.sink]

/-! ## What a part that ends well has pulled from the source -/

/-- `u'` is what quiet devices leave of `u` after `k` bits have been read, whatever was written meanwhile. -/
structure Pulls (u u' : Supply) (k : Nat) : Prop where
  quiet : u'.dev.Quiet
  bytes : u'.dev.src.bytes = u.dev.src.bytes
  dbits : u'.dbits = u.dbits + BitVec.ofNat 32 k
  pulled : 8 * u'.dev.src.pos + u.dcnt.val = 8 * u.dev.src.pos + u'.dcnt.val + k
  cursor : u.dcnt.val < 8 → u'.dcnt.val < 8
  ahead : u'.ahead.length + k = u.ahead.length

theorem Pulls.trans {u v w : Supply} {a b} (h : Pulls u v a) (k : Pulls v w b) : Pulls u w (a + b) where
  quiet := k.quiet
  bytes := k.bytes.trans h.bytes
  dbits := by rw [k.dbits, h.dbits, BitVec.ofNat_add, BitVec.add_assoc]
  pulled := by have := h.pulled; have := k.pulled; omega
  cursor := fun x => k.cursor (h.cursor x)
  ahead := by have := h.ahead; have := k.ahead; omega

theorem Pulls.refl {u : Supply} (h : u.dev.Quiet) : Pulls u u 0 where
  quiet := h
  bytes := rfl
  dbits := by simp
  pulled := by omega
  cursor := id
  ahead := by omega

theorem reads_pulls {u u' bs} (h : Supply.Reads u bs u') : Pulls u u' bs.length where
  quiet := h.quiet
  bytes := h.bytes
  dbits := h.dbits
  pulled := h.pulled
  cursor := h.cursor
  ahead := by rw [h.ahead]; simp; omega

theorem readBit_pulls {ctx u b u'} (hq : u.dev.Quiet) (h : readBit ctx u = .ok b u') : Pulls u u' 1 := by
  cases ha : u.ahead with
  | nil => rw [readBit_quiet_end ctx u hq ha] at h; cases h
  | cons c rest =>
    obtain ⟨u2, h2, hr, _⟩ := readBit_quiet ctx u c rest hq ha
    rw [h2] at h; cases h
    exact reads_pulls hr

theorem reading_bit_pulls {r b r'} (hq : r.sup.dev.Quiet) (h : Reading.bit r = .ok b r') : Pulls r.sup r'.sup 1 := by
  obtain ⟨u, h1, rfl⟩ := lift_ok h
  exact readBit_pulls hq h1

theorem walk_bit_pulls {r b r'} (hq : r.sup.dev.Quiet) (h : Walk.bit r = .ok b r') : Pulls r.sup r'.sup 1 := by
  obtain ⟨u, h1, rfl⟩ := lift_ok h
  exact readBit_pulls hq h1

theorem alloc_pulls {cap r r' x} (hq : r.sup.dev.Quiet) (h : Reading.alloc cap r = .ok x r') :
    Pulls r.sup r'.sup 0 := by
  unfold Reading.alloc at h; split at h <;> cases h; exact .refl hq

theorem readByteBits_pulls {k v r x r'} (hq : r.sup.dev.Quiet) (h : readByteBits k v r = .ok x r') :
    ∃ n, Pulls r.sup r'.sup n := by
  induction k generalizing v r with
  | zero => cases h; exact ⟨0, .refl hq⟩
  | succ k ih =>
    obtain ⟨b, r1, h1, h2⟩ := andThen_ok h
    have p1 := reading_bit_pulls hq h1
    obtain ⟨n, p2⟩ := ih p1.quiet h2
    exact ⟨_, p1.trans p2⟩

theorem readNode_pulls {cap k r x r'} (hq : r.sup.dev.Quiet) (h : readNode cap k r = .ok x r') :
    ∃ n, Pulls r.sup r'.sup n := by
  induction k generalizing r x r' with
  | zero => cases h
  | succ k ih =>
    obtain ⟨b, r1, h1, h2⟩ := andThen_ok h
    have p1 := reading_bit_pulls hq h1
    obtain ⟨_, r2, h3, h4⟩ := andThen_ok h2
    have p2 := p1.trans (alloc_pulls p1.quiet h3)
    split at h4
    · obtain ⟨_, r3, h5, h6⟩ := andThen_ok h4
      obtain ⟨_, p3⟩ := ih p2.quiet h5
      obtain ⟨_, r4, h7, h8⟩ := andThen_ok h6
      obtain ⟨_, p4⟩ := ih p3.quiet h7
      cases h8
      exact ⟨_, p2.trans (p3.trans p4)⟩
    · obtain ⟨_, r3, h5, h6⟩ := andThen_ok h4
      have p3 := p2.trans (reading_bit_pulls p2.quiet h5)
      split at h6
      · cases h6; exact ⟨_, p3⟩
      · obtain ⟨_, r4, h7, h8⟩ := andThen_ok h6
        obtain ⟨_, p4⟩ := readByteBits_pulls p3.quiet h7
        cases h8
        exact ⟨_, p3.trans p4⟩

theorem walkLoop_pulls {root k w w' x} (hq : w.sup.dev.Quiet) (h : walkLoop root k w = .ok x w') :
    ∃ n, Pulls w.sup w'.sup n := by
  induction k generalizing w with
  | zero => cases h
  | succ k ih =>
    obtain ⟨b, r1, h1, h2⟩ := andThen_ok h
    have p1 := walk_bit_pulls hq h1
    split at h2
    · obtain ⟨n, p2⟩ := ih (by exact p1.quiet) h2
      exact ⟨_, p1.trans p2⟩
    · cases h2; exact ⟨_, p1⟩
    · rename_i v _ _
      rw [sinkWrite_quiet v p1.quiet] at h2
      simp only [] at h2
      obtain ⟨n, p2⟩ := ih (by exact p1.quiet) h2
      exact ⟨_, p1.trans ⟨p2.quiet, p2.bytes, p2.dbits, p2.pulled, p2.cursor, p2.ahead⟩⟩

end Sys2Proof.Machine
end

