-- ==== Sys2Proof/Laws/Commands.lean ====
section
/-! SUPPORT. What a command can do, said once for the direct commands and once for the pipeline commands: the ways it ends,
the fields it leaves, what it does to the devices. -/

namespace Sys2Proof.Machine

/-! ## Direct commands (00_scope.md R14) -/

/-- The direct commands. -/
abbrev IsDirect (i : Instr) : Prop :=
  i ∈ [Instr.clear, .bbClear, .bbRemoveLast] ∨ (∃ b, i = .bbAppend b) ∨ (∃ n, i = .bbGet n) ∨
    (∃ n, i = .bbReadByte n) ∨ (∃ v, i = .freqRead v) ∨ (∃ n, i = .cwLen n) ∨ ∃ n k, i = .cwBit n k

/-- A direct command raises and leaves everything else, or ends well having changed at most the bit buffer, or is CLEAR. -/
theorem direct_outcome (i : Instr) (hi : IsDirect i) (s : State) :
    (∃ x, exec i s = .next (raiseDirect x s) ∧ x ≠ .none ∧ x ≠ .ioError ∧ i ≠ .clear) ∨
    (∃ v q, exec i s = .next (finish v { s with bb := q }) ∧
      (i ≠ .bbClear → i ≠ .bbRemoveLast → (∀ b, i ≠ .bbAppend b) → q = s.bb) ∧ i ≠ .clear ∧
      (s.bb.used ≤ s.cfg.bbCap → q.used ≤ s.cfg.bbCap)) ∨
    (i = .clear ∧ exec i s = .next (finish 0#32 (clearOperation s))) := by
  rcases hi with h | ⟨b, rfl⟩ | ⟨n, rfl⟩ | ⟨n, rfl⟩ | ⟨n, rfl⟩ | ⟨n, rfl⟩ | ⟨n, k, rfl⟩
  · simp at h
    rcases h with rfl | rfl | rfl
    · exact .inr (.inr ⟨rfl, rfl⟩)
    · exact .inr (.inl ⟨_, _, rfl, by simp, by simp, by rw [clear_used]; exact id⟩)
    · exact .inr (.inl ⟨_, _, rfl, by simp, by simp, by rw [removeLast_used]; exact id⟩)
  · simp only [exec, execBbAppend, runDirect, mayStart, if_true]
    cases h : s.bb.append s.cfg.bbCap b with
    | none => exact .inl ⟨_, rfl, by simp⟩
    | some q => exact .inr (.inl ⟨_, _, rfl, by simp, by simp, fun hu => append_used hu h⟩)
  · simp only [exec, execBbGet, runDirect, mayStart, if_true]
    cases h : s.bb.get n.toNat with
    | none => exact .inl ⟨_, rfl, by simp⟩
    | some _ => exact .inr (.inl ⟨_, s.bb, rfl, by simp⟩)
  · simp only [exec, execBbReadByte, runDirect, mayStart, if_true]
    split
    · exact .inl ⟨_, rfl, by simp⟩
    · exact .inr (.inl ⟨_, s.bb, rfl, by simp⟩)
  · simp only [exec, execFreqRead, runDirect]
    split
    · exact .inr (.inl ⟨_, s.bb, rfl, by simp⟩)
    · exact .inl ⟨_, rfl, by simp⟩
  · simp only [exec, execCwLen, runDirect]
    split
    · split
      · exact .inl ⟨_, rfl, by simp⟩
      · exact .inr (.inl ⟨_, s.bb, rfl, by simp⟩)
    · exact .inl ⟨_, rfl, by simp⟩
  · simp only [exec, execCwBit, runDirect]
    split
    · split
      · exact .inl ⟨_, rfl, by simp⟩
      · split
        · exact .inl ⟨_, rfl, by simp⟩
        · split
          · exact .inl ⟨_, rfl, by simp⟩
          · exact .inr (.inl ⟨_, s.bb, rfl, by simp⟩)
    · exact .inl ⟨_, rfl, by simp⟩

/-! ## Pipeline commands (00_scope.md R14) -/

/-- A pipeline command: its body, the errors the body can raise with any node store, how often it flushes the sink, and the
operation state it ends in (60_exceptions.md R157, 10_state.md R34). -/
inductive Pipeline : Instr → (State → Res State Word) → List ErrCode → Nat → OpState → Prop
  | eCount : Pipeline .eCount bodyECount [.ioError, .counterOverflow] 0 .eFreqCounted
  | eBuild : Pipeline .eBuild bodyEBuild [.allocationError] 0 .eTreeBuilt
  | eTable : Pipeline .eTable bodyETable [] 0 .eTableBuilt
  | eHeader : Pipeline .eHeader bodyEHeader [.allocationError] 0 .eHeaderWritten
  | ePayload : Pipeline .ePayload bodyEPayload [.ioError, .allocationError, .sourceMismatch] 0 .ePayloadWritten
  | eFlush : Pipeline .eFlush bodyEFlush [.ioError] 1 .eDone
  | encode : Pipeline .encode bodyEncode encodeErrors 1 .eDone
  | dHeader : Pipeline .dHeader bodyDHeader headerErrors 0 .dHeaderParsed
  | dPayload : Pipeline .dPayload bodyDPayload [.ioError, .truncatedPayload] 0 .dPayloadDecoded
  | dFinish : Pipeline .dFinish bodyDFinish [.ioError] 1 .dDone
  | decode : Pipeline .decode bodyDecode decodeErrors 1 .dDone

/-- Every instruction is a direct or a pipeline command. -/
theorem instr_kinds (i : Instr) : IsDirect i ∨ ∃ b e n o, Pipeline i b e n o := by
  cases i
  case eCount => exact .inr ⟨_, _, _, _, .eCount⟩
  case eBuild => exact .inr ⟨_, _, _, _, .eBuild⟩
  case eTable => exact .inr ⟨_, _, _, _, .eTable⟩
  case eHeader => exact .inr ⟨_, _, _, _, .eHeader⟩
  case ePayload => exact .inr ⟨_, _, _, _, .ePayload⟩
  case eFlush => exact .inr ⟨_, _, _, _, .eFlush⟩
  case encode => exact .inr ⟨_, _, _, _, .encode⟩
  case dHeader => exact .inr ⟨_, _, _, _, .dHeader⟩
  case dPayload => exact .inr ⟨_, _, _, _, .dPayload⟩
  case dFinish => exact .inr ⟨_, _, _, _, .dFinish⟩
  case decode => exact .inr ⟨_, _, _, _, .decode⟩
  all_goals left; simp [IsDirect]

variable {i : Instr} {b : State → Res State Word} {e : List ErrCode} {n : Nat} {o : OpState}

theorem Pipeline.exec_eq (h : Pipeline i b e n o) (s : State) : exec i s = runPipeline i b s := by cases h <;> rfl

theorem Pipeline.none_not_mem (h : Pipeline i b e n o) : ErrCode.none ∉ e := by cases h <;> simp

theorem Pipeline.runs (h : Pipeline i b e n o) (s : State) : (b s).Runs State.dev s.dev e n := by
  cases h
  · exact bodyECount_runs s
  · rcases bodyEBuild_cases s with ⟨_, _, _, h⟩ | ⟨_, _, h⟩ <;> rw [h]
    · exact Devices.Ran.refl _
    · exact ⟨Devices.Ran.refl _, by simp⟩
  · rw [bodyETable_eq]
    exact Devices.Ran.refl _
  · rcases bodyEHeader_cases s with ⟨_, _, h, _⟩ | ⟨_, h, _⟩ <;> rw [h]
    · exact Devices.Ran.refl _
    · exact ⟨Devices.Ran.refl _, by simp⟩
  · exact bodyEPayload_runs s
  · exact bodyEFlush_runs s
  · exact bodyEncode_runs s
  · exact bodyDHeader_runs s
  · exact bodyDPayload_runs s
  · exact bodyDFinish_runs s
  · exact bodyDecode_runs s

/-- What no body of a pipeline command writes (10_state.md R47). -/
structure SameHostSide (s t : State) : Prop where
  cfg : t.cfg = s.cfg
  arg : t.arg = s.arg
  latch : t.latch = s.latch
  moves : t.moves = s.moves
  busData : t.busData = s.busData
  busyReads : t.busyReads = s.busyReads
  overrun : t.overrun = s.overrun
  operr : t.operr = s.operr

/-- A body ends well in its command's operation state, or raises; it never outlives its bound. -/
theorem Pipeline.body_ends (h : Pipeline i b e n o) (s : State) :
    (∃ v t, b s = .ok v t ∧ SameHostSide s t ∧ t.opstate = o) ∨ ∃ x t, b s = .raise x t ∧ SameHostSide s t := by
  cases h
  · rcases bodyECount_cases s with ⟨_, _, _, h, _⟩ | ⟨_, _, _, h⟩
    · exact .inl ⟨_, _, h, by constructor <;> rfl, rfl⟩
    · exact .inr ⟨_, _, h, by constructor <;> rfl⟩
  · rcases bodyEBuild_cases s with ⟨_, _, _, h⟩ | ⟨_, _, h⟩
    · exact .inl ⟨_, _, h, by constructor <;> rfl, rfl⟩
    · exact .inr ⟨_, _, h, by constructor <;> rfl⟩
  · exact .inl ⟨_, _, bodyETable_eq s, by constructor <;> rfl, rfl⟩
  · rcases bodyEHeader_cases s with ⟨_, _, h, _⟩ | ⟨_, h, _⟩
    · exact .inl ⟨_, _, h, by constructor <;> rfl, rfl⟩
    · exact .inr ⟨_, _, h, by constructor <;> rfl⟩
  · rcases bodyEPayload_cases s with ⟨_, _, _, h, _⟩ | ⟨_, _, _, h, _⟩
    · exact .inl ⟨_, _, h, by constructor <;> rfl, rfl⟩
    · exact .inr ⟨_, _, h, by constructor <;> rfl⟩
  · rcases bodyEFlush_cases s with ⟨_, _, h⟩ | ⟨_, _, h⟩
    · exact .inl ⟨_, _, h, by constructor <;> rfl, rfl⟩
    · exact .inr ⟨_, _, h, by constructor <;> rfl⟩
  · rcases bodyEncode_cases s with ⟨_, _, _, _, _, _, _, _, _, _, h⟩ | ⟨_, _, _, _, _, _, _, _, _, _, _, h⟩
    · exact .inl ⟨_, _, h, by constructor <;> rfl, rfl⟩
    · exact .inr ⟨_, _, h, by constructor <;> rfl⟩
  · rcases bodyDHeader_cases s with ⟨_, _, _, _, h, _⟩ | ⟨_, _, _, _, h, _⟩
    · exact .inl ⟨_, _, h, by constructor <;> rfl, rfl⟩
    · exact .inr ⟨_, _, h, by constructor <;> rfl⟩
  · rcases bodyDPayload_cases s with ⟨_, _, _, _, h⟩ | ⟨_, _, _, _, h⟩
    · exact .inl ⟨_, _, h, by constructor <;> rfl, rfl⟩
    · exact .inr ⟨_, _, h, by constructor <;> rfl⟩
  · rcases bodyDFinish_cases s with ⟨_, h⟩ | ⟨_, h⟩
    · exact .inl ⟨_, _, h, by constructor <;> rfl, rfl⟩
    · exact .inr ⟨_, _, h, by constructor <;> rfl⟩
  · rcases bodyDecode_cases s with ⟨_, _, _, _, _, _, h, _⟩ | ⟨_, _, _, _, _, _, _, h, _⟩
    · exact .inl ⟨_, _, h, by constructor <;> rfl, rfl⟩
    · exact .inr ⟨_, _, h, by constructor <;> rfl⟩

/-- A pipeline command may not start, or ends well, or aborts the operation. -/
theorem Pipeline.outcome (h : Pipeline i b e n o) (s : State) :
    (mayStart i s.opstate = false ∧ exec i s = .next (raiseDirect .sequenceError s)) ∨
    (∃ v u, mayStart i s.opstate = true ∧ b s = .ok v u ∧ exec i s = .next (finish v u) ∧ SameHostSide s u ∧
      u.opstate = o ∧ s.dev.Ran u.dev false n) ∨
    (∃ x u, mayStart i s.opstate = true ∧ b s = .raise x u ∧ exec i s = .next (raisePipeline x u) ∧ SameHostSide s u ∧
      s.dev.Ran u.dev (x == .ioError) 0 ∧ x ∈ e) := by
  rw [h.exec_eq]
  unfold runPipeline
  cases hm : mayStart i s.opstate
  · exact .inl ⟨rfl, rfl⟩
  · right
    have hr := h.runs s
    rcases h.body_ends s with ⟨v, u, hb, hh, ho⟩ | ⟨x, u, hb, hh⟩ <;> rw [hb] at hr <;> rw [hb]
    · exact .inl ⟨v, u, rfl, rfl, rfl, hh, ho, hr⟩
    · exact .inr ⟨x, u, rfl, rfl, rfl, hh, hr.1, hr.2⟩

/-! ## The engine's turn and the reset input -/

/-- Every command runs the devices. -/
theorem exec_ran {i : Instr} {s t : State} (h : exec i s = .next t) : ∃ failed n, s.dev.Ran t.dev failed n := by
  rcases instr_kinds i with hd | ⟨b, e, n, o, hb⟩
  · rcases direct_outcome i hd s with ⟨x, hx, _⟩ | ⟨v, q, hx, _⟩ | ⟨_, hx⟩ <;> rw [hx] at h <;> cases h <;>
      exact ⟨_, _, Devices.Ran.refl _⟩
  · rcases hb.outcome s with ⟨_, hx⟩ | ⟨v, u, _, _, hx, _, _, hr⟩ | ⟨x, u, _, _, hx, _, hr, _⟩ <;> rw [hx] at h <;> cases h
    · exact ⟨_, _, Devices.Ran.refl _⟩
    · exact ⟨_, _, hr⟩
    · exact ⟨_, _, hr⟩

theorem engineTurn_ran {s t : State} (h : engineTurn s = .next t) : ∃ failed n, s.dev.Ran t.dev failed n := by
  unfold engineTurn at h
  split at h
  · split at h
    · cases h
    · split at h
      · exact exec_ran h
      · cases h; exact ⟨_, _, Devices.Ran.refl _⟩
  · cases h; exact ⟨_, _, Devices.Ran.refl _⟩

/-- A latched command ends, and its turn makes some calls. -/
theorem engineTurn_latched {s : State} {c : Command} (hc : s.latch = some c) :
    ∃ t made, engineTurn s = .next t ∧ t.dev.calls = made ++ s.dev.calls := by
  have hn : ∃ t, engineTurn s = .next t := by
    unfold engineTurn
    rw [hc]
    split
    · simp only
      split
      · rename_i i _
        rcases instr_kinds i with hd | ⟨b, e, n, o, hb⟩
        · rcases direct_outcome i hd s with ⟨x, hx, _⟩ | ⟨v, q, hx, _⟩ | ⟨_, hx⟩ <;> exact ⟨_, hx⟩
        · rcases hb.outcome s with ⟨_, hx⟩ | ⟨v, u, _, _, hx, _⟩ | ⟨x, u, _, _, hx, _⟩ <;> exact ⟨_, hx⟩
      · exact ⟨_, rfl⟩
    · exact ⟨_, rfl⟩
  obtain ⟨t, ht⟩ := hn
  obtain ⟨_, _, hr⟩ := engineTurn_ran ht
  obtain ⟨made, hm, _⟩ := hr.calls
  exact ⟨t, made, ht, hm⟩

/-- The devices of a command stopped after `k` calls are what its first `k` calls leave of them; a command of at most `k`
calls has run to its end (70_reset_and_hazards.md R169). -/
theorem devicesCutAt_eq {s t : State} {made : List DevCall} (k : Nat) (h : engineTurn s = .next t)
    (hm : t.dev.calls = made ++ s.dev.calls) :
    devicesCutAt k s = s.dev.after (made.reverse.take k) ∧ t.dev = s.dev.after made.reverse := by
  obtain ⟨_, _, ⟨cs, hd, ha, -⟩⟩ := engineTurn_ran h
  obtain rfl : cs = made := by
    rw [hd] at hm
    simpa [Devices.after] using hm
  refine ⟨?_, hd⟩
  have : t.dev.calls.take (t.dev.calls.length - s.dev.calls.length) = cs := by rw [hm]; simp
  simp only [devicesCutAt, h, this]
  exact (ha.take k).replay

/-! ## A body does not look at how the command before it ended -/

theorem bodyECount_finish (v : Word) (s : State) : bodyECount (finish v s) = (bodyECount s).lift (finish v) := by
  unfold bodyECount
  rcases hs : s.dev.srcRewind with ⟨_, d⟩ | ⟨d⟩ <;> simp only [finish_dev, finish_cfg, hs]
  · cases countLoop s.cfg.maxW (d.bytesAhead + 1) 0 { dev := d, freq := Vector.replicate 256 0 } <;> rfl
  · rfl

theorem bodyEBuild_finish (v : Word) (s : State) : bodyEBuild (finish v s) = (bodyEBuild s).lift (finish v) := by
  unfold bodyEBuild
  simp only [finish_cfg, finish_freq]
  rcases buildList s.cfg.nodeCap s.freq with ⟨_, ⟨_ | ⟨x, xs⟩, c⟩⟩ | ⟨_, _⟩ | _ <;> rfl

theorem bodyETable_finish (v : Word) (s : State) : bodyETable (finish v s) = (bodyETable s).lift (finish v) := rfl

theorem bodyEHeader_finish (v : Word) (s : State) : bodyEHeader (finish v s) = (bodyEHeader s).lift (finish v) := by
  unfold bodyEHeader
  simp only [finish_cfg, finish_root, finish_bb]
  cases writeNode s.cfg.bbCap s.root s.bb.clear <;> rfl

theorem bodyEPayload_finish (v : Word) (s : State) : bodyEPayload (finish v s) = (bodyEPayload s).lift (finish v) := by
  unfold bodyEPayload
  rcases hs : s.dev.srcRewind with ⟨_, d⟩ | ⟨d⟩ <;> simp only [finish_dev, finish_cfg, finish_n1, finish_cw, finish_bb, hs]
  · rcases fillLoop s.cfg.bbCap s.n1 s.cw (d.bytesAhead + 1) 0 { dev := d, bb := s.bb } with ⟨k, c⟩ | ⟨x, c⟩ | _
    · simp only [Res.lift, Res.andThen]
      by_cases hk : k = s.n1
      · simp only [hk, ne_eq, not_true_eq_false, if_false]
        cases c.bb.appendAll s.cfg.bbCap (eosBits s.cw) <;> rfl
      · simp only [ne_eq, hk, not_false_eq_true, if_true]
        rfl
    · rfl
    · rfl
  · rfl

theorem bodyEFlush_finish (v : Word) (s : State) : bodyEFlush (finish v s) = (bodyEFlush s).lift (finish v) := by
  unfold bodyEFlush
  simp only [finish_dev, finish_bb]
  cases (writeAll s.bb.rawBytes s.dev).andThen fun _ d => flushSink d <;> rfl

theorem bodyDPayload_finish (v : Word) (s : State) : bodyDPayload (finish v s) = (bodyDPayload s).lift (finish v) := by
  unfold bodyDPayload
  have : (finish v s).supply = s.supply := rfl
  simp only [this, finish_root]
  generalize (if s.root.isLeaf then _ else _ : Res Walk Unit) = r
  cases r <;> rfl

theorem bodyDFinish_finish (v : Word) (s : State) : bodyDFinish (finish v s) = (bodyDFinish s).lift (finish v) := by
  unfold bodyDFinish
  simp only [finish_dev]
  cases flushSink s.dev <;> rfl

end Sys2Proof.Machine
end

