-- ==== Sys2Proof/Laws/PerInstr.lean ====
section
/-! SUPPORT. Facts about every instruction as syntax, one lemma per constructor. -/

namespace Sys2Proof.Laws.ListedOpcode

/-- 30_encoding.md R87: the word an instruction encodes to is `zext_32` of an opcode of the map. -/
def Statement (i : Instr) : Prop := (encode i).wordOk = true ∧ (encode i).opcodeOk = true ∧ (encode i).op = i.opcode

/-- The statement looks at the word alone, so a check of the opcode settles it. -/
theorem of_opcode (i : Instr)
    (h : (i.opcode.setWidth 32 &&& 0xFFFFFF00#32 == 0#32) = true ∧
      (formatOf (i.opcode.setWidth 32 &&& 0x000000FF#32).toNat).isSome = true ∧ field (i.opcode.setWidth 32) 0 8 = i.opcode) :
    Statement i := h

theorem clear : Statement .clear :=
  of_opcode _ (by simp only [Instr.opcode]; decide)

theorem bbClear : Statement .bbClear :=
  of_opcode _ (by simp only [Instr.opcode]; decide)

theorem bbAppend (b : Bool) : Statement (.bbAppend b) :=
  of_opcode _ (by simp only [Instr.opcode]; decide)

theorem bbRemoveLast : Statement .bbRemoveLast :=
  of_opcode _ (by simp only [Instr.opcode]; decide)

theorem bbGet (i : Word) : Statement (.bbGet i) :=
  of_opcode _ (by simp only [Instr.opcode]; decide)

theorem bbReadByte (j : Word) : Statement (.bbReadByte j) :=
  of_opcode _ (by simp only [Instr.opcode]; decide)

theorem eCount : Statement .eCount :=
  of_opcode _ (by simp only [Instr.opcode]; decide)

theorem eBuild : Statement .eBuild :=
  of_opcode _ (by simp only [Instr.opcode]; decide)

theorem eTable : Statement .eTable :=
  of_opcode _ (by simp only [Instr.opcode]; decide)

theorem eHeader : Statement .eHeader :=
  of_opcode _ (by simp only [Instr.opcode]; decide)

theorem ePayload : Statement .ePayload :=
  of_opcode _ (by simp only [Instr.opcode]; decide)

theorem eFlush : Statement .eFlush :=
  of_opcode _ (by simp only [Instr.opcode]; decide)

theorem encode : Statement .encode :=
  of_opcode _ (by simp only [Instr.opcode]; decide)

theorem dHeader : Statement .dHeader :=
  of_opcode _ (by simp only [Instr.opcode]; decide)

theorem dPayload : Statement .dPayload :=
  of_opcode _ (by simp only [Instr.opcode]; decide)

theorem dFinish : Statement .dFinish :=
  of_opcode _ (by simp only [Instr.opcode]; decide)

theorem decode : Statement .decode :=
  of_opcode _ (by simp only [Instr.opcode]; decide)

theorem freqRead (s : Byte) : Statement (.freqRead s) :=
  of_opcode _ (by simp only [Instr.opcode]; decide)

theorem cwLen (s : BitVec 9) : Statement (.cwLen s) :=
  of_opcode _ (by simp only [Instr.opcode]; decide)

theorem cwBit (s : BitVec 9) (k : Byte) : Statement (.cwBit s k) :=
  of_opcode _ (by simp only [Instr.opcode]; decide)

end Sys2Proof.Laws.ListedOpcode
end

