-- ==== Sys2Proof/Tests/Slice0.lean ====
section
/-! SUPPORT. The model's own tests: ill-formed commands, words written out from 30_encoding.md, one step of each command
with results from 95_test_vectors.md, and a witness for the hypotheses of each statement. -/

namespace Sys2Proof.Tests

set_option Elab.async false

open Sys2Proof Sys2Proof.Machine

/-! ## Ill-formed commands are refused (30_encoding.md R80) -/

theorem test_word_bit_8_is_ill_formed : Command.wordOk ⟨0x00000120#32, 0#32⟩ = false := by decide
theorem test_word_bit_31_is_ill_formed : Command.wordOk ⟨0x80000001#32, 0#32⟩ = false := by decide
theorem test_opcode_00_is_ill_formed : Command.opcodeOk ⟨0x00000000#32, 0#32⟩ = false := by decide
theorem test_opcode_26_is_ill_formed : Command.opcodeOk ⟨0x00000026#32, 0#32⟩ = false := by decide
theorem test_bit_operand_2_is_ill_formed : Command.argOk ⟨0x00000011#32, 2#32⟩ = false := by decide
theorem test_byte_operand_100_is_ill_formed : Command.argOk ⟨0x00000040#32, 0x100#32⟩ = false := by decide
theorem test_sym_operand_200_is_ill_formed : Command.argOk ⟨0x00000041#32, 0x200#32⟩ = false := by decide
theorem test_symidx_operand_bit_24_is_ill_formed : Command.argOk ⟨0x00000042#32, 0x01000061#32⟩ = false := by decide
theorem test_ill_formed_is_rejected_by_name :
    decode ⟨0x00000120#32, 0#32⟩ = .reject .reservedWordBits ∧ decode ⟨0#32, 0#32⟩ = .reject .unknownOpcode ∧
      decode ⟨0x00000042#32, 0x00000200#32⟩ = .reject .reservedArgBits := by decide

/-! ## Words written out bit by bit (30_encoding.md R79, R81 to R87, R95) -/

/-- CLEAR, OPC 0x01. -/
theorem test_decode_clear : decode ⟨0b00000000000000000000000000000001#32, 0#32⟩ = .instr .clear := by decide
/-- BB_APPEND 1, OPC 0x11, A[0] = 1. -/
theorem test_decode_bb_append :
    decode ⟨0b00000000000000000000000000010001#32, 0b1#32⟩ = .instr (.bbAppend true) := by decide
/-- E_HEADER, OPC 0x23; format N ignores ARG. -/
theorem test_decode_e_header :
    decode ⟨0b00000000000000000000000000100011#32, 0xFFFFFFFF#32⟩ = .instr .eHeader := by decide
/-- D_PAYLOAD, OPC 0x31. -/
theorem test_decode_d_payload : decode ⟨0b00000000000000000000000000110001#32, 0#32⟩ = .instr .dPayload := by decide
/-- FREQ_READ 0xFF, OPC 0x40, A[7:0]. -/
theorem test_decode_freq_read :
    decode ⟨0b00000000000000000000000001000000#32, 0b11111111#32⟩ = .instr (.freqRead 0xFF#8) := by decide
/-- CW_LEN 256 and 511, OPC 0x41, A[8:0]. -/
theorem test_decode_cw_len :
    decode ⟨0b00000000000000000000000001000001#32, 0b100000000#32⟩ = .instr (.cwLen 256#9) ∧
      decode ⟨0b00000000000000000000000001000001#32, 0b111111111#32⟩ = .instr (.cwLen 511#9) := by decide
/-- CW_BIT symbol 0x100, bit 0x80: OPC 0x42, A[8:0] the symbol and A[23:16] the index. -/
theorem test_decode_cw_bit :
    decode ⟨0b00000000000000000000000001000010#32, 0b00000000100000000000000100000000#32⟩ =
      .instr (.cwBit 0x100#9 0x80#8) := by decide
theorem test_table_word : decodeTableWord 32 0x2F = some .encode ∧ decodeTableWord 32 0x26 = none := by decide

/-! ## Small states -/

/-- The reset state in an operation state, with a source. -/
def start (o : OpState) (bs : List Byte) : State :=
  { State.reset with opstate := o, dev := { State.reset.dev with src := { bytes := bs, pos := 0 } } }

/-- The reset state with bits in the buffer. -/
def bits (bs : List Bool) : State := { State.reset with bb := { content := bs, stale := [] } }

/-- I5(EOS, a), the tree of `aaaa` (95_test_vectors.md T3). -/
def aTree : Node := .internal (some 5) (.leaf .eos (some 1)) (.leaf (.byte 0x61#8) (some 4))

/-- `aaaa`. -/
def aaaa : List Byte := [0x61#8, 0x61#8, 0x61#8, 0x61#8]

/-- The stream of `aaaa` (E2). -/
def aStream : List Byte := [0x73#8, 0x0F#8, 0x80#8]

/-- `aaaa` counted, with its tree and table, before the step that starts in `o`. -/
def encoding (o : OpState) (bs : List Byte) : State :=
  { start o bs with freq := countsOf aaaa, n1 := 4, root := aTree, nodeCount := 3, cw := tableOf aTree }

/-- The header of `aaaa` parsed: 13 bits, so 3 bits of the second byte are left. -/
def parsed (bs : List Byte) : State :=
  { start .dHeaderParsed bs with
    root := aTree.bare, nodeCount := 3, dcur := 0x0F#8, dcnt := 3, dbits := 13#32
    dev := { State.reset.dev with src := { bytes := bs, pos := 2 } } }

/-- A smaller HCORE: P_W = 9, P_BB_CAP = 8. -/
def tiny : Params := { pW := 9, bbCap := 8, nodeCap := 513, base := 0x100 }

/-- What a step leaves, if it ends in a next state. -/
def after {α : Type} (o : Host.Outcome State Fault Refusal) (f : State → α) : Option α :=
  match o with
  | .next t => some (f t)
  | .fault _ => none
  | .refused _ => none

/-- RESULT and STATUS (10_state.md R20). -/
def ending (s : State) : Word × Word := (s.result, s.status)

/-! ## One step of each command -/

/-- 46_control.md R149. -/
theorem test_clear :
    after (exec .clear { start .failed [] with operr := .ioError, overrun := true }) (fun t => (ending t, t.busy)) =
      some ((0#32, 0#32), false) := by decide +kernel
/-- B16, B17. -/
theorem test_bb_clear : after (exec .bbClear (bits [true, false, true])) (fun t => t.bb.content) = some [] := by
  decide +kernel
/-- B2. -/
theorem test_bb_append :
    after (exec (.bbAppend false) (bits [true])) (fun t => (ending t, t.bb.content)) =
      some ((0#32, 0#32), [true, false]) := by decide +kernel
/-- B20: a direct error, OPSTATE unchanged. -/
theorem test_bb_append_full :
    after (exec (.bbAppend true) { bits [true, true, true, true, true, true, true, true] with cfg := tiny }) ending =
      some (0#32, 0x42#32) := by decide +kernel
/-- B11. -/
theorem test_bb_remove_last :
    after (exec .bbRemoveLast (bits [true, false, true])) (fun t => t.bb.content) = some [true, false] := by decide +kernel
/-- B6. -/
theorem test_bb_get : after (exec (.bbGet 2#32) (bits [true, false, true])) ending = some (1#32, 0#32) := by
  decide +kernel
/-- B7. -/
theorem test_bb_get_bounds : after (exec (.bbGet 3#32) (bits [true, false, true])) ending = some (0#32, 0x52#32) := by
  decide +kernel
/-- B9. -/
theorem test_bb_read_byte : after (exec (.bbReadByte 0#32) (bits [true, false, true])) ending = some (0xA0#32, 0#32) := by
  decide +kernel
/-- B10. -/
theorem test_bb_read_byte_bounds :
    after (exec (.bbReadByte 1#32) (bits [true, false, true])) ending = some (0#32, 0x52#32) := by decide +kernel
/-- T3. -/
theorem test_e_count :
    after (exec .eCount (start .idle aaaa)) (fun t => (ending t, freqAt t.freq 0x61#8)) =
      some ((4#32, 0x100#32), 4) := by decide +kernel
/-- T3, E2. -/
theorem test_e_build :
    after (exec .eBuild (encoding .eFreqCounted aaaa)) (fun t => (ending t, t.root)) =
      some ((5#32, 0x200#32), aTree) := by decide +kernel
/-- X6. -/
theorem test_e_build_out_of_sequence : after (exec .eBuild (start .idle [])) ending = some (0#32, 0x72#32) := by
  decide +kernel
/-- W3. -/
theorem test_e_table :
    after (exec .eTable (encoding .eTreeBuilt aaaa)) (fun t => (ending t, cwAt t.cw (.byte 0x61#8), cwAt t.cw .eos)) =
      some ((2#32, 0x300#32), some [true], some [false]) := by decide +kernel
/-- H3. -/
theorem test_e_header :
    after (exec .eHeader (encoding .eTableBuilt aaaa)) (fun t => (ending t, t.bb.content)) =
      some ((13#32, 0x400#32), [false, true, true, true, false, false, true, true, false, false, false, false, true]) := by
  decide +kernel
/-- X1. -/
theorem test_e_header_full :
    after (exec .eHeader { encoding .eTableBuilt aaaa with cfg := tiny }) (fun t => (ending t, t.bb.content)) =
      some ((0#32, 0x4F42#32), [false, true, true, true, false, false, true, true]) := by decide +kernel
/-- E2, the payload alone. -/
theorem test_e_payload :
    after (exec .ePayload (encoding .eHeaderWritten aaaa)) (fun t => (ending t, t.bb.content)) =
      some ((5#32, 0x500#32), [true, true, true, true, false]) := by decide +kernel
/-- X2. -/
theorem test_e_payload_changed_source :
    after (exec .ePayload (encoding .eHeaderWritten [0x61#8, 0x61#8, 0x61#8, 0x62#8])) (fun t => (ending t, t.bb.content)) =
      some ((0#32, 0x9F92#32), [true, true, true]) := by decide +kernel
/-- 44_encoder.md R134: three bits are one byte. -/
theorem test_e_flush :
    after (exec .eFlush { bits [true, false, true] with opstate := .ePayloadWritten }) (fun t => (ending t, t.dev.sink)) =
      some ((1#32, 0x600#32), { bytes := [0xA0#8], flushes := 1 }) := by decide +kernel
/-- X7, a failing first write. -/
theorem test_e_flush_fails :
    after (exec .eFlush { bits [true] with opstate := .ePayloadWritten, dev := { State.reset.dev with draws := [⟨true, none⟩] } })
      (fun t => (ending t, t.dev.sink)) = some ((0#32, 0x1F12#32), { bytes := [], flushes := 0 }) := by decide +kernel
/-- E2. -/
theorem test_encode :
    after (exec .encode (start .idle aaaa)) (fun t => (ending t, t.dev.sink)) =
      some ((3#32, 0x600#32), { bytes := aStream, flushes := 1 }) := by decide +kernel
/-- The header of E2, read back. -/
theorem test_d_header :
    after (exec .dHeader (start .idle aStream)) (fun t => (ending t, t.root, t.dev.src.pos)) =
      some ((13#32, 0x700#32), aTree.bare, 2) := by decide +kernel
/-- A byte leaf as root is refused (45_decoder.md R142). -/
theorem test_d_header_byte_leaf :
    after (exec .dHeader (start .idle [0x80#8, 0x00#8])) ending = some (0#32, 0x2F22#32) := by decide +kernel
/-- The payload of E2. -/
theorem test_d_payload :
    after (exec .dPayload (parsed aStream)) (fun t => (ending t, t.dev.sink.bytes)) =
      some ((4#32, 0x800#32), aaaa) := by decide +kernel
/-- A source that ends inside the payload (45_decoder.md R143): three bits are three `a`. -/
theorem test_d_payload_truncated :
    after (exec .dPayload (parsed [0x73#8, 0x0F#8])) (fun t => (ending t, t.dev.sink.bytes)) =
      some ((0#32, 0x3F32#32), [0x61#8, 0x61#8, 0x61#8]) := by decide +kernel
/-- 45_decoder.md R144. -/
theorem test_d_finish :
    after (exec .dFinish { start .dPayloadDecoded [] with dout := 4#32 }) (fun t => (ending t, t.dev.sink.flushes)) =
      some ((4#32, 0x900#32), 1) := by decide +kernel
/-- E2 decoded. -/
theorem test_decode :
    after (exec .decode (start .idle aStream)) (fun t => (ending t, t.dev.sink)) =
      some ((4#32, 0x900#32), { bytes := aaaa, flushes := 1 }) := by decide +kernel
/-- T10, T11. -/
theorem test_freq_read :
    after (exec (.freqRead 0x61#8) (encoding .eFreqCounted aaaa)) (·.result) = some 4#32 ∧
      after (exec (.freqRead 0x62#8) (encoding .eFreqCounted aaaa)) (·.result) = some 0#32 := by decide +kernel
/-- T12. -/
theorem test_freq_read_in_idle : after (exec (.freqRead 0x61#8) (start .idle aaaa)) ending = some (0#32, 0x72#32) := by
  decide +kernel
/-- W10, W11, W12. -/
theorem test_cw_len :
    after (exec (.cwLen 0x61#9) (encoding .eTableBuilt aaaa)) (·.result) = some 0x80000001#32 ∧
      after (exec (.cwLen 256#9) (encoding .eTableBuilt aaaa)) (·.result) = some 0x80000001#32 ∧
      after (exec (.cwLen 0x62#9) (encoding .eTableBuilt aaaa)) (·.result) = some 0#32 := by decide +kernel
/-- W18. -/
theorem test_cw_len_bounds : after (exec (.cwLen 257#9) (encoding .eTableBuilt aaaa)) ending = some (0#32, 0x352#32) := by
  decide +kernel
/-- W3: `a` is `1`, EOS is `0`. -/
theorem test_cw_bit :
    after (exec (.cwBit 0x61#9 0#8) (encoding .eTableBuilt aaaa)) (·.result) = some 1#32 ∧
      after (exec (.cwBit 256#9 0#8) (encoding .eTableBuilt aaaa)) (·.result) = some 0#32 := by decide +kernel
/-- As W17: one bit beyond the codeword. -/
theorem test_cw_bit_bounds :
    after (exec (.cwBit 0x61#9 1#8) (encoding .eTableBuilt aaaa)) ending = some (0#32, 0x352#32) := by decide +kernel

/-! ## Steps -/

/-- A command placed by `withFetchWord` runs as the first step after reset; 0x25 may not start in IDLE. -/
theorem test_fetch_word :
    after (step (State.reset.withFetchWord 32 0x01)) ending = some (0#32, 0#32) ∧
      after (step (State.reset.withFetchWord 32 0x25)) ending = some (0#32, 0x72#32) ∧
      after (step (State.reset.withFetchWord 32 0x02)) ending = some (0#32, 0x62#32) := by decide +kernel
/-- 20_memory.md R54: a second command word while BUSY = 1 is dropped and sets OVERRUN. -/
theorem test_overrun :
    after (step { State.reset with busy := true, latch := some ⟨0x20#32, 0#32⟩, moves := [.busWrite 0 4 0x01#32] })
      (fun t => (t.overrun, t.latch)) = some (true, some ⟨0x20#32, 0#32⟩) := by decide +kernel
/-- 70_reset_and_hazards.md R169: 6 calls of ENCODE of E2 count and 6 read the source again, so the 13th
writes the first byte. -/
theorem test_reset_mid_command :
    after (step { start .idle aaaa with busy := true, latch := some ⟨0x2F#32, 0#32⟩, moves := [.reset 13] })
      (fun t => (ending t, t.dev.sink.bytes)) = some ((0#32, 0#32), [0x73#8]) := by decide +kernel

/-! ## Witnesses: the hypotheses of each statement are met together -/

/-- Does a step end in a next state? -/
def runs (o : Host.Outcome State Fault Refusal) : Bool :=
  match o with
  | .next _ => true
  | .fault _ => false
  | .refused _ => false

theorem next_of_runs {o : Host.Outcome State Fault Refusal} (h : runs o = true) : ∃ t, o = .next t := by
  cases o with
  | next t => exact ⟨t, rfl⟩
  | fault e => cases h
  | refused e => cases h

theorem next_of_after {α : Type} {o : Host.Outcome State Fault Refusal} {f : State → α} {v : α}
    (h : after o f = some v) : ∃ t, o = .next t ∧ f t = v := by
  cases o with
  | next t => exact ⟨t, rfl, Option.some.inj h⟩
  | fault e => cases h
  | refused e => cases h

/-- A state in which a command is latched. -/
def latched (c : Command) (ms : List Move) : State :=
  { State.reset with busy := true, latch := some c, moves := ms }

theorem witness_DecodedCommandEncodesBackToItself :
    decode ⟨0x42#32, 0x00FF01FF#32⟩ = .instr (.cwBit 0x1FF#9 0xFF#8) ∧
      formatOf (Command.op ⟨0x42#32, 0x00FF01FF#32⟩).toNat ≠ some .none := by decide

theorem witness_StepRunsTheDecodedInstruction :
    ((latched ⟨0x42#32, 0x00030063#32⟩ [.engine]).busy = true ∧
      (latched ⟨0x42#32, 0x00030063#32⟩ [.engine]).latch = some ⟨0x42#32, 0x00030063#32⟩ ∧
      decode ⟨0x42#32, 0x00030063#32⟩ = .instr (.cwBit 0x63#9 3#8) ∧
      (latched ⟨0x42#32, 0x00030063#32⟩ [.engine]).moves = .engine :: []) ∧
    (latched ⟨0x42#32, 0x00030063#32⟩ []).busy = true ∧ (latched ⟨0x42#32, 0x00030063#32⟩ []).moves = [] := by
  decide +kernel

theorem witness_IllegalCommandChangesNothingElse :
    ∀ c ∈ [Command.mk 0x101#32 0#32, ⟨0#32, 0#32⟩, ⟨0x11#32, 2#32⟩], c.wellFormed = false ∧
      (latched c [.engine]).busy = true ∧ (latched c [.engine]).latch = some c ∧
      (latched c [.engine]).moves = .engine :: [] := by decide +kernel

theorem witness_SequenceErrorOutsideTheListedStates :
    (start .eFreqCounted []).opstate ≠ .idle ∧ (start .idle []).opstate ≠ .eFreqCounted ∧
      (start .eFreqCounted []).opstate ≠ .eTreeBuilt ∧ (start .eTreeBuilt []).opstate ≠ .eTableBuilt ∧
      (start .eTableBuilt []).opstate ≠ .eHeaderWritten ∧ (start .eHeaderWritten []).opstate ≠ .ePayloadWritten ∧
      (start .idle []).opstate ≠ .dHeaderParsed ∧ (start .dHeaderParsed []).opstate ≠ .dPayloadDecoded ∧
      (start .dHeaderParsed []).opstate ∈ [OpState.idle, .dHeaderParsed, .dPayloadDecoded, .dDone, .failed] ∧
      (start .eTreeBuilt []).opstate ∈
        [OpState.idle, .eFreqCounted, .eTreeBuilt, .dHeaderParsed, .dPayloadDecoded, .dDone, .failed] := by
  decide +kernel

theorem witness_BbAppendAppendsOrReportsAFullBuffer :
    ({ bits (List.replicate 7 true) with cfg := tiny } : State).bb.content.length ≠ tiny.bbCap ∧
      ({ bits (List.replicate 8 true) with cfg := tiny } : State).bb.content.length = tiny.bbCap ∧
      (2#32 &&& 0xFFFFFFFE#32 ≠ 0#32) ∧ 0x80000000#32 &&& 0xFFFFFFFE#32 ≠ 0#32 := by decide +kernel

theorem witness_ClearReturnsToIdle_and_BbClearEmptiesTheBuffer :
    (0x00000101#32).extractLsb' 0 8 = 0x01#8 ∧ (0x00000101#32).extractLsb' 8 24 ≠ 0#24 ∧
      (0x80000010#32).extractLsb' 0 8 = 0x10#8 ∧ (0x80000010#32).extractLsb' 8 24 ≠ 0#24 := by decide

theorem witness_reserved_operand_bits_zero :
    1#32 &&& 0xFFFFFFFE#32 = 0#32 ∧ 0xFF#32 &&& 0xFFFFFF00#32 = 0#32 ∧ 0x1FF#32 &&& 0xFFFFFE00#32 = 0#32 ∧
      0x00FF01FF#32 &&& 0xFF00FE00#32 = 0#32 := by decide

theorem witness_ResetLeavesTheRegistersZero :
    (∃ n k, Instr.cwBit 0#9 0#8 = .cwBit n k) ∧ ∃ n, Instr.bbGet 0#32 = .bbGet n := ⟨⟨_, _, rfl⟩, _, rfl⟩

theorem witness_BbRemoveLastRemovesTheLastBit :
    (bits [true, false, true]).bb.content = [true, false] ++ [true] ∧ (bits []).bb.content = [] := by decide +kernel

theorem witness_BbGetReadsTheBitOrReportsBounds :
    (bits [true, false, true]).bb.content[(2#32).toNat]? = some true ∧
      (bits [true, false, true]).bb.content.length ≤ (3#32).toNat ∧
      (bits [true, false, true]).bb.content.length ≤ (0xFFFFFFFF#32).toNat := by decide +kernel

theorem witness_BbReadByteReadsEightBits :
    (0#32).toNat < ((bits [true, false, true]).bb.content.length + 7) / 8 ∧
      ((bits [true, false, true]).bb.content.length + 7) / 8 ≤ (1#32).toNat := by decide +kernel

theorem witness_FreqReadReturnsTheCounter :
    (start .eFreqCounted []).opstate.counted = true ∧ (start .eDone []).opstate.counted = true ∧
      (start .dHeaderParsed []).opstate.counted = false ∧ (0x100#32 &&& 0xFFFFFF00#32 ≠ 0#32) := by decide +kernel

theorem witness_CwLenReturnsPresenceAndLength :
    ((256#9).toNat < 257 ∧ (encoding .eTableBuilt aaaa).opstate.tabled = true ∧
      (encoding .eTableBuilt aaaa).cw[(256#9).toNat]? = some (some [false])) ∧
    ((0#9).toNat < 257 ∧ (encoding .eDone aaaa).opstate.tabled = true ∧
      (encoding .eDone aaaa).cw[(0#9).toNat]? = some none) ∧
    257 ≤ (257#9).toNat ∧ 257 ≤ (511#9).toNat ∧ (encoding .eTreeBuilt aaaa).opstate.tabled = false ∧
    (0x200#32 &&& 0xFFFFFE00#32 ≠ 0#32) := by decide +kernel

theorem witness_CwBitReturnsTheCodewordBit :
    ((0x61#9).toNat < 257 ∧ (encoding .eTableBuilt aaaa).opstate.tabled = true ∧
      (encoding .eTableBuilt aaaa).cw[(0x61#9).toNat]? = some (some [true]) ∧ [true][(0#8).toNat]? = some true) ∧
    [true].length ≤ (1#8).toNat ∧ (encoding .eTableBuilt aaaa).cw[(0x62#9).toNat]? = some none ∧
    ¬ (257#9).toNat < 257 ∧ (encoding .eTreeBuilt aaaa).opstate.tabled = false ∧
    (0x01000061#32 &&& 0xFF00FE00#32 ≠ 0#32) ∧ (0x00000200#32 &&& 0xFF00FE00#32 ≠ 0#32) := by decide +kernel

/-- The third clause of CwBit's second part: at symbol 0x61 every codeword is at most one bit long. -/
theorem witness_CwBit_index_at_the_length :
    ∀ (h : (0x61#9).toNat < 257) (w : List Bool), (encoding .eTableBuilt aaaa).cw[(0x61#9).toNat] = some w →
      w.length ≤ (1#8).toNat := by
  have : ∀ h : (0x61#9).toNat < 257, (encoding .eTableBuilt aaaa).cw[(0x61#9).toNat]'h = some [true] := by decide +kernel
  intro h w hw
  rw [this h] at hw
  cases hw
  decide

theorem witness_ECountCountsEveryByteOfTheInput :
    let s : State := { start .idle (List.replicate 510 7#8) with cfg := tiny }
    s.opstate = .idle ∧ s.dev.Quiet ∧ s.dev.src.bytes.length + 1 ≤ s.cfg.maxW := by decide +kernel

theorem witness_ECountOverflowsOnByteNumberMaxW :
    let s : State := { start .idle (List.replicate 511 7#8) with cfg := tiny }
    s.cfg.Legal ∧ s.opstate = .idle ∧ s.dev.Quiet ∧ s.cfg.maxW ≤ s.dev.src.bytes.length := by decide +kernel

theorem witness_PriorityListIsOrderedAndFirstInFirstOut :
    [Node.leaf (.byte 1#8) (some 1), .leaf (.byte 2#8) (some 3), .leaf .eos (some 3)].Pairwise
      (fun x y => x.weight ≤ y.weight) := by decide

/-- T3, reached by the reference functions. -/
theorem witness_tree : treeOf (countsOf aaaa) = aTree := by decide +kernel

theorem witness_EBuildMakesTheTreeOfTheCounters :
    (encoding .eFreqCounted aaaa).cfg.Legal ∧ (encoding .eFreqCounted aaaa).opstate = .eFreqCounted := by decide +kernel

theorem witness_EncoderTreeWeightsAddUpToInputLengthPlusOne :
    (encoding .eTreeBuilt aaaa).Inv ∧ (encoding .eTreeBuilt aaaa).opstate.built = true :=
  ⟨{ legal := by decide +kernel
     latched := nofun
     failed_iff := by decide
     buffer := by decide +kernel
     store := by decide +kernel
     counts := fun _ => ⟨freqSum_countsOf aaaa, by decide +kernel⟩
     tree := fun _ => ⟨witness_tree.symm, rfl, rfl⟩
     table := nofun
     parsed := nofun }, rfl⟩

theorem witness_BuiltTreeHasOneLeafPerSymbolAndShortCodewords :
    (treeOf (countsOf aaaa)).codeword (.byte 0x61#8) = some [true] ∧
      (treeOf (countsOf aaaa)).codeword .eos = some [false] := by
  rw [witness_tree]
  decide

theorem witness_ETableTabulatesTheCodewords : (encoding .eTreeBuilt aaaa).opstate = .eTreeBuilt := by decide +kernel

theorem witness_CodewordsOfOneTreeArePrefixFree :
    aTree.codeword .eos = some [false] ∧ aTree.codeword .eos = some [false] ∧ [false] <+: [false] := by decide

theorem witness_EHeaderWritesTheHeaderOrRunsOutOfBuffer :
    (let s : State := { encoding .eTableBuilt aaaa with cfg := { tiny with bbCap := 13 } };
      s.opstate = .eTableBuilt ∧ s.root.header.length ≤ s.cfg.bbCap) ∧
    (let s : State := { encoding .eTableBuilt aaaa with cfg := { tiny with bbCap := 12 } };
      s.opstate = .eTableBuilt ∧ s.cfg.bbCap < s.root.header.length) := by decide +kernel

theorem witness_EPayloadAppendsTheCodewords :
    let s : State := { encoding .eHeaderWritten aaaa with cfg := { tiny with bbCap := 5 } }
    s.opstate = .eHeaderWritten ∧ s.dev.Quiet ∧ s.n1 = s.dev.src.bytes.length ∧
      (∀ v ∈ s.dev.src.bytes, s.root.codeword (.byte v) ≠ none) ∧ (∀ x, cwAt s.cw x = s.root.codeword x) ∧
      s.bb.content.length + (s.root.payload s.dev.src.bytes).length ≤ s.cfg.bbCap :=
  ⟨by decide +kernel, by decide +kernel, by decide +kernel, by decide +kernel, cwAt_tableOf aTree, by decide +kernel⟩

theorem witness_EPayloadAppendsTheCodewords_full :
    (let s : State := { encoding .eHeaderWritten aaaa with cfg := { tiny with bbCap := 3 } }
     s.opstate = .eHeaderWritten ∧ s.dev.Quiet ∧ s.dev.src.bytes = aaaa ++ [] ∧ aaaa.length ≤ s.n1 ∧
      (∀ v ∈ aaaa, cwAt s.cw (.byte v) ≠ none) ∧
      [true, true, true, true] = (aaaa.flatMap fun v => (cwAt s.cw (.byte v)).getD []) ∧
      s.bb.content.length ≤ s.cfg.bbCap ∧ s.cfg.bbCap < s.bb.content.length + 4) ∧
    (let s : State := { encoding .eHeaderWritten aaaa with cfg := { tiny with bbCap := 4 } }
     s.opstate = .eHeaderWritten ∧ s.dev.Quiet ∧ s.n1 = s.dev.src.bytes.length ∧
      (∀ v ∈ s.dev.src.bytes, cwAt s.cw (.byte v) ≠ none) ∧
      [true, true, true, true] = (s.dev.src.bytes.flatMap fun v => (cwAt s.cw (.byte v)).getD []) ∧
      cwAt s.cw .eos = some [false] ∧ s.bb.content.length + 4 ≤ s.cfg.bbCap ∧
      s.cfg.bbCap < s.bb.content.length + 4 + 1) := by decide +kernel

theorem witness_EPayloadReportsAChangedSource :
    ∀ xy ∈ [((aaaa.take 3, []) : List Byte × List Byte), (aaaa, [0x61#8]), (aaaa.take 3, [0x62#8])],
      let s : State := { encoding .eHeaderWritten (xy.1 ++ xy.2) with cfg := tiny }
      s.opstate = .eHeaderWritten ∧ s.dev.Quiet ∧ s.dev.src.bytes = xy.1 ++ xy.2 ∧
        (∀ v ∈ xy.1, cwAt s.cw (.byte v) ≠ none) ∧
        s.bb.content.length + (xy.1.flatMap fun v => (cwAt s.cw (.byte v)).getD []).length ≤ s.cfg.bbCap ∧
        ((xy.2 = [] ∧ xy.1.length < s.n1) ∨ (xy.2 ≠ [] ∧ xy.1.length = s.n1) ∨
          (xy.1.length < s.n1 ∧ xy.2 = 0x62#8 :: [] ∧ cwAt s.cw (.byte 0x62#8) = none)) := by decide +kernel

/-- The second clause with the first call failing and with the flush failing. -/
theorem witness_EFlushWritesThePackedBuffer :
    ((start .ePayloadWritten []).opstate = .ePayloadWritten ∧ (start .ePayloadWritten []).dev.Quiet) ∧
    ∀ oks ∈ [[], [(⟨false, none⟩ : Draw)]],
      let s : State := { bits [true, true] with
        opstate := .ePayloadWritten, dev := { State.reset.dev with draws := oks ++ [⟨true, none⟩] } }
      s.opstate = .ePayloadWritten ∧ s.dev.draws = oks ++ ⟨true, none⟩ :: [] ∧ (∀ d ∈ oks, d.fails = false) ∧
        (⟨true, none⟩ : Draw).fails = true ∧ oks.length ≤ s.bb.rawBytes.length := by decide +kernel

theorem witness_EncodeWritesTheCompressedStream :
    let s := start .idle aaaa
    s.cfg.Legal ∧ s.opstate = .idle ∧ s.dev.Quiet ∧ s.dev.src.bytes = aaaa ∧ aTree = treeOf (countsOf aaaa) ∧
      aaaa.length + 1 ≤ s.cfg.maxW ∧ (aTree.stream aaaa).length ≤ s.cfg.bbCap :=
  ⟨by decide +kernel, rfl, rfl, rfl, witness_tree.symm, by decide +kernel, by decide +kernel⟩

theorem witness_EncodeAndDecodeEqualTheirSteps : (start .idle aaaa).opstate = .idle := by decide +kernel

theorem witness_DHeaderRebuildsTheTreeOfItsHeader :
    let s : State := { start .idle aStream with cfg := { tiny with nodeCap := 3 } }
    s.opstate = .idle ∧ s.dev.Quiet ∧
      bitsOf s.dev.src.bytes = aTree.header ++ [true, true, true, true, false, false, false, false, false, false, false] ∧
      aTree.isByteLeaf = false ∧ aTree.size ≤ s.cfg.nodeCap := by decide +kernel

/-- A tree of `k` internal nodes, each the left child of the one before. -/
def chain : Nat → Node
  | 0 => .leaf .eos none
  | k + 1 => .internal none (chain k) (.leaf .eos none)

/-- The store of clause 1 holds exactly the nodes begun, that of clause 2 one fewer; with the least legal store a source of
513 and more type bits is a cut header of clause 2. -/
theorem witness_DHeaderRejectsACutHeaderAndAByteLeafRoot :
    (let s : State := { start .idle [0x73#8] with cfg := { tiny with nodeCap := 3 } };
      s.opstate = .idle ∧ s.dev.Quiet ∧ [false, false, false, false, true] ≠ [] ∧
        aTree.header = bitsOf s.dev.src.bytes ++ [false, false, false, false, true] ∧
        aTree.begun (bitsOf s.dev.src.bytes).length ≤ s.cfg.nodeCap) ∧
    (∀ bs ∈ [[0x73#8], aStream],
      let s : State := { start .idle bs with cfg := { tiny with nodeCap := 2 } };
      s.opstate = .idle ∧ s.dev.Quiet ∧
        (bitsOf s.dev.src.bytes <+: aTree.header ∨ aTree.header <+: bitsOf s.dev.src.bytes) ∧
        s.cfg.nodeCap < aTree.begun (bitsOf s.dev.src.bytes).length) ∧
    (let s : State := { start .idle (List.replicate 65 0#8) with cfg := tiny };
      s.cfg.Legal ∧ s.opstate = .idle ∧ s.dev.Quiet ∧ bitsOf s.dev.src.bytes <+: (chain 520).header ∧
        s.cfg.nodeCap < (chain 520).begun (bitsOf s.dev.src.bytes).length) ∧
    (let s := start .idle [0x98#8, 0x40#8];
      s.opstate = .idle ∧ s.dev.Quiet ∧ 1 ≤ s.cfg.nodeCap ∧
        bitsOf s.dev.src.bytes = [true, false] ++ bits8 0x61#8 ++ [false, false, false, false, false, false]) := by
  decide +kernel

theorem witness_DPayloadEmitsTheDecodedBytes :
    (let s := parsed aStream;
      s.opstate = .dHeaderParsed ∧ s.dev.Quiet ∧ s.root.isLeaf = false ∧ s.root.codeword .eos ≠ none ∧
        (∀ v ∈ aaaa, s.root.codeword (.byte v) ≠ none) ∧
        s.supply.ahead = s.root.payload aaaa ++ [false, false, false, false, false, false]) ∧
    (let s := start .dHeaderParsed [0xC0#8];
      s.opstate = .dHeaderParsed ∧ s.root.isLeaf = true) := by decide +kernel

theorem witness_DPayloadReportsATruncatedPayload :
    let s := parsed [0x73#8, 0x0F#8]
    s.opstate = .dHeaderParsed ∧ s.dev.Quiet ∧ s.root.isLeaf = false ∧
      (∀ v ∈ aaaa.take 3, s.root.codeword (.byte v) ≠ none) ∧ s.root.codeword .eos = some ([] ++ [false]) ∧
      [false] ≠ [] ∧ s.supply.ahead = ((aaaa.take 3).flatMap fun v => s.root.codeBits (.byte v)) ++ [] := by
  decide +kernel

theorem witness_DFinishFlushesTheSink :
    ((start .dPayloadDecoded []).opstate = .dPayloadDecoded ∧ (start .dPayloadDecoded []).dev.draw.1 = false) ∧
    (let s : State := { start .dPayloadDecoded [] with dev := { State.reset.dev with draws := [⟨true, none⟩] } };
      s.opstate = .dPayloadDecoded ∧ s.dev.draw.1 = true) := by decide +kernel

theorem witness_DecodeWritesTheOriginalBytes :
    let s := start .idle aStream
    s.opstate = .idle ∧ s.dev.Quiet ∧
      bitsOf s.dev.src.bytes = aTree.stream aaaa ++ [false, false, false, false, false, false] ∧
      aTree.size ≤ s.cfg.nodeCap ∧ aTree.codeword .eos ≠ none ∧ (∀ v ∈ aaaa, aTree.codeword (.byte v) ≠ none) := by
  decide +kernel

theorem witness_DecodingAnEncodingGivesTheInputBack :
    let s := start .idle aaaa
    let u := start .idle aStream
    s.cfg.Legal ∧ s.opstate = .idle ∧ s.dev.Quiet ∧ s.dev.src.bytes = aaaa ∧ aaaa.length + 1 ≤ s.cfg.maxW ∧
      ((treeOf (countsOf aaaa)).stream aaaa).length ≤ s.cfg.bbCap ∧ u.cfg.Legal ∧ u.opstate = .idle ∧ u.dev.Quiet ∧
      ∃ t, exec .encode s = .next t ∧ u.dev.src.bytes = t.dev.sink.bytes.drop s.dev.sink.bytes.length := by
  refine ⟨by decide +kernel, rfl, rfl, rfl, by decide +kernel, ?_, by decide +kernel, rfl, rfl, ?_⟩
  · rw [witness_tree]
    decide +kernel
  · obtain ⟨t, ht, hs⟩ := next_of_after test_encode
    refine ⟨t, ht, ?_⟩
    have : t.dev.sink = { bytes := aStream, flushes := 1 } := congrArg Prod.snd hs
    rw [this]
    rfl

theorem witness_SuccessfulDecodePullsOnlyTheBytesItNeeds :
    (start .idle aStream).dev.Quiet ∧ (start .idle aStream).dev.src.bytes.length < 2 ^ 29 ∧
      ∃ t, exec .decode (start .idle aStream) = .next t ∧ t.errcode = .none :=
  ⟨rfl, by decide +kernel, next_of_after (f := State.errcode) (by decide +kernel)⟩

theorem witness_EveryCommandEndsAndTheNextIsAccepted :
    ∃ t, exec .clear State.reset = .next t ∧ t.cfg.base % 256 = 0 :=
  next_of_after (f := fun t => t.cfg.base % 256) (by decide +kernel)

/-- For the statements about any command that ends in a next state: a direct command that errs, an encoder step, a decoder
step whose flush fails, and a whole encode all do. -/
theorem witness_commands_that_end :
    (∃ t, exec (.bbGet 0#32) State.reset = .next t ∧ t.errcode ≠ .none) ∧
    (∃ t, exec .eCount (start .idle aaaa) = .next t ∧ t.errcode = .none) ∧
    (∃ t, exec .dFinish { start .dPayloadDecoded [] with dev := { State.reset.dev with draws := [⟨true, none⟩] } } =
      .next t ∧ t.errcode = .ioError) ∧
    ∃ t, exec .encode (start .idle aaaa) = .next t := by
  refine ⟨?_, ?_, ?_, ?_⟩
  · obtain ⟨t, h, he⟩ := next_of_after (o := exec (.bbGet 0#32) State.reset) (f := State.errcode) (v := .boundsError)
      (by decide +kernel)
    exact ⟨t, h, by rw [he]; decide⟩
  · exact next_of_after (f := State.errcode) (by decide +kernel)
  · exact next_of_after (f := State.errcode) (by decide +kernel)
  · obtain ⟨t, h, _⟩ := next_of_after test_encode
    exact ⟨t, h⟩

theorem witness_PipelineCommandSucceedsOrAborts :
    (Instr.eCount, OpState.eFreqCounted) ∈ [(Instr.eCount, OpState.eFreqCounted), (.eBuild, .eTreeBuilt)] ∧
      ∃ t, exec .eCount (start .idle aaaa) = .next t :=
  ⟨by decide, next_of_runs (by decide +kernel)⟩

theorem witness_EachPipelineCommandRaisesOnlyItsErrors :
    (start .idle aaaa).cfg.Legal ∧
      (Instr.eCount, [ErrCode.ioError, .counterOverflow]) ∈
        [(Instr.eCount, [ErrCode.ioError, .counterOverflow]), (.eBuild, [])] ∧
      ∃ t, exec .eCount (start .idle aaaa) = .next t :=
  ⟨by decide +kernel, by decide, next_of_runs (by decide +kernel)⟩

theorem witness_DirectCommandsTouchNoDeviceAndNoTable :
    (∃ n, Instr.bbGet 0#32 = .bbGet n) ∧ ∃ t, exec (.bbGet 0#32) State.reset = .next t :=
  ⟨⟨_, rfl⟩, next_of_runs (by decide +kernel)⟩

theorem witness_EncoderStepsLeaveTheRestAlone :
    Instr.encode ∈ [Instr.eCount, .eBuild, .eTable, .eHeader, .ePayload, .eFlush, .encode] ∧
      ∃ t, exec .encode (start .idle aaaa) = .next t := by
  obtain ⟨t, h, _⟩ := next_of_after test_encode
  exact ⟨by decide, t, h⟩

theorem witness_DecoderStepsLeaveTheRestAlone :
    Instr.decode ∈ [Instr.dHeader, .dPayload, .dFinish, .decode] ∧
      ∃ t, exec .decode (start .idle aStream) = .next t := by
  obtain ⟨t, h, _⟩ := next_of_after test_decode
  exact ⟨by decide, t, h⟩

theorem witness_FailedIsLeftOnlyByClearOrReset :
    (let s : State := { latched ⟨0x01#32, 0#32⟩ [] with opstate := .failed, operr := .ioError };
      s.opstate = .failed ∧ ∃ t, step s = .next t) ∧
    (let s : State := { latched ⟨0x20#32, 0#32⟩ [.reset 0] with opstate := .failed, operr := .ioError };
      s.opstate = .failed ∧ ∃ t, step s = .next t) :=
  ⟨⟨by decide +kernel, next_of_runs (by decide +kernel)⟩, ⟨by decide +kernel, next_of_runs (by decide +kernel)⟩⟩

/-- Also for OnlyBuildersAndResetWriteTheNodeStore, whose only hypothesis is the step. -/
theorem witness_EveryStepKeepsTheInvariant :
    (encoding .eTreeBuilt aaaa).Inv ∧ ∃ t, step (encoding .eTreeBuilt aaaa) = .next t :=
  ⟨witness_EncoderTreeWeightsAddUpToInputLengthPlusOne.1, next_of_runs (by decide +kernel)⟩

theorem witness_IdleReadReturnsTheRegister :
    ∀ off ∈ [0x00, 0x04, 0x08, 0x0C, 0x10, 0x14, 0xFC],
      let s : State := { State.reset with cfg := tiny, moves := [.busRead (0x100 + off) 4] }
      s.busy = false ∧ off < 256 ∧ off % 4 = 0 ∧ s.cfg.base % 256 = 0 ∧ s.moves = .busRead (s.cfg.base + off) 4 :: [] := by
  decide +kernel

theorem witness_BusyReadShowsBusyAndOverrun :
    ∀ off ∈ [0x00, 0x04, 0x08, 0x14, 0xFC],
      let s := latched ⟨0x20#32, 0#32⟩ [.busRead off 4]
      s.busy = true ∧ off < 256 ∧ off % 4 = 0 ∧ s.cfg.base % 256 = 0 ∧ s.moves = .busRead (s.cfg.base + off) 4 :: [] ∧
        (off = 0x08 ∨ off = 0x04 ∨ off = 0x00 ∨ 0x14 ≤ off) := by decide +kernel

theorem witness_WriteIssuesSetsOrIsIgnored :
    ∀ off ∈ [0x00, 0x04, 0x08, 0xFC],
      let s : State := { State.reset with cfg := tiny, moves := [.busWrite (0x100 + off) 4 0x20#32] }
      off < 256 ∧ off % 4 = 0 ∧ s.cfg.base % 256 = 0 ∧
        s.moves = .busWrite (s.cfg.base + off) 4 0x20#32 :: [] := by decide +kernel

theorem witness_NarrowOrMisalignedAccessIsRefused :
    ({ State.reset with moves := [.busRead 0 1] } : State).moves = .busRead 0 1 :: [] ∧ 1 ≠ 4 ∧
      ({ State.reset with moves := [.busWrite 2 4 0#32] } : State).moves = .busWrite 2 4 0#32 :: [] ∧ 2 % 4 ≠ 0 := by
  decide +kernel

theorem witness_ResetInputKeepsTheDeviceEffects :
    (let s := latched ⟨0x20#32, 0#32⟩ [.reset 2];
      s.moves = .reset 2 :: [] ∧ s.busy = true ∧ s.latch = some ⟨0x20#32, 0#32⟩) ∧
    (let s : State := { State.reset with moves := [.reset 0] };
      s.moves = .reset 0 :: [] ∧ s.busy = false) := by decide +kernel

end Sys2Proof.Tests
end

/-! PROOFS. O52: every step keeps the invariant. What an aborted body must still fit, what each body of a pipeline
command reaches, then the host's accesses, the reset input and the engine's turn. -/

namespace Sys2Proof.Machine

/-! ## Ways to a state of the invariant -/

/-- The clauses of the invariant that hold in the middle of a command too, and so survive an abort: the parameters are
legal and nothing outgrows its storage. -/
structure State.Fits (s : State) : Prop where
  legal : s.cfg.Legal
  buffer : s.bb.used ≤ s.cfg.bbCap
  store : s.nodeCount ≤ s.cfg.nodeCap

theorem State.Inv.fits {s : State} (h : s.Inv) : s.Fits where
  legal := h.legal
  buffer := h.buffer
  store := h.store

theorem State.Inv.operr_eq_none {s : State} (h : s.Inv) (ho : s.opstate ≠ .failed) : s.operr = .none :=
  not_not.mp (mt h.failed_iff.mpr ho)

theorem failed_iff_of_ne {o : OpState} {e : ErrCode} (ho : o ≠ .failed) (he : e = .none) :
    o = .failed ↔ e ≠ .none := by simp [ho, he]

/-- In IDLE and FAILED the invariant says nothing of the tables (10_state.md R37 to R42). -/
theorem State.Fits.inv_of_idle_or_failed {s : State} (h : s.Fits) (hl : s.busy = true → s.latch ≠ none)
    (ho : s.opstate = .idle ∧ s.operr = .none ∨ s.opstate = .failed ∧ s.operr ≠ .none) : s.Inv := by
  obtain ⟨hc, hb, ht, hp⟩ : s.opstate.counted = false ∧ s.opstate.built = false ∧ s.opstate.tabled = false ∧
      s.opstate.parsed = false := by
    rcases ho with ⟨ho, -⟩ | ⟨ho, -⟩ <;> rw [ho] <;> decide
  exact { h with
    latched := hl
    failed_iff := by rcases ho with ⟨ho, he⟩ | ⟨ho, he⟩ <;> simp [ho, he]
    counts := by simp [hc]
    tree := by simp [hb]
    table := by simp [ht]
    parsed := by simp [hp] }

/-- `o'` asks no more of the tables than `o`, and neither is FAILED. -/
abbrev OpState.Covers (o o' : OpState) : Prop :=
  o ≠ .failed ∧ o' ≠ .failed ∧ (o'.counted = true → o.counted = true) ∧ (o'.built = true → o.built = true) ∧
    (o'.tabled = true → o.tabled = true) ∧ (o'.parsed = true → o.parsed = true)

/-- Going on to an operation state that asks no more of the tables. -/
theorem State.Inv.advance {s : State} {o : OpState} (h : s.Inv) (ho : s.opstate.Covers o) :
    { s with opstate := o }.Inv := by
  obtain ⟨hf, hf', hc, hb, ht, hp⟩ := ho
  exact { h with
    failed_iff := failed_iff_of_ne hf' (h.operr_eq_none hf)
    counts := fun x => h.counts (hc x)
    tree := fun x => h.tree (hb x)
    table := fun x => h.table (ht x)
    parsed := fun x => h.parsed (hp x) }

/-! ## The bodies of the pipeline commands -/

/-- A body that ends well ends in a state of the invariant with operation state `o`; one that raises leaves everything
within its storage. -/
def Res.Reaches (r : Res State Word) (o : OpState) : Prop :=
  match r with
  | .ok _ t => t.Inv ∧ t.opstate = o
  | .raise _ t => t.Fits
  | .stuck => True

theorem Res.Reaches.andThen {r : Res State Word} {f : Word → State → Res State Word} {o o' : OpState}
    (h : r.Reaches o) (hf : ∀ v t, t.Inv → t.opstate = o → (f v t).Reaches o') : (r.andThen f).Reaches o' := by
  cases r with
  | ok v t => exact hf v t h.1 h.2
  | raise e t => exact h
  | stuck => trivial

theorem one_le_maxW_of_legal {p : Params} (h : p.Legal) : 1 ≤ p.maxW := by
  obtain ⟨⟨hw, -⟩, -⟩ := h
  have : 2 ^ 9 ≤ 2 ^ p.pW := Nat.pow_le_pow_right (by decide) hw
  unfold Params.maxW
  omega

section
variable {s : State} (hs : s.Inv)
include hs

/-- 41_tree_builder.md R112, R114: the counters add up to N1, which leaves room for EOS. -/
theorem bodyECount_reaches (ho : s.opstate = .idle) : (bodyECount s).Reaches .eFreqCounted := by
  rcases bodyECount_cases s with ⟨n, f, d, h, hsum, hle⟩ | ⟨e, f, d, h⟩ <;> rw [h]
  · have hw := one_le_maxW_of_legal hs.legal
    refine ⟨{ hs with
      failed_iff := failed_iff_of_ne nofun (hs.operr_eq_none (by simp [ho]))
      counts := fun _ => ⟨hsum, by simp only; omega⟩
      tree := nofun
      table := nofun
      parsed := nofun }, rfl⟩
  · exact { hs.fits with }

/-- 41_tree_builder.md R115: ROOT is the tree of the counters, which fits the node store. -/
theorem bodyEBuild_reaches (ho : s.opstate = .eFreqCounted) : (bodyEBuild s).Reaches .eTreeBuilt := by
  obtain ⟨-, -, ⟨hcap, -⟩, -⟩ := hs.legal
  rw [bodyEBuild_eq s hcap]
  exact ⟨{ hs with
    failed_iff := failed_iff_of_ne nofun (hs.operr_eq_none (by simp [ho]))
    store := (treeOf_size_le s.freq).trans hcap
    counts := fun _ => hs.counts (by simp [ho, OpState.counted])
    tree := fun _ => ⟨rfl, rfl, rfl⟩
    table := nofun
    parsed := nofun }, rfl⟩

/-- 43_codeword_table.md R127: CW is the table of ROOT. -/
theorem bodyETable_reaches (ho : s.opstate = .eTreeBuilt) : (bodyETable s).Reaches .eTableBuilt := by
  rw [bodyETable_eq]
  exact ⟨{ hs with
    failed_iff := failed_iff_of_ne nofun (hs.operr_eq_none (by simp [ho]))
    counts := fun _ => hs.counts (by simp [ho, OpState.counted])
    tree := fun _ => hs.tree (by simp [ho, OpState.built])
    table := fun _ => ⟨rfl, rfl⟩
    parsed := nofun }, rfl⟩

theorem bodyEHeader_reaches (ho : s.opstate = .eTableBuilt) : (bodyEHeader s).Reaches .eHeaderWritten := by
  rcases bodyEHeader_cases s with ⟨v, q, h, hq⟩ | ⟨q, h, hq⟩ <;> rw [h]
  · exact ⟨{ hs.advance (by rw [ho]; decide) with buffer := hq hs.buffer }, rfl⟩
  · exact { hs.fits with buffer := hq hs.buffer }

theorem bodyEPayload_reaches (ho : s.opstate = .eHeaderWritten) : (bodyEPayload s).Reaches .ePayloadWritten := by
  rcases bodyEPayload_cases s with ⟨v, q, d, h, hq⟩ | ⟨e, q, d, h, hq⟩ <;> rw [h]
  · exact ⟨{ hs.advance (by rw [ho]; decide) with buffer := hq hs.buffer }, rfl⟩
  · exact { hs.fits with buffer := hq hs.buffer }

theorem bodyEFlush_reaches (ho : s.opstate = .ePayloadWritten) : (bodyEFlush s).Reaches .eDone := by
  rcases bodyEFlush_cases s with ⟨v, d, h⟩ | ⟨e, d, h⟩ <;> rw [h]
  · exact ⟨{ hs.advance (by rw [ho]; decide) with }, rfl⟩
  · exact { hs.fits with }

/-- 45_decoder.md R142: ROOT is no byte leaf, and NCOUNT is its size. -/
theorem bodyDHeader_reaches (ho : s.opstate = .idle) : (bodyDHeader s).Reaches .dHeaderParsed := by
  rcases bodyDHeader_cases s with ⟨v, u, n, k, h, hn, hk, hle⟩ | ⟨e, u, n, k, h, hk⟩ <;> rw [h]
  · exact ⟨{ hs with
      failed_iff := failed_iff_of_ne nofun (hs.operr_eq_none (by simp [ho]))
      store := hle
      counts := nofun
      tree := nofun
      table := nofun
      parsed := fun _ => ⟨hn, hk⟩ }, rfl⟩
  · exact { hs.fits with store := hk.elim id fun hk => hk.trans_le hs.store }

theorem bodyDPayload_reaches (ho : s.opstate = .dHeaderParsed) : (bodyDPayload s).Reaches .dPayloadDecoded := by
  rcases bodyDPayload_cases s with ⟨v, u, n, w, h⟩ | ⟨e, u, n, w, h⟩ <;> rw [h]
  · exact ⟨{ hs.advance (by rw [ho]; decide) with }, rfl⟩
  · exact { hs.fits with }

theorem bodyDFinish_reaches (ho : s.opstate = .dPayloadDecoded) : (bodyDFinish s).Reaches .dDone := by
  rcases bodyDFinish_cases s with ⟨d, h⟩ | ⟨d, h⟩ <;> rw [h]
  · exact ⟨{ hs.advance (by rw [ho]; decide) with }, rfl⟩
  · exact { hs.fits with }

theorem bodyEncode_reaches (ho : s.opstate = .idle) : (bodyEncode s).Reaches .eDone :=
  (bodyECount_reaches hs ho).andThen fun _ _ hs ho => (bodyEBuild_reaches hs ho).andThen fun _ _ hs ho =>
    (bodyETable_reaches hs ho).andThen fun _ _ hs ho => (bodyEHeader_reaches hs ho).andThen fun _ _ hs ho =>
      (bodyEPayload_reaches hs ho).andThen fun _ _ => bodyEFlush_reaches

theorem bodyDecode_reaches (ho : s.opstate = .idle) : (bodyDecode s).Reaches .dDone :=
  (bodyDHeader_reaches hs ho).andThen fun _ _ hs ho =>
    (bodyDPayload_reaches hs ho).andThen fun _ _ => bodyDFinish_reaches

/-- Started where 10_state.md R34 allows it, a body reaches its command's operation state. -/
theorem Pipeline.reaches {i : Instr} {b : State → Res State Word} {e : List ErrCode} {n : Nat} {o : OpState}
    (h : Pipeline i b e n o) (hm : mayStart i s.opstate = true) : (b s).Reaches o := by
  cases h <;> have ho := eq_of_beq hm
  case eCount => exact bodyECount_reaches hs ho
  case eBuild => exact bodyEBuild_reaches hs ho
  case eTable => exact bodyETable_reaches hs ho
  case eHeader => exact bodyEHeader_reaches hs ho
  case ePayload => exact bodyEPayload_reaches hs ho
  case eFlush => exact bodyEFlush_reaches hs ho
  case encode => exact bodyEncode_reaches hs ho
  case dHeader => exact bodyDHeader_reaches hs ho
  case dPayload => exact bodyDPayload_reaches hs ho
  case dFinish => exact bodyDFinish_reaches hs ho
  case decode => exact bodyDecode_reaches hs ho

end

/-! ## The ways a command ends -/

theorem finish_inv {s : State} (v : Word) (h : s.Inv) : (finish v s).Inv := { h with latched := nofun }

theorem raiseDirect_inv {s : State} (e : ErrCode) (h : s.Inv) : (raiseDirect e s).Inv := { h with latched := nofun }

theorem raisePipeline_inv {s : State} {e : ErrCode} (he : e ≠ .none) (h : s.Fits) : (raisePipeline e s).Inv :=
  State.Fits.inv_of_idle_or_failed { h with } nofun (.inr ⟨rfl, he⟩)

theorem clearOperation_inv {s : State} (h : s.Inv) : (clearOperation s).Inv :=
  State.Fits.inv_of_idle_or_failed { h.fits with } h.latched (.inl ⟨rfl, rfl⟩)

theorem exec_inv {i : Instr} {s t : State} (hs : s.Inv) (h : exec i s = .next t) : t.Inv := by
  rcases instr_kinds i with hd | ⟨b, e, n, o, hb⟩
  · rcases direct_outcome i hd s with ⟨x, hx, -⟩ | ⟨v, q, hx, -, -, hq⟩ | ⟨-, hx⟩ <;> rw [hx] at h <;> cases h
    · exact raiseDirect_inv x hs
    · exact finish_inv v { hs with buffer := hq hs.buffer }
    · exact finish_inv 0#32 (clearOperation_inv hs)
  · rcases hb.outcome s with ⟨-, hx⟩ | ⟨v, u, hm, hbody, hx, -⟩ | ⟨x, u, hm, hbody, hx, -, -, hmem⟩ <;>
      rw [hx] at h <;> cases h
    · exact raiseDirect_inv _ hs
    · have hr := hb.reaches hs hm
      rw [hbody] at hr
      exact finish_inv v hr.1
    · have hr := hb.reaches hs hm
      rw [hbody] at hr
      exact raisePipeline_inv (fun hx => hb.none_not_mem (hx ▸ hmem)) hr

/-! ## The moves -/

/-- An engine turn that answers leaves an idle HCORE alone, rejects the latched command, or runs an instruction. -/
theorem engineTurn_cases {s t : State} (h : engineTurn s = .next t) :
    t = s ∨ t = raiseDirect .illegalCommand s ∨ ∃ i, exec i s = .next t := by
  unfold engineTurn at h
  split at h
  · split at h
    · cases h
    · split at h
      · exact .inr (.inr ⟨_, h⟩)
      · cases h; exact .inr (.inl rfl)
  · cases h; exact .inl rfl

theorem engineTurn_inv {s t : State} (hs : s.Inv) (h : engineTurn s = .next t) : t.Inv := by
  rcases engineTurn_cases h with rfl | rfl | ⟨i, hi⟩
  · exact hs
  · exact raiseDirect_inv _ hs
  · exact exec_inv hs hi

theorem busRead_inv {s : State} (r : Reg) (h : s.Inv) : (busRead r s).Inv := by
  unfold busRead
  split <;> exact { h with }

/-- A command word is dropped, or latched as BUSY is set (20_memory.md R54). -/
theorem issue_inv {s : State} (v : Word) (h : s.Inv) : (issue v s).Inv := by
  unfold issue
  split
  · exact { h with }
  · exact { h with latched := nofun }

theorem busWrite_inv {s : State} (r : Reg) (v : Word) (h : s.Inv) : (busWrite r v s).Inv := by
  cases r with
  | cmd => exact issue_inv v h
  | arg => exact { h with }
  | status | result | bbLen | reserved => exact h

theorem resetState_inv {s : State} (h : s.cfg.Legal) : (resetState s).Inv :=
  State.Fits.inv_of_idle_or_failed ⟨h, Nat.zero_le _, Nat.zero_le _⟩ nofun (.inl ⟨rfl, rfl⟩)

theorem hardReset_inv {s : State} (k : Nat) (h : s.cfg.Legal) : (hardReset k s).Inv := by
  unfold hardReset
  split <;> exact resetState_inv h

theorem perform_inv {m : Move} {s t : State} (hs : s.Inv) (h : perform m s = .next t) : t.Inv := by
  cases m with
  | busRead addr n =>
    simp only [perform] at h
    split at h <;> cases h
    exact busRead_inv _ hs
  | busWrite addr n v =>
    simp only [perform] at h
    split at h <;> cases h
    exact busWrite_inv _ v hs
  | engine => exact engineTurn_inv hs h
  | reset k => cases h; exact hardReset_inv k hs.legal
  | attachSource c => cases h; exact { hs with }
  | attachSink => cases h; exact { hs with }

/-- Settles O52: a step is a move or the engine's turn, and each keeps the invariant. -/
theorem everyStepKeepsTheInvariant : Obligations.EveryStepKeepsTheInvariant := by
  intro s t hs h
  have hmoves (ms : List Move) : { s with moves := ms }.Inv := { hs with }
  unfold step performNext at h
  split at h
  · exact engineTurn_inv hs h
  · exact perform_inv (hmoves _) h

end Sys2Proof.Machine

/-! PROOFS. Family 10_state.md. What an instruction, an engine turn and a move leave alone, which commands may not start,
and the fields of the STATUS word; from these the statements about OPSTATE, the host side, the node store, STATUS and
reset. -/

namespace Sys2Proof.Machine

/-! ## A command that may not start (10_state.md R34) -/

theorem runDirect_of_not_mayStart {i : Instr} {s : State} (body : State → Res State Word)
    (h : mayStart i s.opstate = false) : runDirect i body s = .next (raiseDirect .sequenceError s) :=
  if_neg (by simp [h])

theorem runPipeline_of_not_mayStart {i : Instr} {s : State} (body : State → Res State Word)
    (h : mayStart i s.opstate = false) : runPipeline i body s = .next (raiseDirect .sequenceError s) :=
  if_neg (by simp [h])

/-- 30_encoding.md R80: the OPSTATE check comes before any effect of the instruction. -/
theorem exec_of_not_mayStart {i : Instr} {s : State} (h : mayStart i s.opstate = false) :
    exec i s = .next (raiseDirect .sequenceError s) := by
  cases i with
  | clear | bbClear | bbAppend | bbRemoveLast | bbGet | bbReadByte => cases h
  | freqRead => rw [exec, execFreqRead, runDirect_of_not_mayStart _ h]
  | cwLen => rw [exec, execCwLen, runDirect_of_not_mayStart _ h]
  | cwBit => rw [exec, execCwBit, runDirect_of_not_mayStart _ h]
  | _ => exact runPipeline_of_not_mayStart _ h

/-- Settles O7: what is left is that R34's complement, row by row, is where `mayStart` answers no. -/
theorem sequenceErrorOutsideTheListedStates : Obligations.SequenceErrorOutsideTheListedStates := by
  intro i s h
  refine exec_of_not_mayStart ?_
  generalize s.opstate = o at h ⊢
  cases i with
  | clear | bbClear | bbAppend | bbRemoveLast | bbGet | bbReadByte => exact h.elim
  | freqRead | cwLen | cwBit => cases o <;> simp at h <;> rfl
  | _ => exact beq_false_of_ne h

/-! ## How a pipeline command ends (60_exceptions.md R152 to R155) -/

/-- Settles O42: the three outcomes of a pipeline command, whose errors are never the code 0. -/
theorem pipelineCommandSucceedsOrAborts : Obligations.PipelineCommandSucceedsOrAborts := by
  intro i s t after hi h
  obtain ⟨b, e, n, hb⟩ : ∃ b e n, Pipeline i b e n after := by
    simp only [List.mem_cons, Prod.mk.injEq, List.not_mem_nil, or_false] at hi
    rcases hi with ⟨rfl, rfl⟩ | ⟨rfl, rfl⟩ | ⟨rfl, rfl⟩ | ⟨rfl, rfl⟩ | ⟨rfl, rfl⟩ | ⟨rfl, rfl⟩ | ⟨rfl, rfl⟩ | ⟨rfl, rfl⟩ |
      ⟨rfl, rfl⟩ | ⟨rfl, rfl⟩ | ⟨rfl, rfl⟩ <;> exact ⟨_, _, _, by constructor⟩
  rcases hb.outcome s with ⟨-, hx⟩ | ⟨v, u, -, -, hx, hh, ho, -⟩ | ⟨x, u, -, -, hx, hh, -, hmem⟩ <;>
    rw [hx] at h <;> cases h
  · exact .inl rfl
  · exact .inr (.inr ⟨rfl, ho, hh.operr⟩)
  · exact .inr (.inl ⟨fun hx : x = .none => hb.none_not_mem (hx ▸ hmem), rfl, rfl, rfl⟩)

/-! ## The host side (10_state.md R19, R47) -/

/-- Settles O45: a direct command writes at most the bit buffer or is CLEAR, a body of a pipeline command leaves the host
side alone, and so do the ways a command ends. -/
theorem commandsLeaveTheHostSideAlone : Obligations.CommandsLeaveTheHostSideAlone := by
  intro i s t h
  rcases instr_kinds i with hd | ⟨b, e, n, o, hb⟩
  · rcases direct_outcome i hd s with ⟨x, hx, -⟩ | ⟨v, q, hx, -⟩ | ⟨hi, hx⟩ <;> rw [hx] at h <;> cases h
    · exact ⟨rfl, rfl, rfl, rfl, rfl, rfl, rfl, fun _ => rfl⟩
    · exact ⟨rfl, rfl, rfl, rfl, rfl, rfl, rfl, fun _ => rfl⟩
    · exact ⟨rfl, rfl, rfl, rfl, rfl, rfl, rfl, fun hne => absurd hi hne⟩
  · rcases hb.outcome s with ⟨-, hx⟩ | ⟨v, u, -, -, hx, hh, -⟩ | ⟨x, u, -, -, hx, hh, -⟩ <;> rw [hx] at h <;> cases h
    · exact ⟨rfl, rfl, rfl, rfl, rfl, rfl, rfl, fun _ => rfl⟩
    · exact ⟨hh.cfg, hh.arg, hh.latch, hh.moves, hh.busData, hh.busyReads, rfl, fun _ => hh.overrun⟩
    · exact ⟨hh.cfg, hh.arg, hh.latch, hh.moves, hh.busData, hh.busyReads, rfl, fun _ => hh.overrun⟩

/-! ## The node store (10_state.md R41) -/

/-- The commands that write the node store. -/
abbrev IsBuilder (i : Instr) : Prop := i ∈ [Instr.eBuild, .dHeader, .encode, .decode]

/-- The node store of `t` is that of `s`. -/
abbrev SameNodeStore (s t : State) : Prop := t.root = s.root ∧ t.nodeCount = s.nodeCount

/-- A body keeps the node store of `s`, whether it ends well or raises. -/
def Res.KeepsNodeStore (s : State) (r : Res State Word) : Prop :=
  match r with
  | .ok _ t => SameNodeStore s t
  | .raise _ t => SameNodeStore s t
  | .stuck => True

theorem Pipeline.keepsNodeStore {i : Instr} {b : State → Res State Word} {e : List ErrCode} {n : Nat} {o : OpState}
    (h : Pipeline i b e n o) (hi : ¬ IsBuilder i) (s : State) : (b s).KeepsNodeStore s := by
  cases h
  case eBuild | dHeader | encode | decode => exact absurd (by decide) hi
  case eCount => rcases bodyECount_cases s with ⟨_, _, _, h, -⟩ | ⟨_, _, _, h⟩ <;> rw [h] <;> exact ⟨rfl, rfl⟩
  case eTable => rw [bodyETable_eq]; exact ⟨rfl, rfl⟩
  case eHeader => rcases bodyEHeader_cases s with ⟨_, _, h, -⟩ | ⟨_, h, -⟩ <;> rw [h] <;> exact ⟨rfl, rfl⟩
  case ePayload => rcases bodyEPayload_cases s with ⟨_, _, _, h, -⟩ | ⟨_, _, _, h, -⟩ <;> rw [h] <;> exact ⟨rfl, rfl⟩
  case eFlush => rcases bodyEFlush_cases s with ⟨_, _, h⟩ | ⟨_, _, h⟩ <;> rw [h] <;> exact ⟨rfl, rfl⟩
  case dPayload => rcases bodyDPayload_cases s with ⟨_, _, _, _, h⟩ | ⟨_, _, _, _, h⟩ <;> rw [h] <;> exact ⟨rfl, rfl⟩
  case dFinish => rcases bodyDFinish_cases s with ⟨_, h⟩ | ⟨_, h⟩ <;> rw [h] <;> exact ⟨rfl, rfl⟩

theorem exec_keepsNodeStore {i : Instr} {s t : State} (hi : ¬ IsBuilder i) (h : exec i s = .next t) :
    SameNodeStore s t := by
  rcases instr_kinds i with hd | ⟨b, e, n, o, hb⟩
  · rcases direct_outcome i hd s with ⟨x, hx, -⟩ | ⟨v, q, hx, -⟩ | ⟨-, hx⟩ <;> rw [hx] at h <;> cases h <;>
      exact ⟨rfl, rfl⟩
  · have hk := hb.keepsNodeStore hi s
    rcases hb.outcome s with ⟨-, hx⟩ | ⟨v, u, -, hbody, hx, -⟩ | ⟨x, u, -, hbody, hx, -⟩ <;> rw [hx] at h <;> cases h
    · exact ⟨rfl, rfl⟩
    · rw [hbody] at hk; exact hk
    · rw [hbody] at hk; exact hk

/-- `engineTurn_cases` with the command that is run: it is latched, and the decoder has accepted it. -/
theorem engineTurn_latched_cases {s t : State} (h : engineTurn s = .next t) :
    t = s ∨ t = raiseDirect .illegalCommand s ∨
      (s.busy = true ∧ ∃ c i, s.latch = some c ∧ decode c = .instr i ∧ exec i s = .next t) := by
  unfold engineTurn at h
  split at h
  case isTrue hbusy =>
    split at h
    · cases h
    · split at h
      · exact .inr (.inr ⟨hbusy, _, _, ‹_›, ‹_›, h⟩)
      · cases h; exact .inr (.inl rfl)
  case isFalse => cases h; exact .inl rfl

theorem engineTurn_nodeStore {s t : State} (h : engineTurn s = .next t) :
    SameNodeStore s t ∨ (s.busy = true ∧ ∃ c i, s.latch = some c ∧ decode c = .instr i ∧ IsBuilder i) := by
  rcases engineTurn_latched_cases h with rfl | rfl | ⟨hbusy, c, i, hc, hd, hx⟩
  · exact .inl ⟨rfl, rfl⟩
  · exact .inl ⟨rfl, rfl⟩
  · by_cases hi : IsBuilder i
    · exact .inr ⟨hbusy, c, i, hc, hd, hi⟩
    · exact .inl (exec_keepsNodeStore hi hx)

theorem busRead_keepsNodeStore (r : Reg) (s : State) : SameNodeStore s (busRead r s) := by
  unfold busRead
  split <;> exact ⟨rfl, rfl⟩

theorem busWrite_keepsNodeStore (r : Reg) (v : Word) (s : State) : SameNodeStore s (busWrite r v s) := by
  cases r with
  | cmd => simp only [busWrite, issue]; split <;> exact ⟨rfl, rfl⟩
  | _ => exact ⟨rfl, rfl⟩

theorem perform_keepsNodeStore {m : Move} {s t : State} (he : m ≠ .engine) (hr : ∀ k, m ≠ .reset k)
    (h : perform m s = .next t) : SameNodeStore s t := by
  cases m with
  | busRead addr n =>
    simp only [perform] at h
    split at h <;> cases h
    exact busRead_keepsNodeStore _ s
  | busWrite addr n v =>
    simp only [perform] at h
    split at h <;> cases h
    exact busWrite_keepsNodeStore _ v s
  | engine => exact absurd rfl he
  | reset k => exact absurd rfl (hr k)
  | attachSource c => cases h; exact ⟨rfl, rfl⟩
  | attachSink => cases h; exact ⟨rfl, rfl⟩

/-- Settles O49: no move but reset and the engine's turn writes the node store, and the engine's turn only by a command
that builds. -/
theorem onlyBuildersAndResetWriteTheNodeStore : Obligations.OnlyBuildersAndResetWriteTheNodeStore := by
  intro s t h
  unfold step performNext at h
  split at h
  case h_1 hm => exact (engineTurn_nodeStore h).imp_right fun ⟨hb, hc⟩ => .inr ⟨hb, .inl hm, hc⟩
  case h_2 m ms hm =>
    by_cases he : m = .engine
    · subst he
      exact (engineTurn_nodeStore h).imp_right fun ⟨hb, hc⟩ => .inr ⟨hb, .inr ⟨ms, hm⟩, hc⟩
    by_cases hr : ∃ k, m = .reset k
    · obtain ⟨k, rfl⟩ := hr
      exact .inr (.inl ⟨k, ms, hm⟩)
    · exact .inl (perform_keepsNodeStore (s := { s with moves := ms }) he (not_exists.mp hr) h)

/-! ## The reset state (10_state.md R48) -/

/-- Settles O53: the reset state is what the reset input makes of itself, and its parameters are legal. -/
theorem resetSatisfiesTheInvariant : Obligations.ResetSatisfiesTheInvariant :=
  resetState_inv (s := State.reset) (by decide)

/-- Settles O59: the queries of the tables may not start in IDLE, and an empty bit buffer has no bit and no byte. -/
theorem resetLeavesTheRegistersZero : Obligations.ResetLeavesTheRegistersZero := by
  refine ⟨rfl, rfl, rfl, rfl, rfl, rfl, rfl, rfl, rfl, by decide, ?_, ?_⟩
  · rintro _ (⟨v, rfl⟩ | ⟨n, rfl⟩ | ⟨n, k, rfl⟩) <;> exact exec_of_not_mayStart rfl
  · rintro _ (⟨n, rfl⟩ | ⟨n, rfl⟩)
    · rfl
    · rfl

/-! ## The fields of STATUS (10_state.md R20 to R27) -/

section
variable (busy overrun : Bool) (errcode opstate operr : BitVec 4)

/-- 10_state.md R20: the bits of STATUS, from bit 0 up. -/
theorem getLsbD_statusOf (i : Nat) : (statusOf busy overrun errcode opstate operr).getLsbD i =
    if i = 0 then busy else if i = 1 then errcode != 0#4 else if i = 2 then overrun else if i = 3 then false
    else if i < 8 then errcode.getLsbD (i - 4) else if i < 12 then opstate.getLsbD (i - 8)
    else if i < 16 then operr.getLsbD (i - 12) else false := by
  refine BitVec.getLsbD_append.trans ?_
  simp only [BitVec.getLsbD_append, BitVec.getLsbD_ofBool, BitVec.getLsbD_zero]
  rcases i with _ | _ | _ | _ | i
  case succ => grind
  all_goals simp

/-- 10_state.md R23 to R27: ERRCODE, OPSTATE, OPERR and the reserved upper half. -/
theorem extractLsb'_statusOf :
    (statusOf busy overrun errcode opstate operr).extractLsb' 4 4 = errcode ∧
    (statusOf busy overrun errcode opstate operr).extractLsb' 8 4 = opstate ∧
    (statusOf busy overrun errcode opstate operr).extractLsb' 12 4 = operr ∧
    (statusOf busy overrun errcode opstate operr).extractLsb' 16 16 = 0#16 := by
  refine ⟨?_, ?_, ?_, ?_⟩
  all_goals
    ext i hi
    rw [BitVec.getElem_extractLsb', getLsbD_statusOf]
    grind

end

/-- 10_state.md R22: ERR is 1 exactly if ERRCODE is not 0. -/
theorem ErrCode.code_ne_zero (e : ErrCode) : e.code ≠ 0#4 ↔ e ≠ .none := by
  cases e <;> decide

/-- Settles O54: each field of STATUS is the one it is built from, and the numbers are those of R33 and R157. -/
theorem statusHoldsItsFields : Obligations.StatusHoldsItsFields := by
  intro s
  have hbit := getLsbD_statusOf s.busy s.overrun s.errcode.code s.opstate.code s.operr.code
  obtain ⟨herrcode, hopstate, hoperr, hreserved⟩ :=
    extractLsb'_statusOf s.busy s.overrun s.errcode.code s.opstate.code s.operr.code
  refine ⟨hbit 0, ?_, hbit 2, hbit 3, hreserved, ?_, ?_, ?_⟩ <;> unfold State.status
  · rw [hbit, ← ErrCode.code_ne_zero]
    exact bne_iff_ne
  · rw [herrcode]; cases s.errcode <;> decide
  · rw [hopstate]; cases s.opstate <;> decide
  · rw [hoperr]; cases s.operr <;> decide

/-! ## Reads of the register block (10_state.md R30, 20_memory.md R50 to R52) -/

/-- 20_memory.md R50: a word access at a word offset of the block goes to the register there. -/
theorem busTarget_block {base off : Nat} (h : off < 256) (h4 : off % 4 = 0) (hb : base % 256 = 0) :
    busTarget base (base + off) 4 = .reg (regAt off) := by
  have ha : (base + off) % 4 = 0 := by omega
  simp [busTarget, ha, h]

theorem regAt_reserved {off : Nat} (h : 0x14 ≤ off) : regAt off = .reserved := by
  unfold regAt
  split
  case h_6 => rfl
  all_goals omega

/-- 10_state.md R30: a host read while BUSY = 1 draws a free value and changes nothing but the model's own fields. -/
theorem step_busRead_busy {s : State} {ms : List Move} {off : Nat} (hbusy : s.busy = true) (h : off < 256)
    (h4 : off % 4 = 0) (hb : s.cfg.base % 256 = 0) (hm : s.moves = .busRead (s.cfg.base + off) 4 :: ms) :
    step s = .next { s with
      moves := ms
      busData := readRegBusy s (Config.busyRead s.busyReads) (regAt off)
      busyReads := s.busyReads + 1 } := by
  simp only [step, performNext, hm, perform, busTarget_block h h4 hb, busRead, hbusy, if_true]
  cases regAt off <;> rfl

/-- Settles O56: the value read is `readRegBusy`'s, and STATUS takes only ERRCODE, OPSTATE and OPERR from the free one. -/
theorem busyReadShowsBusyAndOverrun : Obligations.BusyReadShowsBusyAndOverrun := by
  intro s ms off hbusy h h4 hb hm
  refine ⟨_, step_busRead_busy hbusy h h4 hb hm, ?_, ?_, ?_⟩
  · rintro rfl
    obtain ⟨-, -, -, hreserved⟩ := extractLsb'_statusOf true s.overrun _ _ _
    exact ⟨getLsbD_statusOf _ _ _ _ _ 0, getLsbD_statusOf _ _ _ _ _ 2, getLsbD_statusOf _ _ _ _ _ 3, hreserved⟩
  · rintro rfl
    rfl
  · rintro (rfl | ho)
    · rfl
    · rw [regAt_reserved ho]
      rfl

end Sys2Proof.Machine

/-! PROOFS. Family 20_memory.md. The refused bus accesses, what an accepted one does at each offset of the block, the
engine's turn at a decoded command, and what a command as a whole does to the devices, by the error it ends with. -/

namespace Sys2Proof.Machine

/-! ## Refused accesses (20_memory.md R51) -/

theorem busTarget_of_width {n : Nat} (base addr : Nat) (hn : n ≠ 4) : busTarget base addr n = .refused .accessWidth :=
  if_pos hn

theorem busTarget_of_misaligned {addr : Nat} (base : Nat) (ha : addr % 4 ≠ 0) :
    busTarget base addr 4 = .refused .misalignedAccess := by
  simp [busTarget, ha]

/-- A read and a write are refused alike, by the reason `busTarget` gives. -/
theorem step_access_refused {s : State} {ms : List Move} {addr n : Nat} {v : Word} {e : Refusal}
    (hm : s.moves = .busRead addr n :: ms ∨ s.moves = .busWrite addr n v :: ms)
    (ht : busTarget s.cfg.base addr n = .refused e) : step s = .refused e := by
  rcases hm with hm | hm <;> simp only [step, performNext, hm, perform, ht]

/-- Settles O58: the width is checked before the alignment. -/
theorem narrowOrMisalignedAccessIsRefused : Obligations.NarrowOrMisalignedAccessIsRefused := by
  intro s ms addr n v hm
  refine ⟨fun hn => step_access_refused hm (busTarget_of_width _ _ hn), ?_⟩
  rintro rfl ha
  exact step_access_refused hm (busTarget_of_misaligned _ ha)

/-! ## Reads and writes of the register block (20_memory.md R50 to R54) -/

/-- 10_state.md R18 to R29: what a read while BUSY = 0 returns, offset by offset. -/
theorem readReg_regAt (s : State) (off : Nat) : readReg s (regAt off) =
    if off = 0x04 then s.arg else if off = 0x08 then s.status else if off = 0x0C then s.result
    else if off = 0x10 then s.bbLenWord else 0#32 := by
  unfold regAt
  split
  case h_6 _ h04 h08 h0C h10 => rw [if_neg h04, if_neg h08, if_neg h0C, if_neg h10]; rfl
  all_goals rfl

/-- 20_memory.md R52: a write reaches CMD and ARG only. -/
theorem busWrite_regAt (v : Word) (s : State) (off : Nat) : busWrite (regAt off) v s =
    if off = 0x00 then issue v s else if off = 0x04 then { s with arg := v } else s := by
  unfold regAt
  split
  case h_6 h00 h04 _ _ _ => rw [if_neg h00, if_neg h04]; rfl
  all_goals rfl

section
variable {s : State} {ms : List Move} {off : Nat} (h : off < 256) (h4 : off % 4 = 0) (hb : s.cfg.base % 256 = 0)
include h h4 hb

theorem step_busRead (hm : s.moves = .busRead (s.cfg.base + off) 4 :: ms) :
    step s = .next (busRead (regAt off) { s with moves := ms }) := by
  simp only [step, performNext, hm, perform, busTarget_block h h4 hb]

theorem step_busWrite {v : Word} (hm : s.moves = .busWrite (s.cfg.base + off) 4 v :: ms) :
    step s = .next (busWrite (regAt off) v { s with moves := ms }) := by
  simp only [step, performNext, hm, perform, busTarget_block h h4 hb]

end

/-- Settles O55: no register that can be read depends on the moves still to come. -/
theorem idleReadReturnsTheRegister : Obligations.IdleReadReturnsTheRegister := by
  intro s ms off hbusy h h4 hb hm
  rw [step_busRead h h4 hb hm, busRead, if_neg (by simp [hbusy]), readReg_regAt]
  rfl

/-- Settles O57: the branches of `busWrite_regAt`, with those of `issue`. -/
theorem writeIssuesSetsOrIsIgnored : Obligations.WriteIssuesSetsOrIsIgnored := by
  intro s ms off v h h4 hb hm
  rw [step_busWrite h h4 hb hm, busWrite_regAt]
  rfl

/-! ## The engine's turn (20_memory.md R55) -/

theorem engineTurn_of_decoded {s : State} {c : Command} {i : Instr} (hbusy : s.busy = true) (hc : s.latch = some c)
    (hd : decode c = .instr i) : engineTurn s = exec i s := by
  simp [engineTurn, hbusy, hc, hd]

/-- Settles O5: the engine's turn comes by a move or for want of one, and both latch and BUSY are the same then. -/
theorem stepRunsTheDecodedInstruction : Obligations.StepRunsTheDecodedInstruction := by
  intro s c i hbusy hc hd
  refine ⟨fun ms hm => ?_, fun hm => ?_⟩ <;> simp only [step, performNext, hm, perform]
  · exact engineTurn_of_decoded hbusy hc hd
  · exact engineTurn_of_decoded hbusy hc hd

/-! ## The devices over a whole command (20_memory.md R73, R75 to R77) -/

/-- The commands that flush the sink as they end well. -/
abbrev IsFlusher (i : Instr) : Prop := i ∈ [Instr.eFlush, .encode, .dFinish, .decode]

theorem IsDirect.not_isFlusher {i : Instr} (h : IsDirect i) : ¬ IsFlusher i := by
  intro hf
  simp only [List.mem_cons, List.not_mem_nil, or_false] at hf
  rcases hf with rfl | rfl | rfl | rfl <;> simp [IsDirect] at h

theorem Pipeline.flushes_eq {i : Instr} {b : State → Res State Word} {e : List ErrCode} {n : Nat} {o : OpState}
    (h : Pipeline i b e n o) : n = if IsFlusher i then 1 else 0 := by
  cases h <;> rfl

/-- `exec_ran` with what the calls have to do with the error code: the newest failed exactly if it is IO_ERROR, and one of
them flushed the sink exactly if a command that flushes ended with none. -/
theorem exec_ran_errcode {i : Instr} {s t : State} (h : exec i s = .next t) :
    s.dev.Ran t.dev (t.errcode == .ioError) (if IsFlusher i ∧ t.errcode = .none then 1 else 0) := by
  rcases instr_kinds i with hd | ⟨b, e, n, o, hb⟩
  · rw [if_neg (fun hf => hd.not_isFlusher hf.1)]
    rcases direct_outcome i hd s with ⟨x, hx, -, hio, -⟩ | ⟨v, q, hx, -⟩ | ⟨-, hx⟩ <;> rw [hx] at h <;> cases h
    · rw [raiseDirect_errcode, beq_false_of_ne hio]
      exact Devices.Ran.refl _
    · exact Devices.Ran.refl _
    · exact Devices.Ran.refl _
  · rcases hb.outcome s with ⟨-, hx⟩ | ⟨v, u, -, -, hx, -, -, hr⟩ | ⟨x, u, -, -, hx, -, hr, hmem⟩ <;> rw [hx] at h <;>
      cases h
    · rw [if_neg (nomatch ·.2)]
      exact Devices.Ran.refl _
    · simp only [finish_errcode, and_true, ← hb.flushes_eq]
      exact hr
    · have hne : x ≠ .none := fun hx => hb.none_not_mem (hx ▸ hmem)
      simpa [hne] using hr

/-- Settles O44: `exec_ran_errcode`, of which the list of calls is read off. -/
theorem ioErrorExactlyAfterAFailedCall : Obligations.IoErrorExactlyAfterAFailedCall := by
  intro i s t h
  simpa only [beq_iff_eq] using (exec_ran_errcode h).calls

/-- Settles O51: `exec_ran_errcode`, of which the bytes and the flushes of the sink are read off. -/
theorem sinkOnlyGrowsAndIsFlushedOncePerOperation : Obligations.SinkOnlyGrowsAndIsFlushedOncePerOperation :=
  fun _ _ _ h => ⟨(exec_ran_errcode h).sink, (exec_ran_errcode h).flushes⟩

end Sys2Proof.Machine

/-! PROOFS. Family 30_encoding.md. The mask of a field and the words made of fields, what the opcode map reads from a
command, the decoder against the three checks and against the encoder, and the codewords of one tree. -/

namespace Sys2Proof

/-! ## Fields of a word (00_scope.md R9) -/

/-- The word whose ones are the bits of a field. -/
def fieldMask (lo n : Nat) : Word := (BitVec.allOnes n).setWidth 32 <<< lo

theorem getLsbD_fieldMask (lo n i : Nat) :
    (fieldMask lo n).getLsbD i = decide (i < 32 ∧ lo ≤ i ∧ i < lo + n) := by
  rw [Bool.eq_iff_iff]
  grind [fieldMask]

/-- A field is 0 exactly if each of its bits is, counted in the word. -/
theorem field_eq_zero_iff_getLsbD (v : Word) (lo n : Nat) :
    field v lo n = 0#n ↔ ∀ i, lo ≤ i → i < lo + n → v.getLsbD i = false := by
  rw [BitVec.eq_of_getLsbD_eq_iff]
  constructor
  · intro h i hlo hi
    have := h (i - lo)
    grind
  · intro h i hi
    have := h (lo + i)
    grind

/-- A field is 0 exactly if the word has no bit under the field's mask. -/
theorem field_eq_zero_iff (v : Word) (lo n : Nat) : field v lo n = 0#n ↔ v &&& fieldMask lo n = 0#32 := by
  rw [field_eq_zero_iff_getLsbD, BitVec.eq_of_getLsbD_eq_iff]
  grind [getLsbD_fieldMask]

theorem field_beq_zero (v : Word) (lo n : Nat) : (field v lo n == 0#n) = (v &&& fieldMask lo n == 0#32) := by
  rw [Bool.eq_iff_iff, beq_iff_eq, beq_iff_eq, field_eq_zero_iff]

/-- A word whose field above the low `n` bits is 0 is the zero extension of those bits. -/
theorem setWidth_field {v : Word} {n m : Nat} (hw : n + m = 32) (h : field v n m = 0#m) :
    (field v 0 n).setWidth 32 = v := by
  rw [field_eq_zero_iff_getLsbD] at h
  ext i hi
  grind

theorem field_setWidth {n : Nat} (s : BitVec n) (h : n ≤ 32) : field (s.setWidth 32) 0 n = s := by
  ext i hi
  grind

theorem field_setWidth_above {n : Nat} (s : BitVec n) (m : Nat) : field (s.setWidth 32) n m = 0#m := by
  ext i hi
  simp

theorem getLsbD_cwBit_argWord (s : BitVec 9) (k : Byte) (i : Nat) :
    (Instr.cwBit s k).argWord.getLsbD i = (s.getLsbD i || (decide (16 ≤ i) && k.getLsbD (i - 16))) := by
  rw [Bool.eq_iff_iff]
  grind [Instr.argWord]

/-- 30_encoding.md R86: the fields of CW_BIT's operand word. -/
theorem field_cwBit_argWord (s : BitVec 9) (k : Byte) :
    field (Instr.cwBit s k).argWord 0 9 = s ∧ field (Instr.cwBit s k).argWord 9 7 = 0#7 ∧
    field (Instr.cwBit s k).argWord 16 8 = k ∧ field (Instr.cwBit s k).argWord 24 8 = 0#8 := by
  refine ⟨?_, ?_, ?_, ?_⟩ <;> ext i hi <;> grind [getLsbD_cwBit_argWord]

/-- 30_encoding.md R86: a word whose reserved fields are 0 is made of the two fields CW_BIT takes out of it. -/
theorem cwBit_argWord_field {a : Word} (h9 : field a 9 7 = 0#7) (h24 : field a 24 8 = 0#8) :
    (Instr.cwBit (field a 0 9) (field a 16 8)).argWord = a := by
  rw [field_eq_zero_iff_getLsbD] at h9 h24
  apply BitVec.eq_of_getLsbD_eq
  grind [getLsbD_cwBit_argWord]

/-- 30_encoding.md R82: a word whose reserved field is 0 is bit 0 of it. -/
theorem bbAppend_argWord_field {a : Word} (h : field a 1 31 = 0#31) : (Instr.bbAppend (a.getLsbD 0)).argWord = a := by
  conv_rhs => rw [← setWidth_field rfl h]
  ext i hi
  grind [Instr.argWord]

/-! ## The checks of 30_encoding.md R80, each as the decoder makes it -/

theorem Command.wordOk_eq (c : Command) : c.wordOk = (field c.word 8 24 == 0#24) :=
  (field_beq_zero c.word 8 24).symm

theorem Command.op_toNat (c : Command) : c.op.toNat = (c.word &&& 0x000000FF#32).toNat := by
  rw [BitVec.toNat_and]
  exact (BitVec.extractLsb'_toNat _ _ _).trans (Nat.and_two_pow_sub_one_eq_mod _ 8).symm

theorem Command.opcodeOk_eq (c : Command) : c.opcodeOk = (formatOf c.op.toNat).isSome := by
  rw [Command.op_toNat]; rfl

theorem Command.argOk_eq {c : Command} {f : Format} (h : formatOf c.op.toNat = some f) :
    c.argOk = (c.arg &&& f.reserved == 0#32) := by
  rw [Command.op_toNat] at h
  simp only [Command.argOk, h]

theorem symidx_reserved_beq_zero (a : Word) :
    (field a 9 7 == 0#7 && field a 24 8 == 0#8) = (a &&& Format.symidx.reserved == 0#32) := by
  have hmask : Format.symidx.reserved = fieldMask 9 7 ||| fieldMask 24 8 := by decide
  rw [Bool.eq_iff_iff, hmask, field_beq_zero, field_beq_zero, BitVec.and_or_distrib_left]
  simp

/-! ## The opcode map (30_encoding.md R81 to R88) -/

/-- The opcode `op` is a row of the map, and its command with the operand word `a` is `i`, if the reserved bits of `a`
allow it. -/
structure OpcodeRow (op : Nat) (a : Word) (f : Format) (i : Instr) : Prop where
  format : formatOf op = some f
  decodes : decodeOpcode op a = ifArgOk (a &&& f.reserved == 0#32) i
  opcode : i.opcode.toNat = op
  argWord : f ≠ .none → a &&& f.reserved = 0#32 → i.argWord = a

/-- A format that reserves no bit lets every operand word pass. -/
theorem OpcodeRow.of_unreserved {op : Nat} {a : Word} {f : Format} {i : Instr} (hr : f.reserved = 0#32)
    (hf : formatOf op = some f) (hd : decodeOpcode op a = .instr i) (ho : i.opcode.toNat = op)
    (ha : f ≠ .none → i.argWord = a) : OpcodeRow op a f i where
  format := hf
  decodes := by simp [hd, hr, ifArgOk]
  opcode := ho
  argWord h _ := ha h

theorem opcodeRow_bbAppend (a : Word) : OpcodeRow 0x11 a .bit (.bbAppend (a.getLsbD 0)) where
  format := rfl
  decodes := congrArg (ifArgOk · _) (field_beq_zero a 1 31)
  opcode := rfl
  argWord _ h := bbAppend_argWord_field ((field_eq_zero_iff a 1 31).mpr h)

theorem opcodeRow_freqRead (a : Word) : OpcodeRow 0x40 a .byte (.freqRead (field a 0 8)) where
  format := rfl
  decodes := congrArg (ifArgOk · _) (field_beq_zero a 8 24)
  opcode := rfl
  argWord _ h := setWidth_field rfl ((field_eq_zero_iff a 8 24).mpr h)

theorem opcodeRow_cwLen (a : Word) : OpcodeRow 0x41 a .sym (.cwLen (field a 0 9)) where
  format := rfl
  decodes := congrArg (ifArgOk · _) (field_beq_zero a 9 23)
  opcode := rfl
  argWord _ h := setWidth_field rfl ((field_eq_zero_iff a 9 23).mpr h)

theorem opcodeRow_cwBit (a : Word) : OpcodeRow 0x42 a .symidx (.cwBit (field a 0 9) (field a 16 8)) where
  format := rfl
  decodes := congrArg (ifArgOk · _) (symidx_reserved_beq_zero a)
  opcode := rfl
  argWord _ h := by
    rw [← beq_iff_eq, ← symidx_reserved_beq_zero, Bool.and_eq_true, beq_iff_eq, beq_iff_eq] at h
    obtain ⟨h9, h24⟩ := h
    exact cwBit_argWord_field h9 h24

/-- What the opcode map answers: an unlisted opcode is unknown, a listed one is read as its row says. -/
theorem decodeOpcode_cases (op : Nat) (a : Word) :
    (formatOf op = none ∧ decodeOpcode op a = .reject .unknownOpcode) ∨ ∃ f i, OpcodeRow op a f i := by
  cases hf : formatOf op with
  | none =>
    refine .inl ⟨rfl, ?_⟩
    unfold formatOf at hf
    split at hf
    case h_21 => simp [decodeOpcode, *]
    all_goals cases hf
  | some f =>
    refine .inr ⟨f, ?_⟩
    unfold formatOf at hf
    split at hf <;> cases hf
    case h_3 => exact ⟨_, opcodeRow_bbAppend a⟩
    case h_5 => exact ⟨.bbGet a, .of_unreserved rfl rfl rfl rfl fun _ => rfl⟩
    case h_6 => exact ⟨.bbReadByte a, .of_unreserved rfl rfl rfl rfl fun _ => rfl⟩
    case h_18 => exact ⟨_, opcodeRow_freqRead a⟩
    case h_19 => exact ⟨_, opcodeRow_cwLen a⟩
    case h_20 => exact ⟨_, opcodeRow_cwBit a⟩
    all_goals exact ⟨_, .of_unreserved rfl rfl rfl rfl (absurd rfl ·)⟩

/-! ## The decoder against the checks (30_encoding.md R80, R88) -/

theorem decode_of_not_wordOk {c : Command} (h : c.wordOk = false) : decode c = .reject .reservedWordBits := by
  rw [Command.wordOk_eq, beq_eq_false_iff_ne] at h
  exact if_neg h

theorem decode_of_wordOk {c : Command} (h : c.wordOk = true) : decode c = decodeOpcode c.op.toNat c.arg := by
  rw [Command.wordOk_eq, beq_iff_eq] at h
  exact if_pos h

/-- The answer of the decoder is that of the first check of R80 that fails, or the instruction if none does. -/
theorem decode_cases (c : Command) :
    (c.wordOk = false ∧ decode c = .reject .reservedWordBits) ∨
    (c.wordOk = true ∧ c.opcodeOk = false ∧ decode c = .reject .unknownOpcode) ∨
    (c.wordOk = true ∧ c.opcodeOk = true ∧ ∃ f i, OpcodeRow c.op.toNat c.arg f i ∧ decode c = ifArgOk c.argOk i) := by
  cases hw : c.wordOk with
  | false => exact .inl ⟨rfl, decode_of_not_wordOk hw⟩
  | true =>
    rw [decode_of_wordOk hw, Command.opcodeOk_eq]
    rcases decodeOpcode_cases c.op.toNat c.arg with ⟨hf, hd⟩ | ⟨f, i, hi⟩
    · exact .inr (.inl ⟨rfl, by rw [hf]; rfl, hd⟩)
    · exact .inr (.inr ⟨rfl, by rw [hi.format]; rfl, f, i, hi, by rw [hi.decodes, Command.argOk_eq hi.format]⟩)

/-- Settles O3: the cases of `decode_cases`, the last one split by the third check. -/
theorem decoderRejectsByTheFirstFailingCheck : Obligations.DecoderRejectsByTheFirstFailingCheck := by
  intro c
  rcases decode_cases c with ⟨hw, hd⟩ | ⟨hw, ho, hd⟩ | ⟨hw, ho, f, i, -, hd⟩
  · simp [Command.wellFormed, hd, hw]
  · simp [Command.wellFormed, hd, hw, ho]
  · cases ha : c.argOk <;> simp [Command.wellFormed, ifArgOk, hd, hw, ho, ha]

theorem decode_isInstr_iff (c : Command) : (∃ i, decode c = .instr i) ↔ c.wellFormed = true :=
  (decoderRejectsByTheFirstFailingCheck c).1

/-! ## The decoder against the encoder (30_encoding.md R79, R87) -/

/-- 30_encoding.md R87: a word `zext_32(OPC)` is decoded by the opcode map. -/
theorem decode_setWidth (op : Byte) (a : Word) : decode ⟨op.setWidth 32, a⟩ = decodeOpcode op.toNat a := by
  have hop : Command.op ⟨op.setWidth 32, a⟩ = op := field_setWidth op (by decide)
  rw [decode, if_pos (field_setWidth_above op 24), hop]

theorem decodeOpcode_opcode (i : Instr) : decodeOpcode i.opcode.toNat i.argWord = .instr i := by
  cases i with
  | bbAppend b => cases b <;> rfl
  | freqRead s =>
    change ifArgOk (field (s.setWidth 32) 8 24 == 0#24) (.freqRead (field (s.setWidth 32) 0 8)) = _
    rw [field_setWidth_above, field_setWidth s (by decide)]
    rfl
  | cwLen s =>
    change ifArgOk (field (s.setWidth 32) 9 23 == 0#23) (.cwLen (field (s.setWidth 32) 0 9)) = _
    rw [field_setWidth_above, field_setWidth s (by decide)]
    rfl
  | cwBit s k =>
    obtain ⟨hs, h9, hk, h24⟩ := field_cwBit_argWord s k
    generalize (Instr.cwBit s k).argWord = a at hs h9 hk h24 ⊢
    change ifArgOk (field a 9 7 == 0#7 && field a 24 8 == 0#8) (.cwBit (field a 0 9) (field a 16 8)) = _
    rw [hs, h9, hk, h24]
    rfl
  | _ => rfl

theorem decode_encode (i : Instr) : decode (encode i) = .instr i :=
  (decode_setWidth i.opcode i.argWord).trans (decodeOpcode_opcode i)

/-- Settles O2: an instruction is what the opcode map reads from its opcode and operand word, and what decodes is
well-formed. -/
theorem everyInstructionDecodesFromItsEncoding : Obligations.EveryInstructionDecodesFromItsEncoding :=
  fun i => ⟨decode_encode i, (decode_isInstr_iff _).mp ⟨i, decode_encode i⟩⟩

theorem eq_of_ifArgOk_eq_instr {ok : Bool} {i j : Instr} (h : ifArgOk ok i = .instr j) : ok = true ∧ i = j := by
  cases ok with
  | false => cases h
  | true => cases h; exact ⟨rfl, rfl⟩

/-- Settles O4: the row of the opcode map that was read fixes the opcode and the bits of the operand word. -/
theorem decodedCommandEncodesBackToItself : Obligations.DecodedCommandEncodesBackToItself := by
  intro c j hj
  rcases decode_cases c with ⟨-, hd⟩ | ⟨-, -, hd⟩ | ⟨hw, -, f, i, hi, hd⟩ <;> rw [hd] at hj
  · cases hj
  · cases hj
  · obtain ⟨ha, rfl⟩ := eq_of_ifArgOk_eq_instr hj
    rw [Command.wordOk_eq, beq_iff_eq] at hw
    rw [Command.argOk_eq hi.format, beq_iff_eq] at ha
    rw [hi.format]
    refine ⟨?_, fun hf => hi.argWord (hf <| congrArg some ·) ha⟩
    calc (encode i).word = c.op.setWidth 32 := congrArg (·.setWidth 32) (BitVec.eq_of_toNat_eq hi.opcode)
      _ = c.word := setWidth_field rfl hw

/-- Settles O1: each word is the encoding of its command. -/
theorem tableWordsDecodeToTheirCommands : Obligations.TableWordsDecodeToTheirCommands :=
  ⟨decode_encode .clear, decode_encode .bbClear, decode_encode (.bbAppend true), decode_encode .bbRemoveLast,
   decode_encode (.bbGet 0xFFFFFFFF#32), decode_encode (.bbReadByte 2#32), decode_encode .eCount, decode_encode .eBuild,
   decode_encode .eTable, decode_encode .eHeader, decode_encode .ePayload, decode_encode .eFlush, decode_encode .encode,
   decode_encode .dHeader, decode_encode .dPayload, decode_encode .dFinish, decode_encode .decode,
   decode_encode (.freqRead 0x61#8), decode_encode (.cwLen 256#9), decode_encode (.cwBit 0x63#9 3#8)⟩

end Sys2Proof

namespace Sys2Proof.Machine

/-! ## The engine's turn at an illegal command (30_encoding.md R80, R88) -/

theorem engineTurn_of_illFormed {s : State} {c : Command} (hbusy : s.busy = true) (hc : s.latch = some c)
    (hill : c.wellFormed = false) : engineTurn s = .next (raiseDirect .illegalCommand s) := by
  cases hd : decode c with
  | instr i => exact absurd ((decode_isInstr_iff c).mp ⟨i, hd⟩) (by simp [hill])
  | reject r => simp [engineTurn, hbusy, hc, hd]

/-- Settles O6: the command decodes to no instruction, and the decoder's reason for it does not matter. -/
theorem illegalCommandChangesNothingElse : Obligations.IllegalCommandChangesNothingElse := by
  intro s c ms hbusy hc hill hm
  simp only [step, performNext, hm, perform]
  exact engineTurn_of_illFormed hbusy hc hill

/-! ## The codewords of one tree (30_encoding.md R92) -/

/-- Settles O25: where the walk of a codeword ends stands a leaf, so the walk of another codeword does not pass there. -/
theorem codewordsOfOneTreeArePrefixFree : Obligations.CodewordsOfOneTreeArePrefixFree := by
  rintro n x y p _ hp hq ⟨r, rfl⟩
  obtain ⟨w, hx⟩ := follow_codeword n x p hp
  cases r with
  | nil =>
    rw [List.append_nil] at hq
    obtain ⟨w', hy⟩ := follow_codeword n y p hq
    rw [hx] at hy
    cases hy
    rfl
  | cons b r =>
    have hinternal := codeword_prefix_internal n y p r b hq
    rw [hx] at hinternal
    cases hinternal

end Sys2Proof.Machine

/-! PROOFS. Family 40_bitbuffer.md. What each command on the bit buffer does, case by case, on top of what its buffer
operation does; the commands' words and operands; the packed bytes. -/

namespace Sys2Proof.Machine

/-! ## The buffer operations (40_bitbuffer.md R96, R98, R100) -/

theorem BitBuf.append_of_len_ne {cap : Nat} {q : BitBuf} (b : Bool) (h : q.content.length ≠ cap) :
    q.append cap b = some { content := q.content ++ [b], stale := q.stale.tail } := if_neg h

theorem BitBuf.append_of_len_eq {cap : Nat} {q : BitBuf} (b : Bool) (h : q.content.length = cap) :
    q.append cap b = none := if_pos h

theorem BitBuf.removeLast_of_eq_nil {q : BitBuf} (h : q.content = []) : q.removeLast = q :=
  if_pos (List.length_eq_zero_iff.mpr h)

theorem BitBuf.removeLast_of_eq_concat {q : BitBuf} {front : List Bool} {b : Bool} (h : q.content = front ++ [b]) :
    q.removeLast = { content := front, stale := false :: q.stale } := by
  have hlen : q.len ≠ 0 := by simp [BitBuf.len, h]
  rw [BitBuf.removeLast, if_neg hlen, h, List.dropLast_concat]

/-- Settles O14: `rawBytes` packs the content. -/
theorem rawBytesPackTheBufferMostSignificantFirst : Obligations.RawBytesPackTheBufferMostSignificantFirst :=
  fun q => ⟨packBytes_length q.content, bitsOf_packBytes q.content⟩

/-! ## The commands, each by what its buffer operation answers (40_bitbuffer.md R102 to R106) -/

/-- 30_encoding.md R80: a command that may start ends as its body does. -/
theorem runDirect_of_mayStart {i : Instr} {s : State} (body : State → Res State Word)
    (h : mayStart i s.opstate = true) : runDirect i body s = endCommand raiseDirect (body s) := if_pos h

theorem exec_bbClear (s : State) : exec .bbClear s = .next (finish 0#32 { s with bb := s.bb.clear }) := by
  rw [exec, execBbClear, runDirect_of_mayStart _ rfl]
  rfl

theorem exec_bbRemoveLast (s : State) :
    exec .bbRemoveLast s = .next (finish 0#32 { s with bb := s.bb.removeLast }) := by
  rw [exec, execBbRemoveLast, runDirect_of_mayStart _ rfl]
  rfl

section
variable {s : State}

theorem exec_bbAppend_of_some {b : Bool} {q : BitBuf} (h : s.bb.append s.cfg.bbCap b = some q) :
    exec (.bbAppend b) s = .next (finish 0#32 { s with bb := q }) := by
  rw [exec, execBbAppend, runDirect_of_mayStart _ rfl, h]
  rfl

theorem exec_bbAppend_of_none {b : Bool} (h : s.bb.append s.cfg.bbCap b = none) :
    exec (.bbAppend b) s = .next (raiseDirect .allocationError s) := by
  rw [exec, execBbAppend, runDirect_of_mayStart _ rfl, h]
  rfl

theorem exec_bbGet_of_some {i : Word} {b : Bool} (h : s.bb.get i.toNat = some b) :
    exec (.bbGet i) s = .next (finish (bitWord b) s) := by
  rw [exec, execBbGet, runDirect_of_mayStart _ rfl, h]
  rfl

theorem exec_bbGet_of_none {i : Word} (h : s.bb.get i.toNat = none) :
    exec (.bbGet i) s = .next (raiseDirect .boundsError s) := by
  rw [exec, execBbGet, runDirect_of_mayStart _ rfl, h]
  rfl

theorem exec_bbReadByte_of_lt {j : Word} (h : j.toNat < ceilDiv8 s.bb.len) :
    exec (.bbReadByte j) s = .next (finish ((packedByte s.bb.content j.toNat).setWidth 32) s) := by
  rw [exec, execBbReadByte, runDirect_of_mayStart _ rfl, if_neg (Nat.not_le_of_lt h)]
  rfl

theorem exec_bbReadByte_of_le {j : Word} (h : ceilDiv8 s.bb.len ≤ j.toNat) :
    exec (.bbReadByte j) s = .next (raiseDirect .boundsError s) := by
  rw [exec, execBbReadByte, runDirect_of_mayStart _ rfl, if_pos h]
  rfl

end

/-! ## The words and operands of the commands (30_encoding.md R80 to R83, R87) -/

/-- 30_encoding.md R80: the first check, whatever the opcode field says. -/
theorem decode_of_field_ne_zero {w : Word} (a : Word) (h : field w 8 24 ≠ 0#24) :
    decode ⟨w, a⟩ = .reject .reservedWordBits := if_neg h

theorem decode_bbAppend_word (a : Word) :
    decode ⟨0x00000011#32, a⟩ = ifArgOk (a &&& 0xFFFFFFFE#32 == 0#32) (.bbAppend (a.getLsbD 0)) :=
  (decode_setWidth 0x11#8 a).trans (opcodeRow_bbAppend a).decodes

/-! ## The obligations -/

/-- Settles O13: the byte is that of the packed buffer. -/
theorem bbReadByteReadsEightBits : Obligations.BbReadByteReadsEightBits := by
  refine ⟨fun j s hj => ?_, fun _ _ => exec_bbReadByte_of_le, decode_setWidth 0x14#8⟩
  exact ⟨packedByte s.bb.content j.toNat, packedByte_bit s.bb.content j.toNat, exec_bbReadByte_of_lt hj⟩

/-- Settles O9: the first check of R80 rejects a nonzero CMD[31:8] for every opcode. -/
theorem bbClearEmptiesTheBuffer : Obligations.BbClearEmptiesTheBuffer :=
  ⟨exec_bbClear, decode_setWidth 0x10#8, fun _ a _ => decode_of_field_ne_zero a⟩

/-- Settles O10: the two cases of `BBAppend`, and the two answers of the third check of R80. -/
theorem bbAppendAppendsOrReportsAFullBuffer : Obligations.BbAppendAppendsOrReportsAFullBuffer := by
  refine ⟨fun b s hlen => ?_, fun b s hlen => ?_, fun a ha => ?_, fun a ha => ?_⟩
  · exact exec_bbAppend_of_some (BitBuf.append_of_len_ne b hlen)
  · exact exec_bbAppend_of_none (BitBuf.append_of_len_eq b hlen)
  · rw [decode_bbAppend_word, beq_iff_eq.mpr ha]
    rfl
  · rw [decode_bbAppend_word, beq_false_of_ne ha]
    rfl

/-- Settles O11: the two cases of `BBRemoveLast`. -/
theorem bbRemoveLastRemovesTheLastBit : Obligations.BbRemoveLastRemovesTheLastBit := by
  refine ⟨fun s front b hc => ?_, fun s hc => ?_, decode_setWidth 0x12#8⟩
  · rw [exec_bbRemoveLast, BitBuf.removeLast_of_eq_concat hc]
    rfl
  · rw [exec_bbRemoveLast, BitBuf.removeLast_of_eq_nil hc]
    rfl

/-- Settles O12: `BBGet` is the lookup in the content, which answers none from its length on. -/
theorem bbGetReadsTheBitOrReportsBounds : Obligations.BbGetReadsTheBitOrReportsBounds :=
  ⟨fun _ _ _ hb => exec_bbGet_of_some hb, fun _ _ hle => exec_bbGet_of_none (List.getElem?_eq_none hle),
   decode_setWidth 0x13#8⟩

end Sys2Proof.Machine

/-! PROOFS. Family 41_tree_builder.md. How a command that may start ends, by the answer of its body; the order of the
priority list; the empty codeword; E_COUNT past MAXW; and what each encoder command leaves alone. -/

namespace Sys2Proof.Machine

/-! ## A pipeline command that may start (30_encoding.md R80, 60_exceptions.md R152, R155) -/

section
variable {i : Instr} {b : State → Res State Word} {e : List ErrCode} {n : Nat} {o : OpState} {s t : State}

theorem Pipeline.exec_of_mayStart (h : Pipeline i b e n o) (hm : mayStart i s.opstate = true) :
    exec i s = endCommand raisePipeline (b s) := (h.exec_eq s).trans (if_pos hm)

theorem Pipeline.exec_of_ok {v : Word} (h : Pipeline i b e n o) (hm : mayStart i s.opstate = true)
    (hb : b s = .ok v t) : exec i s = .next (finish v t) := by
  rw [h.exec_of_mayStart hm, hb, endCommand]

theorem Pipeline.exec_of_raise {x : ErrCode} (h : Pipeline i b e n o) (hm : mayStart i s.opstate = true)
    (hb : b s = .raise x t) : exec i s = .next (raisePipeline x t) := by
  rw [h.exec_of_mayStart hm, hb, endCommand]

end

/-! ## E_COUNT (41_tree_builder.md R114) -/

/-- Settles O18: the body counts every byte, and the command may start in IDLE. -/
theorem eCountCountsEveryByteOfTheInput : Obligations.ECountCountsEveryByteOfTheInput := by
  intro s ho hq hlen
  obtain ⟨calls, h⟩ := bodyECount_quiet s hq hlen
  exact ⟨calls, Pipeline.eCount.exec_of_ok (beq_iff_eq.mpr ho) h⟩

/-- E_COUNT of an input whose byte number MAXW is `v`: the bytes `xs` before it are counted, `v` is read and not. -/
theorem bodyECount_overflow {s : State} {xs ys : List Byte} {v : Byte} (hq : s.dev.Quiet)
    (hx : s.dev.src.bytes = xs ++ v :: ys) (hlen : xs.length = s.cfg.maxW - 1) :
    ∃ calls, bodyECount s = .raise .counterOverflow
      { s with
        freq := countsOf xs
        dev := { s.dev with src := { s.dev.src with pos := xs.length + 1 }, calls := calls } } := by
  refine ⟨nextCalls (xs ++ [v]) (.srcRewind :: s.dev.calls), ?_⟩
  unfold bodyECount
  rw [srcRewind_quiet hq]
  simp only
  rw [countLoop_overflow _ xs v ys]
  · simp [Res.lift, Res.andThen, Devices.advance, bumpAll_zero]
  · exact hq
  · exact hx
  · rw [bytesAhead_quiet _ (by exact hq), hx]
    simp
  · omega

/-- Settles O19: the input is split at byte number MAXW, which legal parameters make at least the first. -/
theorem eCountOverflowsOnByteNumberMaxW : Obligations.ECountOverflowsOnByteNumberMaxW := by
  intro s hlegal ho hq hlen
  have hw := one_le_maxW_of_legal hlegal
  have hlt : s.cfg.maxW - 1 < s.dev.src.bytes.length := by omega
  have hsplit : s.dev.src.bytes = s.dev.src.bytes.take (s.cfg.maxW - 1) ++
      s.dev.src.bytes[s.cfg.maxW - 1] :: s.dev.src.bytes.drop (s.cfg.maxW - 1 + 1) := by
    rw [← List.drop_eq_getElem_cons hlt, List.take_append_drop]
  have hcounted : (s.dev.src.bytes.take (s.cfg.maxW - 1)).length = s.cfg.maxW - 1 :=
    List.length_take_of_le hlt.le
  obtain ⟨calls, h⟩ := bodyECount_overflow hq hsplit hcounted
  rw [hcounted, Nat.sub_add_cancel hw] at h
  have hexec := Pipeline.eCount.exec_of_raise (beq_iff_eq.mpr ho) h
  exact ⟨calls, hexec⟩

/-! ## The priority list (41_tree_builder.md R107, R110) -/

/-- The list in the order of R110. -/
abbrev Ordered (pl : List Node) : Prop := pl.Pairwise fun x y => x.weight ≤ y.weight

theorem plInsert_ordered (n : Node) {pl : List Node} (h : Ordered pl) : Ordered (plInsert n pl) := by
  induction pl with
  | nil => exact List.pairwise_singleton _ n
  | cons x xs ih =>
    obtain ⟨hx, hxs⟩ := List.pairwise_cons.mp h
    unfold plInsert
    split
    case isTrue hle => exact List.pairwise_cons.mpr ⟨(plInsert_forall n xs).mpr ⟨hle, hx⟩, ih hxs⟩
    case isFalse hlt =>
      have hn : n.weight ≤ x.weight := by omega
      refine List.pairwise_cons.mpr ⟨?_, h⟩
      exact List.forall_mem_cons.mpr ⟨hn, fun y hy => hn.trans (hx y hy)⟩

/-- Among the items of one weight the new one is the last: every item after it is heavier. -/
theorem filter_weight_plInsert (n : Node) {pl : List Node} (h : Ordered pl) (k : Nat) :
    (plInsert n pl).filter (fun x => x.weight == k) =
      pl.filter (fun x => x.weight == k) ++ if n.weight = k then [n] else [] := by
  induction pl with
  | nil => simp [plInsert, List.filter_singleton]
  | cons x xs ih =>
    obtain ⟨hx, hxs⟩ := List.pairwise_cons.mp h
    unfold plInsert
    split
    case isTrue => simp only [List.filter_cons, ih hxs]; split <;> rfl
    case isFalse hlt =>
      rw [List.filter_cons]
      by_cases hk : n.weight = k
      · have hheavy : ∀ y ∈ x :: xs, k < y.weight :=
          List.forall_mem_cons.mpr ⟨by omega, fun y hy => by have := hx y hy; omega⟩
        have hnone : (x :: xs).filter (fun y => y.weight == k) = [] :=
          List.filter_eq_nil_iff.mpr fun y hy => by simpa using (hheavy y hy).ne'
        simp [hk, hnone]
      · simp [hk]

/-- Settles O20: where an insertion puts the node, and what that makes of an ordered list. -/
theorem priorityListIsOrderedAndFirstInFirstOut : Obligations.PriorityListIsOrderedAndFirstInFirstOut :=
  fun n pl => ⟨plInsert_eq n pl, fun h => ⟨plInsert_ordered n h, filter_weight_plInsert n h⟩⟩

/-! ## E_BUILD (41_tree_builder.md R113, R115) -/

/-- Settles O21: legal parameters give the node store room for every tree, and so the body succeeds. -/
theorem eBuildMakesTheTreeOfTheCounters : Obligations.EBuildMakesTheTreeOfTheCounters := by
  rintro s ⟨-, -, ⟨hcap, -⟩, -⟩ ho
  exact Pipeline.eBuild.exec_of_ok (beq_iff_eq.mpr ho) (bodyEBuild_eq s hcap)

theorem OpState.counted_of_built {o : OpState} (h : o.built = true) : o.counted = true := by
  revert h
  cases o <;> decide

/-- Settles O22: ROOT is the tree of the counters, and the counters add up to N1. -/
theorem encoderTreeWeightsAddUpToInputLengthPlusOne :
    Obligations.EncoderTreeWeightsAddUpToInputLengthPlusOne := by
  intro s hs hbuilt
  obtain ⟨hroot, -⟩ := hs.tree hbuilt
  obtain ⟨hsum, -⟩ := hs.counts (OpState.counted_of_built hbuilt)
  rw [hroot, treeOf_weight, hsum]
  exact ⟨treeOf_weightsAdd s.freq, rfl⟩

/-! ## The codewords of a built tree (41_tree_builder.md R118, 43_codeword_table.md R128) -/

/-- The empty codeword is that of the only leaf. -/
theorem codeword_eq_nil_iff (n : Node) (x : Sym) : n.codeword x = some [] ↔ n.symbols = [x] := by
  constructor
  · intro h
    obtain ⟨w, hw⟩ := follow_codeword n x [] h
    obtain rfl : n = .leaf x w := hw
    rfl
  · intro h
    cases n with
    | leaf sym w =>
      obtain rfl : sym = x := List.singleton_inj.mp h
      simp [Node.codeword]
    | internal w l r =>
      have hlen := congrArg List.length h
      simp only [Node.symbols, List.length_append, List.length_singleton] at hlen
      have hl := l.symbols_pos
      have hr := r.symbols_pos
      omega

theorem eos_mem_treeOf_symbols (f : Vector Nat 256) : Sym.eos ∈ (treeOf f).symbols := by
  rw [(treeOf_symbols f).mem_iff]
  simp

theorem treeOf_symbols_eq_eos_iff (f : Vector Nat 256) : (treeOf f).symbols = [.eos] ↔ ∀ v, freqAt f v = 0 := by
  rw [← List.perm_singleton, (treeOf_symbols f).congr_left, List.perm_singleton]
  simp [mem_allBytes]

/-- Settles O23: the leaves and the size of the tree, and with them its codewords: one is shorter than the number of
leaves, and empty only where the tree is one leaf. -/
theorem builtTreeHasOneLeafPerSymbolAndShortCodewords :
    Obligations.BuiltTreeHasOneLeafPerSymbolAndShortCodewords := by
  intro f
  have heos := eos_mem_treeOf_symbols f
  refine ⟨treeOf_symbols f, treeOf_size_le f, fun x p hp => ?_, ?_, treeOf_codeword_byte f, ?_, ?_⟩
  · have hlt := codeword_lt (treeOf f) x p hp
    have hleaves := (treeOf f).size_eq
    have hsize := treeOf_size_le f
    omega
  · rintro v p hp rfl
    rw [(codeword_eq_nil_iff _ _).mp hp] at heos
    simp at heos
  · rw [codeword_eq_nil_iff, treeOf_symbols_eq_eos_iff]
  · rwa [Option.ne_none_iff_isSome, codeword_isSome]

/-! ## FREQ_READ (41_tree_builder.md R119) -/

theorem mayStart_freqRead (v : Byte) (o : OpState) : mayStart (.freqRead v) o = o.counted := by
  cases o <;> rfl

theorem exec_freqRead_of_counted {s : State} (v : Byte) (h : s.opstate.counted = true) :
    exec (.freqRead v) s = .next (finish (BitVec.ofNat 32 (freqAt s.freq v)) s) := by
  rw [exec, execFreqRead, runDirect_of_mayStart _ ((mayStart_freqRead v _).trans h)]
  rfl

theorem decode_freqRead_word (a : Word) :
    decode ⟨0x00000040#32, a⟩ = ifArgOk (a &&& 0xFFFFFF00#32 == 0#32) (.freqRead (field a 0 8)) :=
  (decode_setWidth 0x40#8 a).trans (opcodeRow_freqRead a).decodes

/-- Settles O15: the two answers of the OPSTATE check, and the two of the third check of 30_encoding.md R80. -/
theorem freqReadReturnsTheCounter : Obligations.FreqReadReturnsTheCounter := by
  refine ⟨fun v s hc => exec_freqRead_of_counted v hc, fun v s hc => ?_, fun a ha => ?_, fun a ha => ?_⟩
  · exact exec_of_not_mayStart ((mayStart_freqRead v _).trans hc)
  · rw [decode_freqRead_word, beq_iff_eq.mpr ha]
    rfl
  · rw [decode_freqRead_word, beq_false_of_ne ha]
    rfl

/-! ## What each encoder command leaves alone (10_state.md section 4, 44_encoder.md) -/

/-- The commands of the encoder. -/
abbrev IsEncoder (i : Instr) : Prop :=
  i ∈ [Instr.eCount, .eBuild, .eTable, .eHeader, .ePayload, .eFlush, .encode]

theorem IsDirect.not_isEncoder {i : Instr} (h : IsDirect i) : ¬ IsEncoder i := by
  intro he
  simp only [List.mem_cons, List.not_mem_nil, or_false] at he
  rcases he with rfl | rfl | rfl | rfl | rfl | rfl | rfl <;> simp [IsDirect] at h

/-- What an encoder command `i` that leads from `s` to `t` does not write. -/
structure EncoderFrame (i : Instr) (s t : State) : Prop where
  decoder : t.dcur = s.dcur ∧ t.dcnt = s.dcnt ∧ t.dnode = s.dnode ∧ t.dbits = s.dbits ∧ t.dout = s.dout
  counts : i ≠ .eCount → i ≠ .encode → t.freq = s.freq ∧ t.n1 = s.n1
  tree : i ≠ .eBuild → i ≠ .encode → t.pl = s.pl ∧ t.nodeCount = s.nodeCount ∧ t.root = s.root
  table : i ≠ .eTable → i ≠ .encode → t.cw = s.cw ∧ t.path = s.path
  buffer : i ≠ .eHeader → i ≠ .ePayload → i ≠ .encode → t.bb = s.bb
  devices : i ∈ [Instr.eBuild, .eTable, .eHeader] → t.dev = s.dev

theorem EncoderFrame.refl (i : Instr) (s : State) : EncoderFrame i s s := by
  constructor <;> simp

/-- The frame says nothing of what a command's end writes (60_exceptions.md R152, R155). -/
theorem EncoderFrame.finish {i : Instr} {s t : State} (v : Word) (h : EncoderFrame i s t) :
    EncoderFrame i s (finish v t) := { h with }

theorem EncoderFrame.raisePipeline {i : Instr} {s t : State} (x : ErrCode) (h : EncoderFrame i s t) :
    EncoderFrame i s (raisePipeline x t) := { h with }

theorem EncoderFrame.raiseDirect {i : Instr} {s t : State} (x : ErrCode) (h : EncoderFrame i s t) :
    EncoderFrame i s (raiseDirect x t) := { h with }

/-- A body keeps the frame of `i`, whether it ends well or raises. -/
def Res.KeepsFrame (i : Instr) (s : State) (r : Res State Word) : Prop :=
  match r with
  | .ok _ t => EncoderFrame i s t
  | .raise _ t => EncoderFrame i s t
  | .stuck => True

theorem Pipeline.keepsFrame {i : Instr} {b : State → Res State Word} {e : List ErrCode} {n : Nat} {o : OpState}
    (h : Pipeline i b e n o) (hi : IsEncoder i) (s : State) : (b s).KeepsFrame i s := by
  cases h
  case dHeader | dPayload | dFinish | decode => exact absurd hi (by decide)
  case eCount =>
    rcases bodyECount_cases s with ⟨_, _, _, h, -⟩ | ⟨_, _, _, h⟩ <;> rw [h] <;> constructor <;> simp
  case eBuild => rcases bodyEBuild_cases s with ⟨_, _, _, h⟩ | ⟨_, _, h⟩ <;> rw [h] <;> constructor <;> simp
  case eTable => rw [bodyETable_eq]; constructor <;> simp
  case eHeader => rcases bodyEHeader_cases s with ⟨_, _, h, -⟩ | ⟨_, h, -⟩ <;> rw [h] <;> constructor <;> simp
  case ePayload =>
    rcases bodyEPayload_cases s with ⟨_, _, _, h, -⟩ | ⟨_, _, _, h, -⟩ <;> rw [h] <;> constructor <;> simp
  case eFlush => rcases bodyEFlush_cases s with ⟨_, _, h⟩ | ⟨_, _, h⟩ <;> rw [h] <;> constructor <;> simp
  case encode =>
    rcases bodyEncode_cases s with ⟨_, _, _, _, _, _, _, _, _, _, h⟩ | ⟨_, _, _, _, _, _, _, _, _, _, _, h⟩ <;>
      rw [h] <;> constructor <;> simp

theorem exec_encoderFrame {i : Instr} {s t : State} (hi : IsEncoder i) (h : exec i s = .next t) :
    EncoderFrame i s t := by
  rcases instr_kinds i with hd | ⟨b, e, n, o, hb⟩
  · exact absurd hi hd.not_isEncoder
  · have hk := hb.keepsFrame hi s
    rcases hb.outcome s with ⟨-, hx⟩ | ⟨v, u, -, hbody, hx, -⟩ | ⟨x, u, -, hbody, hx, -⟩ <;> rw [hx] at h <;> cases h
    · exact (EncoderFrame.refl i s).raiseDirect _
    · rw [hbody] at hk; exact hk.finish v
    · rw [hbody] at hk; exact hk.raisePipeline x

/-- Settles O47: each body keeps its command's frame, and so do the ways a command ends. -/
theorem encoderStepsLeaveTheRestAlone : Obligations.EncoderStepsLeaveTheRestAlone := by
  intro i s t hi h
  obtain ⟨⟨hcur, hcnt, hnode, hbits, hout⟩, hcounts, htree, htable, hbuffer, hdevices⟩ := exec_encoderFrame hi h
  exact ⟨hcur, hcnt, hnode, hbits, hout, hcounts, htree, htable, hbuffer, hdevices⟩

end Sys2Proof.Machine

/-! PROOFS. Family 42_header.md. The length of a header; how D_HEADER ends from IDLE with devices that do not interfere:
at a whole header, at a byte leaf as root, at a header cut short or too big for the node store. -/

namespace Sys2Proof.Machine

/-! ## The length of a header (42_header.md R122) -/

theorem header_length (n : Node) :
    n.header.length = n.internals + 10 * (n.symbols.filter (· ≠ .eos)).length + 2 * n.symbols.count .eos := by
  induction n with
  | leaf sym w => cases sym <;> rfl
  | internal w l r ihl ihr =>
    simp only [Node.header, Node.internals, Node.symbols, List.length_cons, List.length_append, List.filter_append,
      List.count_append, ihl, ihr]
    omega

theorem internals_add_one (n : Node) : n.internals + 1 = n.symbols.length := by
  induction n with
  | leaf sym w => rfl
  | internal w l r ihl ihr =>
    simp only [Node.internals, Node.symbols, List.length_append]
    omega

/-- The header of a tree whose leaves are the bytes `vs` and one EOS: it has as many internal nodes as bytes. -/
theorem header_length_of_symbols_perm {n : Node} {vs : List Byte} (h : n.symbols.Perm (vs.map Sym.byte ++ [.eos])) :
    n.header.length = 11 * vs.length + 2 := by
  have hinternals : n.internals = vs.length := by simpa [h.length_eq] using internals_add_one n
  have hbytes : (n.symbols.filter (· ≠ .eos)).length = vs.length := by
    simp [(h.filter _).length_eq, List.filter_map, Function.comp_def]
  have heos : n.symbols.count .eos = 1 := by simp [h.count_eq, List.count_eq_zero]
  rw [header_length, hinternals, hbytes, heos]
  omega

/-- Settles O27: by induction on the tree; the leaves of a built tree are its distinct bytes and one EOS. -/
theorem headerLengthCountsTheRecords : Obligations.HeaderLengthCountsTheRecords :=
  ⟨header_length, fun f => header_length_of_symbols_perm (treeOf_symbols f)⟩

/-! ## D_HEADER at a whole header (42_header.md R126, 45_decoder.md R142) -/

/-- Reading moves the source's position and adds to the list of calls; it leaves the rest of the devices alone. -/
theorem reads_dev {s : State} {u : Supply} {bs : List Bool} (hq : s.dev.Quiet) (hr : (startReading s).sup.Reads bs u) :
    u.dev = { s.dev with src := { s.dev.src with pos := (bs.length + 7) / 8 }, calls := u.dev.calls } := by
  have hbytes : u.dev.src.bytes = s.dev.src.bytes := hr.bytes
  have hsink : u.dev.sink = s.dev.sink := hr.sink
  have hdraws : u.dev.draws = s.dev.draws := hr.quiet.trans hq.symm
  simp only [← reads_pos hr, ← hbytes, ← hsink, ← hdraws]

/-- Settles O32: the reader takes the header's bits, the bits after it stay ahead, and the cursor and the calls are
those the reader leaves. -/
theorem dHeaderRebuildsTheTreeOfItsHeader : Obligations.DHeaderRebuildsTheTreeOfItsHeader := by
  intro s n rest ho hq hb hn hsize
  obtain ⟨u, hbody, hreads, hrest⟩ := bodyDHeader_header s n rest hq hb hn hsize
  have hbits : u.dbits = BitVec.ofNat 32 n.header.length := by simpa [startReading] using hreads.dbits
  refine ⟨bare_header n, u.dcur, u.dcnt, u.dev.calls, ?_⟩
  rw [← reads_dev hq hreads, ← hbits]
  rw [← hbits] at hbody
  exact ⟨Pipeline.dHeader.exec_of_ok (beq_iff_eq.mpr ho) hbody, hrest⟩

/-! ## D_HEADER that fails (42_header.md R124, 45_decoder.md R142) -/

/-- D_HEADER of a source that starts with the record of a byte leaf. -/
theorem bodyDHeader_byteLeaf {s : State} {v : Byte} {rest : List Bool} (hq : s.dev.Quiet) (hcap : 1 ≤ s.cfg.nodeCap)
    (hb : bitsOf s.dev.src.bytes = [true, false] ++ bits8 v ++ rest) :
    ∃ t, bodyDHeader s = .raise .malformedHeader t := by
  have ha : (startReading s).sup.ahead = (Node.leaf (.byte v) none).header ++ rest := (startReading_ahead s).trans hb
  obtain ⟨u, hread, -, -⟩ := readNode_header (cap := s.cfg.nodeCap) (.leaf (.byte v) none)
    ((startReading s).sup.bitsAhead + 1) (startReading s) rest hq ha (Nat.le_add_left ..) (by simpa [startReading])
  rw [bodyDHeader_quiet s hq, hread]
  exact ⟨_, rfl⟩

/-- Of two lists one of which starts with the other, each agrees with the other as far as both go. -/
theorem take_length_eq_take_length {as bs : List Bool} (h : as <+: bs ∨ bs <+: as) :
    as.take bs.length = bs.take as.length := by
  rcases h with h | h <;> rw [List.take_of_length_le h.length_le, ← List.prefix_iff_eq_take.mp h]

/-- D_HEADER from IDLE at a header that is cut short or has too many nodes: NCOUNT counts the nodes begun that the store
has room for, and ROOT stays as it was. -/
theorem exec_dHeader_short {s : State} {n : Node} (ho : s.opstate = .idle) (hq : s.dev.Quiet)
    (hagree : bitsOf s.dev.src.bytes <+: n.header ∨ n.header <+: bitsOf s.dev.src.bytes)
    (hbad : (bitsOf s.dev.src.bytes).length < n.header.length ∨ s.cfg.nodeCap < n.size) :
    ∃ u, exec .dHeader s = .next
      (raisePipeline (shortError s.cfg.nodeCap (n.begun (bitsOf s.dev.src.bytes).length))
        { s.putSupply u with nodeCount := min s.cfg.nodeCap (n.begun (bitsOf s.dev.src.bytes).length) }) := by
  obtain ⟨u, hbody⟩ := bodyDHeader_short s n hq (take_length_eq_take_length hagree) hbad
  exact ⟨u, Pipeline.dHeader.exec_of_raise (beq_iff_eq.mpr ho) hbody⟩

/-- Settles O33: a header short of bits or of room ends the reader before ROOT is assigned, with the error that comes
first; a byte leaf as root is read whole and then rejected. -/
theorem dHeaderRejectsACutHeaderAndAByteLeafRoot : Obligations.DHeaderRejectsACutHeaderAndAByteLeafRoot := by
  refine ⟨?cut, ?tooManyNodes, ?byteLeaf⟩
  case cut =>
    intro s n missing ho hq hmissing hn hfits
    have hlt : (bitsOf s.dev.src.bytes).length < n.header.length := by
      simpa [hn, List.length_pos_iff] using hmissing
    obtain ⟨u, hexec⟩ := exec_dHeader_short ho hq (.inl ⟨missing, hn.symm⟩) (.inl hlt)
    rw [shortError, if_neg hfits.not_gt, min_eq_right hfits] at hexec
    exact ⟨_, hexec, rfl, rfl, rfl, rfl, rfl, rfl⟩
  case tooManyNodes =>
    intro s n ho hq hagree hfull
    obtain ⟨u, hexec⟩ := exec_dHeader_short ho hq hagree (.inr (hfull.trans_le (begun_le_size n _)))
    rw [shortError, if_pos hfull, min_eq_left hfull.le] at hexec
    exact ⟨_, hexec, rfl, rfl, rfl, rfl, rfl, rfl⟩
  case byteLeaf =>
    intro s v rest ho hq hcap hb
    obtain ⟨t, hbody⟩ := bodyDHeader_byteLeaf hq hcap hb
    exact ⟨_, Pipeline.dHeader.exec_of_raise (beq_iff_eq.mpr ho) hbody, rfl, rfl, rfl, rfl⟩

end Sys2Proof.Machine

/-! PROOFS. Family 43_codeword_table.md. E_TABLE on the tree of the state; the entry an operand names; what CW_LEN and
CW_BIT answer from it, and their words and operands. -/

namespace Sys2Proof.Machine

/-! ## E_TABLE (43_codeword_table.md R127) -/

/-- Settles O24: the body leaves the reference table, which holds the codeword of every symbol. -/
theorem eTableTabulatesTheCodewords : Obligations.ETableTabulatesTheCodewords := fun s ho =>
  ⟨tableOf s.root, cwAt_tableOf s.root, Pipeline.eTable.exec_of_ok (beq_iff_eq.mpr ho) (bodyETable_eq s)⟩

/-! ## The symbol an operand names (30_encoding.md R85) -/

theorem symOf_eq_none {n : BitVec 9} (h : 257 ≤ n.toNat) : symOf n = none := by
  rw [symOf, if_neg (by omega), if_neg (by omega)]

theorem index_of_symOf {n : BitVec 9} {x : Sym} (h : symOf n = some x) : x.index.val = n.toNat := by
  unfold symOf at h
  split at h
  case isTrue hbyte =>
    cases h
    exact (BitVec.toNat_setWidth 8 n).trans (Nat.mod_eq_of_lt hbyte)
  case isFalse =>
    split at h
    case isTrue heos =>
      cases h
      exact heos.symm
    case isFalse => cases h

theorem exists_symOf {n : BitVec 9} (h : n.toNat < 257) : ∃ x, symOf n = some x := by
  by_cases hbyte : n.toNat < 256
  · exact ⟨_, if_pos hbyte⟩
  · exact ⟨.eos, (if_neg hbyte).trans (if_pos (by omega))⟩

/-- 10_state.md R42: the entry of the symbol that an operand names is the one at the operand's number. -/
theorem cwAt_of_symOf {n : BitVec 9} {x : Sym} (t : Vector (Option (List Bool)) 257) (h : n.toNat < 257)
    (hx : symOf n = some x) : cwAt t x = t[n.toNat] := by
  simp only [cwAt, Fin.getElem_fin, index_of_symOf hx]

/-! ## Queries of the table, each by what the lookup answers (43_codeword_table.md R129, R130) -/

theorem mayStart_cwLen (n : BitVec 9) (o : OpState) : mayStart (.cwLen n) o = o.tabled := by
  cases o <;> rfl

theorem mayStart_cwBit (n : BitVec 9) (k : Byte) (o : OpState) : mayStart (.cwBit n k) o = o.tabled := by
  cases o <;> rfl

/-- 43_codeword_table.md R129: the three fields of CW_LEN's answer for a codeword that is present. -/
theorem cwLenWord_some (bits : List Bool) :
    cwLenWord (some bits) = 1#1 ++ 0#22 ++ BitVec.ofNat 9 bits.length := by
  rw [cwLenWord, BitVec.append_def, BitVec.setWidth'_eq]
  rfl

section
variable {s : State} {n : BitVec 9} {x : Sym}

theorem exec_cwLen_of_symOf_eq_some (ht : s.opstate.tabled = true) (hx : symOf n = some x) :
    exec (.cwLen n) s = .next (finish (cwLenWord (cwAt s.cw x)) s) := by
  rw [exec, execCwLen, runDirect_of_mayStart _ ((mayStart_cwLen n _).trans ht), hx]
  rfl

theorem exec_cwLen_of_symOf_eq_none (ht : s.opstate.tabled = true) (hx : symOf n = none) :
    exec (.cwLen n) s = .next (raiseDirect .boundsError s) := by
  rw [exec, execCwLen, runDirect_of_mayStart _ ((mayStart_cwLen n _).trans ht), hx]
  rfl

theorem exec_cwBit_of_getElem?_eq_some {k : Byte} {bits : List Bool} {b : Bool} (ht : s.opstate.tabled = true)
    (hx : symOf n = some x) (hc : cwAt s.cw x = some bits) (hb : bits[k.toNat]? = some b) :
    exec (.cwBit n k) s = .next (finish (bitWord b) s) := by
  rw [exec, execCwBit, runDirect_of_mayStart _ ((mayStart_cwBit n k _).trans ht)]
  simp only [hx, hc, hb, endCommand]

/-- CW_BIT finds no bit where the operand names no symbol, the symbol has no entry, or its codeword is too short. -/
theorem exec_cwBit_of_forall_length_le {k : Byte} (ht : s.opstate.tabled = true)
    (hk : ∀ x bits, symOf n = some x → cwAt s.cw x = some bits → bits.length ≤ k.toNat) :
    exec (.cwBit n k) s = .next (raiseDirect .boundsError s) := by
  rw [exec, execCwBit, runDirect_of_mayStart _ ((mayStart_cwBit n k _).trans ht)]
  cases hx : symOf n with
  | none => rfl
  | some x =>
    cases hc : cwAt s.cw x with
    | none => simp only [hc, endCommand]
    | some bits => simp only [hc, List.getElem?_eq_none (hk x bits hx hc), endCommand]

end

/-! ## The words and operands of the queries (30_encoding.md R80, R85 to R87) -/

theorem decode_cwLen_word (a : Word) :
    decode ⟨0x00000041#32, a⟩ = ifArgOk (a &&& 0xFFFFFE00#32 == 0#32) (.cwLen (field a 0 9)) :=
  (decode_setWidth 0x41#8 a).trans (opcodeRow_cwLen a).decodes

theorem decode_cwBit_word (a : Word) :
    decode ⟨0x00000042#32, a⟩ = ifArgOk (a &&& 0xFF00FE00#32 == 0#32) (.cwBit (field a 0 9) (field a 16 8)) :=
  (decode_setWidth 0x42#8 a).trans (opcodeRow_cwBit a).decodes

theorem ifArgOk_of_eq_zero {v : Word} (i : Instr) (h : v = 0#32) : ifArgOk (v == 0#32) i = .instr i :=
  if_pos (beq_iff_eq.mpr h)

theorem ifArgOk_of_ne_zero {v : Word} (i : Instr) (h : v ≠ 0#32) :
    ifArgOk (v == 0#32) i = .reject .reservedArgBits :=
  if_neg (by simpa using h)

/-! ## The obligations -/

/-- Settles O16: the answer is that of the entry the operand names, and a number above 256 names none. -/
theorem cwLenReturnsPresenceAndLength : Obligations.CwLenReturnsPresenceAndLength := by
  refine ⟨?present, ?absent, ?bounds, ?sequence, ?accept, ?reject⟩
  case present =>
    intro n s h bits ht hc
    obtain ⟨x, hx⟩ := exists_symOf h
    rw [exec_cwLen_of_symOf_eq_some ht hx, cwAt_of_symOf s.cw h hx, hc, cwLenWord_some]
    rfl
  case absent =>
    intro n s h ht hc
    obtain ⟨x, hx⟩ := exists_symOf h
    rw [exec_cwLen_of_symOf_eq_some ht hx, cwAt_of_symOf s.cw h hx, hc]
    rfl
  case bounds => exact fun n s ht hn => exec_cwLen_of_symOf_eq_none ht (symOf_eq_none hn)
  case sequence => exact fun n s ht => exec_of_not_mayStart ((mayStart_cwLen n _).trans ht)
  case accept => exact fun a ha => (decode_cwLen_word a).trans (ifArgOk_of_eq_zero _ ha)
  case reject => exact fun a ha => (decode_cwLen_word a).trans (ifArgOk_of_ne_zero _ ha)

/-- Settles O17: the bit is the lookup in the entry the operand names; the three ways the lookup finds none are the
bounds clause. -/
theorem cwBitReturnsTheCodewordBit : Obligations.CwBitReturnsTheCodewordBit := by
  refine ⟨?bit, ?bounds, ?sequence, ?accept, ?reject⟩
  case bit =>
    intro n k s h bits b ht hc hb
    obtain ⟨x, hx⟩ := exists_symOf h
    exact exec_cwBit_of_getElem?_eq_some ht hx ((cwAt_of_symOf s.cw h hx).trans hc) hb
  case bounds =>
    intro n k s ht hk
    refine exec_cwBit_of_forall_length_le ht fun x bits hx hc => ?_
    have h : n.toNat < 257 := index_of_symOf hx ▸ x.index.isLt
    exact hk h bits ((cwAt_of_symOf s.cw h hx).symm.trans hc)
  case sequence => exact fun n k s ht => exec_of_not_mayStart ((mayStart_cwBit n k _).trans ht)
  case accept => exact fun a ha => (decode_cwBit_word a).trans (ifArgOk_of_eq_zero _ ha)
  case reject => exact fun a ha => (decode_cwBit_word a).trans (ifArgOk_of_ne_zero _ ha)

end Sys2Proof.Machine

/-! PROOFS. Family 44_encoder.md. How E_HEADER, E_PAYLOAD and E_FLUSH end, each from what its body does; ENCODE with
devices that do not interfere, and DECODE of what it writes; ENCODE and DECODE as their steps, whatever the devices do. -/

namespace Sys2Proof.Machine

/-! ## A part of a command that ends well (00_scope.md R12) -/

@[simp] theorem ok_andThen {σ α β : Type} (v : α) (s : σ) (f : α → σ → Res σ β) :
    (Res.ok v s).andThen f = f v s := rfl

/-! ## E_HEADER (44_encoder.md R132) -/

/-- E_HEADER of a header that does not fit: the buffer is full of its first bits (42_header.md R120). -/
theorem bodyEHeader_full {s : State} (h : s.cfg.bbCap < s.root.header.length) :
    bodyEHeader s = .raise .allocationError
      { s with
        bb := { content := s.root.header.take s.cfg.bbCap,
                stale := (s.bb.content ++ s.bb.stale).drop s.cfg.bbCap } } := by
  rw [bodyEHeader, writeNode_eq, appendAll_full _ _ (Nat.zero_le _) (by simpa [BitBuf.clear] using h)]
  rfl

/-- Settles O26: the two ends of the body, by whether the header fits. -/
theorem eHeaderWritesTheHeaderOrRunsOutOfBuffer : Obligations.EHeaderWritesTheHeaderOrRunsOutOfBuffer :=
  ⟨fun s ho hfit => Pipeline.eHeader.exec_of_ok (beq_iff_eq.mpr ho) (bodyEHeader_fits s hfit),
    fun _ ho hfull => Pipeline.eHeader.exec_of_raise (beq_iff_eq.mpr ho) (bodyEHeader_full hfull)⟩

/-! ## E_PAYLOAD (44_encoder.md R133) -/

/-- Settles O28: the three ends of the body, by whether the codewords fit: all of them, not those of the bytes, not that
of EOS. -/
theorem ePayloadAppendsTheCodewords : Obligations.EPayloadAppendsTheCodewords := by
  refine ⟨?fits, ?bytesFull, ?eosFull⟩
  case fits =>
    intro s ho hq hn hcode hcw hfit
    obtain ⟨calls, h⟩ := bodyEPayload_quiet s hq hn hcode hcw hfit
    exact ⟨calls, Pipeline.ePayload.exec_of_ok (beq_iff_eq.mpr ho) h⟩
  case bytesFull =>
    rintro s xs ys codes ho hq hx hn hcw rfl hroom hfull
    obtain ⟨pos, calls, h⟩ := bodyEPayload_full s xs ys hq hx hn hcw hroom hfull
    exact ⟨pos, calls, Pipeline.ePayload.exec_of_raise (beq_iff_eq.mpr ho) h⟩
  case eosFull =>
    rintro s codes eos ho hq hn hcw rfl heos hfit hfull
    obtain rfl : eosBits s.cw = eos := by rw [eosBits, heos, Option.getD_some]
    obtain ⟨calls, h⟩ := bodyEPayload_eosFull s hq hn hcw hfit hfull
    exact ⟨calls, Pipeline.ePayload.exec_of_raise (beq_iff_eq.mpr ho) h⟩

/-- The payload loop at a byte that was not counted, or has no codeword. -/
theorem fillLoop_mismatch {cap n1 : Nat} {cw : Vector (Option (List Bool)) 257} {fuel n : Nat} {c : Filling}
    {v : Byte} {ys : List Byte} (hq : c.dev.Quiet) (hx : c.dev.src.bytes.drop c.dev.src.pos = v :: ys)
    (hbad : n = n1 ∨ cwAt cw (.byte v) = none) :
    fillLoop cap n1 cw (fuel + 1) n c = .raise .sourceMismatch { c with dev := c.dev.advance [v] } := by
  rw [fillLoop, srcNext_quiet_byte hq (drop_pos_cons hx).1]
  simp only
  split
  case isTrue => rfl
  case isFalse hn => simp only [hbad.resolve_left hn]; rfl

section
variable {s : State} {xs : List Byte} (hq : s.dev.Quiet) (hcw : ∀ v ∈ xs, cwAt s.cw (.byte v) ≠ none)
  (hfit : s.bb.content.length + (codesOf s.cw xs).length ≤ s.cfg.bbCap)
include hq hcw hfit

/-- E_PAYLOAD of a source that holds fewer bytes than were counted. -/
theorem bodyEPayload_short (hx : s.dev.src.bytes = xs) (hn : xs.length < s.n1) :
    ∃ dev, bodyEPayload s = .raise .sourceMismatch
      { s with
        dev := dev
        bb := { content := s.bb.content ++ codesOf s.cw xs, stale := s.bb.stale.drop (codesOf s.cw xs).length } } := by
  rw [bodyEPayload, srcRewind_quiet hq]
  simp only
  rw [bytesAhead_quiet _ (by exact hq), fillLoop_quiet _ _ _ xs _ _ _ (by exact hq) (by exact hx) (by simp [hx])
    (by omega) hcw (by exact hfit), Nat.zero_add]
  simp only [Res.lift, Res.andThen, ne_eq, hn.ne, not_false_eq_true, if_true]
  exact ⟨_, rfl⟩

/-- E_PAYLOAD of a source that holds, after `xs`, a byte that was not counted or has no codeword. -/
theorem bodyEPayload_mismatch {v : Byte} {ys : List Byte} (hx : s.dev.src.bytes = xs ++ v :: ys)
    (hn : xs.length ≤ s.n1) (hbad : xs.length = s.n1 ∨ cwAt s.cw (.byte v) = none) :
    ∃ dev, bodyEPayload s = .raise .sourceMismatch
      { s with
        dev := dev
        bb := { content := s.bb.content ++ codesOf s.cw xs, stale := s.bb.stale.drop (codesOf s.cw xs).length } } := by
  have hfuel : s.dev.src.bytes.length - 0 + 1 = ys.length + 1 + 1 + xs.length := by simp [hx]; omega
  have hnext : s.dev.src.bytes.drop (0 + xs.length) = v :: ys := by simp [hx]
  rw [bodyEPayload, srcRewind_quiet hq]
  simp only
  rw [bytesAhead_quiet _ (by exact hq)]
  simp only [hfuel]
  rw [fillLoop_skip _ _ _ xs _ _ _ (by exact hq) (v :: ys) (by exact hx) (by omega) hcw (by exact hfit), Nat.zero_add,
    fillLoop_mismatch (by exact hq) (by exact hnext) hbad]
  exact ⟨_, rfl⟩

end

/-- Settles O29: the source ends before the count is reached, or the loop meets a byte it does not take. -/
theorem ePayloadReportsAChangedSource : Obligations.EPayloadReportsAChangedSource := by
  intro s xs ys ho hq hx hcw hfit hbad
  suffices h : ∃ dev stale, bodyEPayload s = .raise .sourceMismatch
      { s with dev := dev, bb := { content := s.bb.content ++ codesOf s.cw xs, stale := stale } } by
    obtain ⟨dev, stale, h⟩ := h
    exact ⟨dev, stale, Pipeline.ePayload.exec_of_raise (beq_iff_eq.mpr ho) h⟩
  rcases hbad with ⟨rfl, hn⟩ | ⟨hlong, hn⟩ | ⟨hn, v, zs, rfl, hnone⟩
  · obtain ⟨dev, h⟩ := bodyEPayload_short hq hcw hfit (hx.trans (List.append_nil xs)) hn
    exact ⟨dev, _, h⟩
  · obtain ⟨v, zs, rfl⟩ := List.exists_cons_of_ne_nil hlong
    obtain ⟨dev, h⟩ := bodyEPayload_mismatch hq hcw hfit hx hn.le (.inl hn)
    exact ⟨dev, _, h⟩
  · obtain ⟨dev, h⟩ := bodyEPayload_mismatch hq hcw hfit hx hn.le (.inr hnone)
    exact ⟨dev, _, h⟩

/-! ## E_FLUSH (44_encoder.md R134) -/

/-- Settles O30: the two ends of the body, by whether a call fails. -/
theorem eFlushWritesThePackedBuffer : Obligations.EFlushWritesThePackedBuffer := by
  refine ⟨?quiet, ?fails⟩
  case quiet =>
    intro s ho hq
    obtain ⟨calls, h⟩ := bodyEFlush_quiet s hq
    exact ⟨calls, Pipeline.eFlush.exec_of_ok (beq_iff_eq.mpr ho) h⟩
  case fails =>
    intro s oks x more ho hd hok hx hlen
    obtain ⟨src, h, hsrc⟩ := bodyEFlush_fails s oks x more hd hok hx hlen
    exact ⟨src, Pipeline.eFlush.exec_of_raise (beq_iff_eq.mpr ho) h, hsrc⟩

/-! ## ENCODE (44_encoder.md R135, R136) -/

/-- `s` in an encode of the input `xs` with the tree `n`, from E_TABLE on: the steps after it change the operation state,
the buffer, the sink and the list of device calls, and no more. -/
def State.encoding (s : State) (xs : List Byte) (n : Node) (o : OpState) (q : BitBuf) (k : Sink)
    (calls : List DevCall) : State :=
  { s with
    freq := countsOf xs
    n1 := xs.length
    pl := []
    root := n
    nodeCount := n.size
    cw := tableOf n
    path := []
    bb := q
    dev := { s.dev with src := { bytes := xs, pos := xs.length }, sink := k, calls := calls }
    opstate := o }

/-- Every byte of an input has a codeword in the input's tree. -/
theorem codeword_treeOf_countsOf_ne_none {xs : List Byte} {v : Byte} (hv : v ∈ xs) :
    (treeOf (countsOf xs)).codeword (.byte v) ≠ none := by
  rw [treeOf_codeword_byte, freqAt_countsOf]
  exact (List.count_pos_iff.mpr hv).ne'

section
variable {s : State} {xs : List Byte} {n : Node}

/-- ENCODE up to its fourth body, of an input that fits. -/
theorem bodyEncode_tabled (hcap : 513 ≤ s.cfg.nodeCap) (hq : s.dev.Quiet) (hx : s.dev.src.bytes = xs)
    (hn : n = treeOf (countsOf xs)) (hlen : xs.length + 1 ≤ s.cfg.maxW) :
    ∃ calls, bodyEncode s =
      (bodyEHeader (s.encoding xs n .eTableBuilt s.bb s.dev.sink calls)).andThen fun _ t =>
        (bodyEPayload t).andThen fun _ t => bodyEFlush t := by
  subst hx
  obtain ⟨calls, hcount⟩ := bodyECount_quiet s hq hlen
  refine ⟨calls, ?_⟩
  rw [bodyEncode, hcount, ok_andThen, bodyEBuild_eq _ (by exact hcap), ok_andThen, bodyETable_eq, ok_andThen,
    State.encoding, hn]

theorem bodyEHeader_encoding {q : BitBuf} {k : Sink} {calls : List DevCall} (hfit : n.header.length ≤ s.cfg.bbCap) :
    ∃ v stale, bodyEHeader (s.encoding xs n .eTableBuilt q k calls) =
      .ok v (s.encoding xs n .eHeaderWritten { content := n.header, stale := stale } k calls) :=
  ⟨_, _, bodyEHeader_fits (s.encoding xs n .eTableBuilt q k calls) hfit⟩

theorem bodyEPayload_encoding {stale : List Bool} {k : Sink} {calls : List DevCall} (hq : s.dev.Quiet)
    (hn : n = treeOf (countsOf xs)) (hfit : (n.stream xs).length ≤ s.cfg.bbCap) :
    ∃ v stale' calls', bodyEPayload (s.encoding xs n .eHeaderWritten { content := n.header, stale := stale } k calls) =
      .ok v (s.encoding xs n .ePayloadWritten { content := n.stream xs, stale := stale' } k calls') := by
  have hcode : ∀ v ∈ xs, n.codeword (.byte v) ≠ none := fun v hv => hn ▸ codeword_treeOf_countsOf_ne_none hv
  rw [Node.stream, List.length_append] at hfit
  obtain ⟨calls', h⟩ := bodyEPayload_quiet
    (s.encoding xs n .eHeaderWritten { content := n.header, stale := stale } k calls) hq rfl hcode (cwAt_tableOf n) hfit
  exact ⟨_, _, calls', h⟩

theorem bodyEFlush_encoding {q : BitBuf} {k : Sink} {calls : List DevCall} (hq : s.dev.Quiet) :
    ∃ calls', bodyEFlush (s.encoding xs n .ePayloadWritten q k calls) =
      .ok (BitVec.ofNat 32 ((q.content.length + 7) / 8))
        (s.encoding xs n .eDone q { bytes := k.bytes ++ packBytes q.content, flushes := k.flushes + 1 } calls') :=
  bodyEFlush_quiet (s.encoding xs n .ePayloadWritten q k calls) hq

/-- ENCODE of an input that fits, with room for its stream. -/
theorem bodyEncode_quiet (hcap : 513 ≤ s.cfg.nodeCap) (hq : s.dev.Quiet) (hx : s.dev.src.bytes = xs)
    (hn : n = treeOf (countsOf xs)) (hlen : xs.length + 1 ≤ s.cfg.maxW) (hfit : (n.stream xs).length ≤ s.cfg.bbCap) :
    ∃ stale calls, bodyEncode s = .ok (BitVec.ofNat 32 (((n.stream xs).length + 7) / 8))
      (s.encoding xs n .eDone { content := n.stream xs, stale := stale }
        { bytes := s.dev.sink.bytes ++ packBytes (n.stream xs), flushes := s.dev.sink.flushes + 1 } calls) := by
  have hroom : n.header.length ≤ s.cfg.bbCap := by rw [Node.stream, List.length_append] at hfit; omega
  obtain ⟨_, htabled⟩ := bodyEncode_tabled hcap hq hx hn hlen
  obtain ⟨_, _, hheader⟩ := bodyEHeader_encoding hroom
  obtain ⟨_, stale, _, hpayload⟩ := bodyEPayload_encoding hq hn hfit
  obtain ⟨calls, hflush⟩ := bodyEFlush_encoding hq
  exact ⟨stale, calls, by rw [htabled, hheader, ok_andThen, hpayload, ok_andThen, hflush]⟩

end

/-- Settles O31: the six bodies in a row, and then the end of the command. -/
theorem encodeWritesTheCompressedStream : Obligations.EncodeWritesTheCompressedStream := by
  rintro s xs n ⟨-, -, ⟨hcap, -⟩, -⟩ ho hq hx hn hlen hfit
  obtain ⟨stale, calls, h⟩ := bodyEncode_quiet hcap hq hx hn hlen hfit
  exact ⟨calls, stale, tableOf n, cwAt_tableOf n, Pipeline.encode.exec_of_ok (beq_iff_eq.mpr ho) h⟩

/-! ## Decoding an encoding (44_encoder.md R137) -/

/-- A tree that holds EOS and is one leaf holds no byte. -/
theorem codeword_byte_of_isLeaf {n : Node} (hl : n.isLeaf = true) (he : n.codeword .eos ≠ none) (v : Byte) :
    n.codeword (.byte v) = none := by
  match n with
  | .leaf .eos _ => rfl
  | .leaf (.byte _) _ => exact absurd rfl he

theorem isByteLeaf_of_codeword_eos {n : Node} (he : n.codeword .eos ≠ none) : n.isByteLeaf = false := by
  match n with
  | .internal _ _ _ => rfl
  | .leaf .eos _ => rfl
  | .leaf (.byte _) _ => exact absurd rfl he

theorem bare_payload (n : Node) (xs : List Byte) : n.bare.payload xs = n.payload xs := by
  simp only [Node.payload, Node.codeBits, bare_codeword]

/-- D_PAYLOAD at the payload of `xs`, whether ROOT is one leaf or not. -/
theorem bodyDPayload_writes {t : State} {xs : List Byte} {rest : List Bool} (hq : t.dev.Quiet)
    (he : t.root.codeword .eos ≠ none) (hx : ∀ v ∈ xs, t.root.codeword (.byte v) ≠ none)
    (ha : t.supply.ahead = t.root.payload xs ++ rest) :
    ∃ v t', bodyDPayload t = .ok v t' ∧ t'.dev.Quiet ∧ t'.dev.sink.bytes = t.dev.sink.bytes ++ xs := by
  cases hl : t.root.isLeaf with
  | false =>
    obtain ⟨w, _, h, -⟩ := bodyDPayload_walks t xs rest hq hl he hx ha
    exact ⟨_, _, h, hq, rfl⟩
  | true =>
    obtain rfl : xs = [] := List.eq_nil_iff_forall_not_mem.mpr fun v hv => hx v hv (codeword_byte_of_isLeaf hl he v)
    rw [bodyDPayload, hl, List.append_nil]
    exact ⟨_, _, rfl, hq, rfl⟩

theorem bodyDFinish_quiet {t : State} (hq : t.dev.Quiet) : ∃ calls, bodyDFinish t = .ok t.dout
    { t with
      dev := { t.dev with sink := { t.dev.sink with flushes := t.dev.sink.flushes + 1 }, calls := calls }
      opstate := .dDone } := by
  rw [bodyDFinish, flushSink_quiet _ hq]
  exact ⟨_, rfl⟩

/-- DECODE of a source that holds the stream of `xs` for a tree with EOS and the bytes, and any padding. -/
theorem bodyDecode_stream {u : State} {n : Node} {xs : List Byte} {pad : List Bool} (hq : u.dev.Quiet)
    (hb : bitsOf u.dev.src.bytes = n.stream xs ++ pad) (he : n.codeword .eos ≠ none)
    (hx : ∀ v ∈ xs, n.codeword (.byte v) ≠ none) (hsize : n.size ≤ u.cfg.nodeCap) :
    ∃ v t, bodyDecode u = .ok v t ∧ t.opstate = .dDone ∧ t.dev.sink.bytes = u.dev.sink.bytes ++ xs := by
  rw [Node.stream, List.append_assoc] at hb
  obtain ⟨sup, hheader, hreads, hahead⟩ := bodyDHeader_header u n _ hq hb (isByteLeaf_of_codeword_eos he) hsize
  obtain ⟨_, t, hpayload, hquiet, hsink⟩ := bodyDPayload_writes
    (t := { u.putSupply sup with nodeCount := n.size, root := n.bare, opstate := .dHeaderParsed })
    hreads.quiet (by rwa [bare_codeword]) (by simpa only [bare_codeword] using hx) (by rw [bare_payload]; exact hahead)
  obtain ⟨_, hfinish⟩ := bodyDFinish_quiet hquiet
  refine ⟨_, _, by rw [bodyDecode, hheader, ok_andThen, hpayload, ok_andThen, hfinish], rfl, ?_⟩
  exact hsink.trans (congrArg (·.bytes ++ xs) hreads.sink)

theorem codeword_eos_treeOf_ne_none (f : Vector Nat 256) : (treeOf f).codeword .eos ≠ none := by
  rw [Option.ne_none_iff_isSome, codeword_isSome]
  exact eos_mem_treeOf_symbols f

/-- Settles O38: unpacking undoes the packing, and the source holds the stream of the input for the input's tree. -/
theorem decodingAnEncodingGivesTheInputBack : Obligations.DecodingAnEncodingGivesTheInputBack := by
  rintro s u xs ⟨-, -, ⟨hcap, -⟩, -⟩ ho hq hx hlen hfit ⟨-, -, ⟨hcap', -⟩, -⟩ ho' hq'
  obtain ⟨stale, calls, hencode⟩ := bodyEncode_quiet hcap hq hx rfl hlen hfit
  refine ⟨_, Pipeline.encode.exec_of_ok (beq_iff_eq.mpr ho) hencode, rfl, List.prefix_append .., fun hu => ?_⟩
  have hbytes : u.dev.src.bytes = packBytes ((treeOf (countsOf xs)).stream xs) := hu.trans List.drop_left
  have hbits := (congrArg bitsOf hbytes).trans (bitsOf_packBytes _)
  obtain ⟨_, _, hdecode, hdone, hsink⟩ := bodyDecode_stream hq' hbits (codeword_eos_treeOf_ne_none _)
    (fun _ => codeword_treeOf_countsOf_ne_none) ((treeOf_size_le _).trans hcap')
  exact ⟨_, Pipeline.decode.exec_of_ok (beq_iff_eq.mpr ho') hdecode, rfl, hdone, hsink⟩

/-! ## ENCODE and DECODE as their steps (44_encoder.md R131, R135, 45_decoder.md R138, R145) -/

/-- A part of a command that neither reads nor writes what the end of the command before it wrote. -/
def FinishBlind (b : State → Res State Word) : Prop := ∀ v s, b (finish v s) = (b s).lift (finish v)

theorem FinishBlind.andThen {b k : State → Res State Word} (hb : FinishBlind b) (hk : FinishBlind k) :
    FinishBlind fun s => (b s).andThen fun _ t => k t := by
  intro v s
  simp only [hb v s]
  cases b s with
  | ok w t => exact hk v t
  | raise x t => rfl
  | stuck => rfl

/-- The end of a command overwrites what the end of the command before it wrote. -/
theorem endCommand_lift_finish (v : Word) (r : Res State Word) :
    endCommand raisePipeline (r.lift (finish v)) = endCommand raisePipeline r := by
  cases r <;> rfl

theorem runSteps_singleton (i : Instr) (s : State) : runSteps [i] s = exec i s := by
  rw [runSteps]
  cases exec i s with
  | next t => exact ite_self _
  | fault e => rfl
  | refused e => rfl

section
variable {i : Instr} {is : List Instr} {s t : State}

theorem runSteps_cons_of_errcode_eq_none (h : exec i s = .next t) (he : t.errcode = .none) :
    runSteps (i :: is) s = runSteps is t := by
  rw [runSteps, h]
  exact if_pos he

theorem runSteps_cons_of_errcode_ne_none (h : exec i s = .next t) (he : t.errcode ≠ .none) :
    runSteps (i :: is) s = .next t := by
  rw [runSteps, h]
  exact if_neg he

variable {b k : State → Res State Word} {e : List ErrCode} {n : Nat} {o : OpState}

/-- A body and what comes after it end as the body's command and the steps after it do: if the body raises, nothing
more runs; if it ends well, the rest runs on in the state it left. -/
theorem Pipeline.endCommand_andThen (h : Pipeline i b e n o) (hm : mayStart i s.opstate = true) (hk : FinishBlind k)
    (hrest : ∀ t, t.opstate = o → endCommand raisePipeline (k t) = runSteps is t) :
    endCommand raisePipeline ((b s).andThen fun _ t => k t) = runSteps (i :: is) s := by
  rcases h.outcome s with ⟨hno, -⟩ | ⟨v, t, -, hb, hexec, -, ho, -⟩ | ⟨x, t, -, hb, hexec, -, -, hx⟩
  · exact absurd (hm.symm.trans hno) nofun
  · rw [hb, runSteps_cons_of_errcode_eq_none hexec rfl, ← hrest (finish v t) ho, hk, endCommand_lift_finish]
    rfl
  · have hne : x ≠ .none := fun hc => h.none_not_mem (hc ▸ hx)
    rw [hb, runSteps_cons_of_errcode_ne_none hexec hne]
    rfl

theorem Pipeline.endCommand_last (h : Pipeline i b e n o) (hm : mayStart i s.opstate = true) :
    endCommand raisePipeline (b s) = runSteps [i] s :=
  (h.exec_of_mayStart hm).symm.trans (runSteps_singleton i s).symm

end

theorem exec_encode_eq_runSteps (s : State) (ho : s.opstate = .idle) :
    exec .encode s = runSteps [.eCount, .eBuild, .eTable, .eHeader, .ePayload, .eFlush] s := by
  have hflush : FinishBlind bodyEFlush := bodyEFlush_finish
  have hpayload := FinishBlind.andThen bodyEPayload_finish hflush
  have hheader := FinishBlind.andThen bodyEHeader_finish hpayload
  have htable := FinishBlind.andThen bodyETable_finish hheader
  have hbuild := FinishBlind.andThen bodyEBuild_finish htable
  rw [Pipeline.encode.exec_of_mayStart (beq_iff_eq.mpr ho)]
  refine Pipeline.eCount.endCommand_andThen (beq_iff_eq.mpr ho) hbuild fun s ho => ?_
  refine Pipeline.eBuild.endCommand_andThen (beq_iff_eq.mpr ho) htable fun s ho => ?_
  refine Pipeline.eTable.endCommand_andThen (beq_iff_eq.mpr ho) hheader fun s ho => ?_
  refine Pipeline.eHeader.endCommand_andThen (beq_iff_eq.mpr ho) hpayload fun s ho => ?_
  refine Pipeline.ePayload.endCommand_andThen (beq_iff_eq.mpr ho) hflush fun s ho => ?_
  exact Pipeline.eFlush.endCommand_last (beq_iff_eq.mpr ho)

theorem exec_decode_eq_runSteps (s : State) (ho : s.opstate = .idle) :
    exec .decode s = runSteps [.dHeader, .dPayload, .dFinish] s := by
  have hfinish : FinishBlind bodyDFinish := bodyDFinish_finish
  have hpayload := FinishBlind.andThen bodyDPayload_finish hfinish
  rw [Pipeline.decode.exec_of_mayStart (beq_iff_eq.mpr ho)]
  refine Pipeline.dHeader.endCommand_andThen (beq_iff_eq.mpr ho) hpayload fun s ho => ?_
  refine Pipeline.dPayload.endCommand_andThen (beq_iff_eq.mpr ho) hfinish fun s ho => ?_
  exact Pipeline.dFinish.endCommand_last (beq_iff_eq.mpr ho)

/-- Settles O39: each body leads to the state in which the next may start, and no body sees how the one before ended. -/
theorem encodeAndDecodeEqualTheirSteps : Obligations.EncodeAndDecodeEqualTheirSteps :=
  fun s ho => ⟨exec_encode_eq_runSteps s ho, exec_decode_eq_runSteps s ho⟩

end Sys2Proof.Machine

/-! PROOFS. Family 45_decoder.md. What each decoder command leaves alone and how D_FINISH ends, whatever the devices do;
with devices that do not interfere, what each body pulls from the source and writes to the sink, and so what DECODE
does. -/

namespace Sys2Proof.Machine

/-! ## What each decoder command leaves alone (45_decoder.md R138, R142 to R145) -/

/-- The commands of the decoder. -/
abbrev IsDecoder (i : Instr) : Prop := i ∈ [Instr.dHeader, .dPayload, .dFinish, .decode]

theorem IsDecoder.pipeline {i : Instr} (hi : IsDecoder i) : ∃ b e n o, Pipeline i b e n o := by
  simp only [List.mem_cons, List.not_mem_nil, or_false] at hi
  rcases hi with rfl | rfl | rfl | rfl
  · exact ⟨_, _, _, _, .dHeader⟩
  · exact ⟨_, _, _, _, .dPayload⟩
  · exact ⟨_, _, _, _, .dFinish⟩
  · exact ⟨_, _, _, _, .decode⟩

/-- `P` holds of the state a body hands back, whether it ends well or raises. -/
def Res.Leaves (P : State → Prop) (r : Res State Word) : Prop :=
  match r with
  | .ok _ t => P t
  | .raise _ t => P t
  | .stuck => True

/-- What a decoder command `i` that leads from `s` to `t` does not write. -/
structure DecoderFrame (i : Instr) (s t : State) : Prop where
  encoder : t.bb = s.bb ∧ t.freq = s.freq ∧ t.n1 = s.n1 ∧ t.pl = s.pl ∧ t.cw = s.cw ∧ t.path = s.path
  tree : i ≠ .dHeader → i ≠ .decode → t.root = s.root ∧ t.nodeCount = s.nodeCount
  output : i ≠ .dPayload → i ≠ .decode → t.dnode = s.dnode ∧ t.dout = s.dout
  cursor : i = .dFinish → t.dcur = s.dcur ∧ t.dcnt = s.dcnt ∧ t.dbits = s.dbits

section
variable {i : Instr} {b : State → Res State Word} {e : List ErrCode} {n : Nat} {o : OpState} {s t : State}

theorem Pipeline.leaves_decoderFrame (h : Pipeline i b e n o) (hi : IsDecoder i) (s : State) :
    (b s).Leaves (DecoderFrame i s) := by
  cases h
  case eCount | eBuild | eTable | eHeader | ePayload | eFlush | encode => exact absurd hi (by decide)
  case dHeader =>
    rcases bodyDHeader_cases s with ⟨_, _, _, _, h, -⟩ | ⟨_, _, _, _, h, -⟩ <;> rw [h] <;> constructor <;> simp
  case dPayload =>
    rcases bodyDPayload_cases s with ⟨_, _, _, _, h⟩ | ⟨_, _, _, _, h⟩ <;> rw [h] <;> constructor <;> simp
  case dFinish => rcases bodyDFinish_cases s with ⟨_, h⟩ | ⟨_, h⟩ <;> rw [h] <;> constructor <;> simp
  case decode =>
    rcases bodyDecode_cases s with ⟨_, _, _, _, _, _, h, -⟩ | ⟨_, _, _, _, _, _, _, h, -⟩ <;> rw [h] <;>
      constructor <;> simp

/-- The frame says nothing of what a command's end writes (60_exceptions.md R152 to R155). -/
theorem exec_decoderFrame (hi : IsDecoder i) (h : exec i s = .next t) : DecoderFrame i s t := by
  obtain ⟨b, e, n, o, hb⟩ := hi.pipeline
  have hk := hb.leaves_decoderFrame hi s
  rcases hb.outcome s with ⟨-, hx⟩ | ⟨v, u, -, hbody, hx, -⟩ | ⟨x, u, -, hbody, hx, -⟩ <;> rw [hx] at h <;> cases h
  · constructor <;> simp
  · rw [hbody] at hk; exact { hk with }
  · rw [hbody] at hk; exact { hk with }

/-- A pipeline command that ends without an error is the end of a body that ended well. -/
theorem Pipeline.body_ok_of_errcode_eq_none (h : Pipeline i b e n o) (hx : exec i s = .next t)
    (he : t.errcode = .none) : ∃ v u, b s = .ok v u ∧ t = finish v u := by
  rcases h.outcome s with ⟨-, hy⟩ | ⟨v, u, -, hb, hy, -⟩ | ⟨x, u, -, -, hy, -, -, hmem⟩ <;> rw [hy] at hx <;> cases hx
  · cases he
  · exact ⟨v, u, hb, rfl⟩
  · exact absurd (he ▸ hmem : ErrCode.none ∈ e) h.none_not_mem

end

/-- Settles O48: each body keeps its command's frame, and so do the ways a command ends. -/
theorem decoderStepsLeaveTheRestAlone : Obligations.DecoderStepsLeaveTheRestAlone := by
  intro i s t hi h
  obtain ⟨⟨hbb, hfreq, hn1, hpl, hcw, hpath⟩, htree, houtput, hcursor⟩ := exec_decoderFrame hi h
  exact ⟨hbb, hfreq, hn1, hpl, hcw, hpath, htree, houtput, hcursor⟩

/-! ## D_FINISH (45_decoder.md R144) -/

theorem sinkFlush_of_draw_fails {d : Devices} (h : d.draw.1 = true) :
    d.sinkFlush = .failed { d.draw.2 with sink := d.sink, calls := .failed .sinkFlush :: d.calls } := by
  rw [Devices.sinkFlush, Devices.call, if_pos h, draw_eq]
  rfl

theorem sinkFlush_of_draw_answers {d : Devices} (h : d.draw.1 = false) :
    d.sinkFlush = .answered () { d.draw.2 with
      sink := { d.sink with flushes := d.sink.flushes + 1 }, calls := .sinkFlush :: d.calls } := by
  rw [Devices.sinkFlush, Devices.call, if_neg (by simp [h]), draw_eq]
  rfl

section
variable {s : State}

theorem bodyDFinish_of_draw_fails (h : s.dev.draw.1 = true) : bodyDFinish s = .raise .ioError
    { s with dev := { s.dev.draw.2 with sink := s.dev.sink, calls := .failed .sinkFlush :: s.dev.calls } } := by
  rw [bodyDFinish, flushSink, sinkFlush_of_draw_fails h]
  rfl

theorem bodyDFinish_of_draw_answers (h : s.dev.draw.1 = false) : bodyDFinish s = .ok s.dout
    { s with
      dev := { s.dev.draw.2 with
        sink := { s.dev.sink with flushes := s.dev.sink.flushes + 1 }, calls := .sinkFlush :: s.dev.calls }
      opstate := .dDone } := by
  rw [bodyDFinish, flushSink, sinkFlush_of_draw_answers h]
  rfl

end

/-- Settles O36: the body is the flush, and the draw decides how the flush ends. -/
theorem dFinishFlushesTheSink : Obligations.DFinishFlushesTheSink := fun _ ho =>
  ⟨fun h => Pipeline.dFinish.exec_of_ok (beq_iff_eq.mpr ho) (bodyDFinish_of_draw_answers h),
    fun h => Pipeline.dFinish.exec_of_raise (beq_iff_eq.mpr ho) (bodyDFinish_of_draw_fails h)⟩

/-! ## What has been pulled from the source (45_decoder.md R139, R146) -/

section
variable {s : State} {u u' : Supply} {k : Nat}

/-- Of the devices, pulling moves the source's position; what it wrote and the calls it made are whatever they are. -/
theorem Pulls.dev (hq : u.dev.Quiet) (h : Pulls u u' k) :
    u'.dev = { u.dev with
      src := { u.dev.src with pos := u'.dev.src.pos }, sink := u'.dev.sink, calls := u'.dev.calls } := by
  have hdraws : u'.dev.draws = u.dev.draws := h.quiet.trans hq.symm
  simp only [← h.bytes, ← hdraws]

/-- From a rewound source, pulling `k` bits takes as few bytes as hold them. -/
theorem Pulls.pos_of_start (h : Pulls (startReading s).sup u k) : u.dev.src.pos = (k + 7) / 8 := by
  have hpulled : 8 * u.dev.src.pos = u.dcnt.val + k := by simpa [startReading] using h.pulled
  have hcursor : u.dcnt.val < 8 := h.cursor (by decide : 0 < 8)
  omega

theorem Pulls.dbits_of_start (h : Pulls (startReading s).sup u k) : u.dbits = BitVec.ofNat 32 k :=
  h.dbits.trans (BitVec.zero_add _)

theorem Pulls.dev_of_start (hq : s.dev.Quiet) (h : Pulls (startReading s).sup u k) :
    u.dev = { s.dev with
      src := { s.dev.src with pos := (k + 7) / 8 }, sink := u.dev.sink, calls := u.dev.calls } := by
  rw [← h.pos_of_start]
  exact h.dev hq

/-- No more bits are pulled than the source holds. -/
theorem Pulls.le_of_start (h : Pulls (startReading s).sup u k) : k ≤ 8 * s.dev.src.bytes.length := by
  have hahead := h.ahead
  rw [startReading_ahead, bitsOf_length] at hahead
  omega

end

/-! ## D_PAYLOAD (45_decoder.md R143) -/

section
variable {s : State}

theorem bodyDPayload_of_isLeaf (hl : s.root.isLeaf = true) :
    bodyDPayload s = .ok 0#32 { s with dnode := s.root, dout := 0#32, opstate := .dPayloadDecoded } := by
  rw [bodyDPayload, if_pos hl]
  rfl

/-- The walk D_PAYLOAD starts with (45_decoder.md R143). -/
def startWalk (s : State) : Walk where
  sup := s.supply
  dnode := s.root
  dout := 0#32

theorem bodyDPayload_of_not_isLeaf (hl : s.root.isLeaf = false) :
    bodyDPayload s = ((walkLoop s.root (s.supply.bitsAhead + 1) (startWalk s)).lift
      fun w => { s.putSupply w.sup with dnode := w.dnode, dout := w.dout }).andThen
        fun _ t => .ok t.dout { t with opstate := .dPayloadDecoded } := by
  rw [bodyDPayload, if_neg (by simp [hl])]
  rfl

/-- A tree that holds EOS and is one leaf is the EOS leaf. -/
theorem eq_eos_of_isLeaf {n : Node} (hl : n.isLeaf = true) (he : n.codeword .eos ≠ none) : ∃ z, n = .leaf .eos z := by
  match n with
  | .leaf .eos z => exact ⟨z, rfl⟩
  | .leaf (.byte _) _ => exact absurd rfl he

/-- D_PAYLOAD with the payload of `xs` ahead, whether ROOT is one leaf or not: what it pulls and writes. -/
theorem bodyDPayload_payload {xs : List Byte} {rest : List Bool} (hq : s.dev.Quiet)
    (he : s.root.codeword .eos ≠ none) (hx : ∀ v ∈ xs, s.root.codeword (.byte v) ≠ none)
    (ha : s.supply.ahead = s.root.payload xs ++ rest) :
    ∃ u z, bodyDPayload s = .ok (BitVec.ofNat 32 xs.length)
        { s.putSupply u with
          dnode := .leaf .eos z, dout := BitVec.ofNat 32 xs.length, opstate := .dPayloadDecoded } ∧
      Pulls s.supply u (s.root.payload xs).length ∧ u.ahead = rest ∧
      u.dev.sink = { s.dev.sink with bytes := s.dev.sink.bytes ++ xs } := by
  cases hl : s.root.isLeaf with
  | true =>
    obtain ⟨z, hz⟩ := eq_eos_of_isLeaf hl he
    obtain rfl : xs = [] := List.eq_nil_iff_forall_not_mem.mpr fun v hv => hx v hv (codeword_byte_of_isLeaf hl he v)
    have hpay : s.root.payload [] = [] := by rw [hz]; rfl
    rw [hpay] at ha ⊢
    rw [List.append_nil]
    exact ⟨s.supply, z, hz ▸ bodyDPayload_of_isLeaf hl, .refl hq, ha, rfl⟩
  | false =>
    have hfuel : (s.root.payload xs).length ≤ s.supply.bitsAhead + 1 := by
      rw [← ahead_length _ hq, ha, List.length_append]; omega
    obtain ⟨w, hwalk, hrest, hquiet, hbytes, hsink, hdbits, hpulled, hcursor, hdout, z, hz⟩ :=
      walkLoop_payload s.root hl he xs hx _ (startWalk s) rest hq rfl ha hfuel
    refine ⟨w.sup, z, ?_, ?_, hrest, hsink⟩
    · have hcount : w.dout = BitVec.ofNat 32 xs.length := hdout.trans (BitVec.zero_add _)
      rw [bodyDPayload_of_not_isLeaf hl, hwalk, ← hz, ← hcount]
      rfl
    · exact ⟨hquiet, hbytes, hdbits, hpulled, hcursor, by rw [hrest, ha, List.length_append, Nat.add_comm]⟩

end

/-- Settles O34: what the walk pulls moves the source's position and the cursor; a leaf as root ends the body at once. -/
theorem dPayloadEmitsTheDecodedBytes : Obligations.DPayloadEmitsTheDecodedBytes := by
  refine ⟨?codewords, ?leaf⟩
  case codewords =>
    rintro s xs rest ho hq - he hx ha
    obtain ⟨u, z, hbody, hpulls, hrest, hsink⟩ := bodyDPayload_payload hq he hx ha
    refine ⟨u.dev.src.pos, u.dcur, u.dcnt, u.dev.calls, z, ?_⟩
    have hdev := hpulls.dev hq
    have hdbits := hpulls.dbits
    rw [hsink] at hdev
    simp only [State.supply] at hdev hdbits
    rw [← hdev, ← hdbits]
    exact ⟨Pipeline.dPayload.exec_of_ok (beq_iff_eq.mpr ho) hbody, hrest⟩
  case leaf => exact fun s ho hl => Pipeline.dPayload.exec_of_ok (beq_iff_eq.mpr ho) (bodyDPayload_of_isLeaf hl)

/-- Settles O35: the walk over the codewords of `xs` ends inside the next one, whose end is not there. -/
theorem dPayloadReportsATruncatedPayload : Obligations.DPayloadReportsATruncatedPayload := by
  intro s xs x p more ho hq hl hx hp hmore ha
  obtain ⟨w, hwalk, hsink⟩ := walkLoop_truncated s.root hl xs hx x p more hmore hp (s.supply.bitsAhead + 1)
    (startWalk s) hq rfl ha (Nat.lt_succ_of_le (ahead_length _ hq).le)
  have hbody : bodyDPayload s = .raise .truncatedPayload
      { s.putSupply w.sup with dnode := w.dnode, dout := w.dout } := by
    rw [bodyDPayload_of_not_isLeaf hl, hwalk]
    rfl
  exact ⟨_, Pipeline.dPayload.exec_of_raise (beq_iff_eq.mpr ho) hbody, rfl, rfl, rfl, rfl, hsink⟩

/-! ## DECODE of a stream (45_decoder.md R145) -/

/-- DECODE of a source that starts with the stream of `xs` for a tree with EOS and the bytes: what it pulls and writes. -/
theorem bodyDecode_pulls_stream {s : State} {n : Node} {xs : List Byte} {rest : List Bool} (hq : s.dev.Quiet)
    (hb : bitsOf s.dev.src.bytes = n.stream xs ++ rest) (hsize : n.size ≤ s.cfg.nodeCap)
    (he : n.codeword .eos ≠ none) (hx : ∀ v ∈ xs, n.codeword (.byte v) ≠ none) :
    ∃ u z, bodyDecode s = .ok (BitVec.ofNat 32 xs.length)
        { s.putSupply u with
          root := n.bare, nodeCount := n.size, dnode := .leaf .eos z, dout := BitVec.ofNat 32 xs.length
          opstate := .dDone } ∧
      Pulls (startReading s).sup u (n.stream xs).length ∧
      u.dev.sink = { bytes := s.dev.sink.bytes ++ xs, flushes := s.dev.sink.flushes + 1 } := by
  rw [Node.stream, List.append_assoc] at hb
  obtain ⟨u, hheader, hreads, hahead⟩ := bodyDHeader_header s n _ hq hb (isByteLeaf_of_codeword_eos he) hsize
  obtain ⟨u', z, hpayload, hpulls, -, hsink⟩ := bodyDPayload_payload
    (s := { s.putSupply u with nodeCount := n.size, root := n.bare, opstate := .dHeaderParsed })
    hreads.quiet (by rwa [bare_codeword]) (by simpa only [bare_codeword] using hx) (by rw [bare_payload]; exact hahead)
  obtain ⟨calls, hfinish⟩ := bodyDFinish_quiet
    (t := { s.putSupply u' with
      root := n.bare, nodeCount := n.size, dnode := .leaf .eos z, dout := BitVec.ofNat 32 xs.length
      opstate := .dPayloadDecoded })
    hpulls.quiet
  have hboth := (reads_pulls hreads).trans hpulls
  rw [bare_payload, ← List.length_append, ← Node.stream] at hboth
  refine ⟨{ u' with dev := { u'.dev with
      sink := { u'.dev.sink with flushes := u'.dev.sink.flushes + 1 }, calls := calls } }, z, ?_, { hboth with }, ?_⟩
  · rw [bodyDecode, hheader, ok_andThen, hpayload, ok_andThen]
    exact hfinish
  · have hunwritten : u.dev.sink = s.dev.sink := hreads.sink
    simp only [hsink, putSupply_dev, hunwritten]

/-- Settles O37: the three bodies pull the bits of the stream, the last one flushes the sink. -/
theorem decodeWritesTheOriginalBytes : Obligations.DecodeWritesTheOriginalBytes := by
  intro s n xs rest ho hq hb hsize he hx
  obtain ⟨u, z, hbody, hpulls, hsink⟩ := bodyDecode_pulls_stream hq hb hsize he hx
  refine ⟨u.dcur, u.dcnt, .leaf .eos z, u.dev.calls, ?_⟩
  have hdev := hpulls.dev_of_start hq
  rw [hsink] at hdev
  rw [← hdev, ← hpulls.dbits_of_start]
  exact Pipeline.decode.exec_of_ok (beq_iff_eq.mpr ho) hbody

/-! ## Any DECODE that succeeds (45_decoder.md R146) -/

section
variable {s t : State} {v : Word}

theorem bodyDHeader_pulls (hq : s.dev.Quiet) (h : bodyDHeader s = .ok v t) :
    ∃ k, Pulls (startReading s).sup t.supply k := by
  rw [bodyDHeader_quiet s hq] at h
  obtain ⟨n, s', hread, hend⟩ := andThen_ok h
  obtain ⟨r, hr, rfl⟩ := lift_ok hread
  split at hend <;> cases hend
  exact readNode_pulls (by exact hq) hr

theorem bodyDPayload_pulls (hq : s.dev.Quiet) (h : bodyDPayload s = .ok v t) : ∃ k, Pulls s.supply t.supply k := by
  cases hl : s.root.isLeaf with
  | true =>
    rw [bodyDPayload_of_isLeaf hl] at h
    cases h
    exact ⟨0, .refl hq⟩
  | false =>
    rw [bodyDPayload_of_not_isLeaf hl] at h
    obtain ⟨_, s', hwalk, hend⟩ := andThen_ok h
    obtain ⟨w, hw, rfl⟩ := lift_ok hwalk
    cases hend
    exact walkLoop_pulls (by exact hq) hw

theorem bodyDFinish_pulls (hq : s.dev.Quiet) (h : bodyDFinish s = .ok v t) : Pulls s.supply t.supply 0 := by
  obtain ⟨calls, hfinish⟩ := bodyDFinish_quiet hq
  rw [hfinish] at h
  cases h
  exact { Pulls.refl (u := s.supply) hq with }

theorem bodyDecode_pulls (hq : s.dev.Quiet) (h : bodyDecode s = .ok v t) :
    ∃ k, Pulls (startReading s).sup t.supply k := by
  obtain ⟨_, s₁, hheader, h⟩ := andThen_ok h
  obtain ⟨_, s₂, hpayload, hfinish⟩ := andThen_ok h
  obtain ⟨k, hk⟩ := bodyDHeader_pulls hq hheader
  obtain ⟨m, hm⟩ := bodyDPayload_pulls hk.quiet hpayload
  exact ⟨_, (hk.trans hm).trans (bodyDFinish_pulls hm.quiet hfinish)⟩

end

/-- Settles O40: a decode that succeeds has pulled some bits from the start of the source, too few for DBITS to wrap. -/
theorem successfulDecodePullsOnlyTheBytesItNeeds : Obligations.SuccessfulDecodePullsOnlyTheBytesItNeeds := by
  intro s t hq hlen hexec he
  obtain ⟨v, u, hbody, rfl⟩ := Pipeline.decode.body_ok_of_errcode_eq_none hexec he
  obtain ⟨k, hk⟩ := bodyDecode_pulls hq hbody
  have hle := hk.le_of_start
  have hpos : u.dev.src.pos = (k + 7) / 8 := hk.pos_of_start
  have hdbits : u.dbits = BitVec.ofNat 32 k := hk.dbits_of_start
  rw [finish_dev, finish_dbits, hpos, hdbits, BitVec.toNat_ofNat, Nat.mod_eq_of_lt (by omega)]

end Sys2Proof.Machine

/-! PROOFS. Family 46_control.md. CLEAR: its effect from every state, its word, and the words that are no CLEAR. -/

namespace Sys2Proof.Machine

/-- 46_control.md R149: every OPSTATE passes the OPSTATE check of CLEAR, and its body cannot raise. -/
theorem exec_clear (s : State) : exec .clear s = .next (finish 0#32 (clearOperation s)) := by
  rw [exec, execClear, runDirect_of_mayStart _ rfl]
  rfl

/-- Settles O8: CLEAR may start in any state, and the first check of 30_encoding.md R80 rejects a nonzero CMD[31:8] for
every opcode. -/
theorem clearReturnsToIdle : Obligations.ClearReturnsToIdle :=
  ⟨exec_clear, decode_setWidth 0x01#8, fun _ a _ => decode_of_field_ne_zero a⟩

end Sys2Proof.Machine

/-! PROOFS. Families 60_exceptions.md and 70_reset_and_hazards.md. That every command ends, the errors a pipeline command
raises, the frame of a direct command, what a step can do from FAILED, and what the reset input leaves. -/

namespace Sys2Proof.Machine

/-! ## Every command ends (60_exceptions.md R156) -/

/-- No command outlives its bounds, whatever the devices answer. -/
theorem exec_ends (i : Instr) (s : State) : ∃ t, exec i s = .next t := by
  rcases instr_kinds i with hd | ⟨b, e, n, o, hb⟩
  · rcases direct_outcome i hd s with ⟨x, hx, -⟩ | ⟨v, q, hx, -⟩ | ⟨-, hx⟩ <;> exact ⟨_, hx⟩
  · rcases hb.outcome s with ⟨-, hx⟩ | ⟨v, u, -, -, hx, -⟩ | ⟨x, u, -, -, hx, -⟩ <;> exact ⟨_, hx⟩

/-- Settles O41: a command ends with BUSY 0, and CMD is the register at offset 0, where a write then latches. -/
theorem everyCommandEndsAndTheNextIsAccepted : Obligations.EveryCommandEndsAndTheNextIsAccepted := by
  intro i s
  obtain ⟨t, h⟩ := exec_ends i s
  obtain ⟨-, -, -, -, -, -, hbusy, -⟩ := commandsLeaveTheHostSideAlone i s t h
  refine ⟨t, h, hbusy, fun v ms hbase => ?_⟩
  rw [writeIssuesSetsOrIsIgnored { t with moves := .busWrite t.cfg.base 4 v :: ms } ms 0 v (by decide) rfl hbase rfl,
    if_pos rfl, if_neg (by simp [hbusy])]

/-! ## The errors of a pipeline command (60_exceptions.md R157) -/

/-- A pipeline command ends with no error, with that of the OPSTATE check, or with one its body can raise. -/
theorem Pipeline.errcode_mem {i : Instr} {b : State → Res State Word} {e : List ErrCode} {n : Nat} {o : OpState}
    {s t : State} (hb : Pipeline i b e n o) (h : exec i s = .next t) :
    t.errcode ∈ ErrCode.none :: .sequenceError :: e := by
  rcases hb.outcome s with ⟨-, hx⟩ | ⟨v, u, -, -, hx, -⟩ | ⟨x, u, -, -, hx, -, -, hmem⟩ <;> rw [hx] at h <;> cases h
  · exact .tail _ (.head _)
  · exact .head _
  · exact .tail _ (.tail _ hmem)

/-- 41_tree_builder.md R115: a node store of 513 nodes holds every tree, so the body of E_BUILD raises nothing. -/
theorem eBuild_errcode_mem {s t : State} (hcap : 513 ≤ s.cfg.nodeCap) (h : exec .eBuild s = .next t) :
    t.errcode ∈ [ErrCode.none, .sequenceError] := by
  cases hm : mayStart .eBuild s.opstate with
  | false =>
    rw [exec_of_not_mayStart hm] at h
    cases h
    exact .tail _ (.head _)
  | true =>
    rw [Pipeline.eBuild.exec_of_ok hm (bodyEBuild_eq s hcap)] at h
    obtain rfl := Host.Outcome.next.inj h
    exact .head _

/-- Settles O43: the rows of R157 are the errors the bodies can raise, but for E_BUILD, whose ALLOCATION_ERROR needs a node
store smaller than a legal one. -/
theorem eachPipelineCommandRaisesOnlyItsErrors : Obligations.EachPipelineCommandRaisesOnlyItsErrors := by
  rintro i s t raised ⟨-, -, ⟨hcap, -⟩, -⟩ hi h
  simp only [List.mem_cons, Prod.mk.injEq, List.not_mem_nil, or_false] at hi
  rcases hi with ⟨rfl, rfl⟩ | ⟨rfl, rfl⟩ | ⟨rfl, rfl⟩ | ⟨rfl, rfl⟩ | ⟨rfl, rfl⟩ | ⟨rfl, rfl⟩ | ⟨rfl, rfl⟩ | ⟨rfl, rfl⟩ |
    ⟨rfl, rfl⟩ | ⟨rfl, rfl⟩ | ⟨rfl, rfl⟩
  · exact Pipeline.eCount.errcode_mem h
  · exact eBuild_errcode_mem hcap h
  · exact Pipeline.eTable.errcode_mem h
  · exact Pipeline.eHeader.errcode_mem h
  · exact Pipeline.ePayload.errcode_mem h
  · exact Pipeline.eFlush.errcode_mem h
  · exact Pipeline.encode.errcode_mem h
  · exact Pipeline.dHeader.errcode_mem h
  · exact Pipeline.dPayload.errcode_mem h
  · exact Pipeline.dFinish.errcode_mem h
  · exact Pipeline.decode.errcode_mem h

/-! ## Direct commands (60_exceptions.md R154) -/

/-- Settles O46: an error changes nothing else, an end without one changes at most the bit buffer, and CLEAR writes only
OPSTATE, OPERR and OVERRUN. -/
theorem directCommandsTouchNoDeviceAndNoTable : Obligations.DirectCommandsTouchNoDeviceAndNoTable := by
  intro i s t hd h
  rcases direct_outcome i hd s with ⟨x, hx, -⟩ | ⟨v, q, hx, hq, -⟩ | ⟨hi, hx⟩ <;> rw [hx] at h <;> cases h <;>
    refine ⟨rfl, rfl, rfl, rfl, rfl, rfl, rfl, rfl, rfl, rfl, rfl, rfl, rfl, ?_, ?_, ?_⟩
  · exact fun _ => ⟨rfl, rfl⟩
  · exact fun _ _ _ => rfl
  · exact fun _ => rfl
  · exact fun _ => ⟨rfl, rfl⟩
  · exact hq
  · exact fun he => absurd rfl he
  · exact fun hne => absurd hi hne
  · exact fun _ _ _ => rfl
  · exact fun he => absurd rfl he

/-! ## What a step can do (log 3) -/

/-- `t` is `s` but for what a host access and the attaching of a stream can write. -/
def HostWrote (s t : State) : Prop :=
  ∃ arg busy overrun latch dev busData busyReads, t = { s with
    arg := arg, busy := busy, overrun := overrun, latch := latch, dev := dev, busData := busData, busyReads := busyReads }

theorem busRead_hostWrote (r : Reg) (s : State) : HostWrote s (busRead r s) := by
  unfold busRead
  split
  · exact ⟨_, _, _, _, _, _, _, rfl⟩
  · exact ⟨_, _, _, _, _, _, _, rfl⟩

theorem issue_hostWrote (v : Word) (s : State) : HostWrote s (issue v s) := by
  unfold issue
  split
  · exact ⟨_, _, _, _, _, _, _, rfl⟩
  · exact ⟨_, _, _, _, _, _, _, rfl⟩

theorem busWrite_hostWrote (r : Reg) (v : Word) (s : State) : HostWrote s (busWrite r v s) := by
  cases r with
  | cmd => exact issue_hostWrote v s
  | arg | status | result | bbLen | reserved => exact ⟨_, _, _, _, _, _, _, rfl⟩

/-- A move is the engine's turn, the reset input's, or the host's. -/
theorem perform_cases {m : Move} {s t : State} (h : perform m s = .next t) :
    (m = .engine ∧ engineTurn s = .next t) ∨ (∃ k, m = .reset k ∧ t = hardReset k s) ∨ HostWrote s t := by
  cases m with
  | busRead addr n =>
    simp only [perform] at h
    split at h <;> cases h
    exact .inr (.inr (busRead_hostWrote _ s))
  | busWrite addr n v =>
    simp only [perform] at h
    split at h <;> cases h
    exact .inr (.inr (busWrite_hostWrote _ v s))
  | engine => exact .inl ⟨rfl, h⟩
  | reset k => cases h; exact .inr (.inl ⟨k, rfl, rfl⟩)
  | attachSource c => cases h; exact .inr (.inr ⟨_, _, _, _, _, _, _, rfl⟩)
  | attachSink => cases h; exact .inr (.inr ⟨_, _, _, _, _, _, _, rfl⟩)

/-- A step is the engine's turn, by a move or for want of one, or the reset input's, or the host's. -/
theorem step_cases {s t : State} (h : step s = .next t) :
    ((s.moves = [] ∨ ∃ ms, s.moves = .engine :: ms) ∧ ∃ ms, engineTurn { s with moves := ms } = .next t) ∨
    (∃ k ms, s.moves = .reset k :: ms ∧ t = hardReset k { s with moves := ms }) ∨
    ∃ ms, HostWrote { s with moves := ms } t := by
  unfold step performNext at h
  split at h
  case h_1 hm => exact .inl ⟨.inl hm, s.moves, h⟩
  case h_2 m ms hm =>
    rcases perform_cases h with ⟨rfl, hturn⟩ | ⟨k, rfl, hreset⟩ | hhost
    · exact .inl ⟨.inr ⟨ms, hm⟩, ms, hturn⟩
    · exact .inr (.inl ⟨k, ms, hm, hreset⟩)
    · exact .inr (.inr ⟨ms, hhost⟩)

/-! ## Leaving FAILED (60_exceptions.md R155, R162, 46_control.md R149) -/

theorem Pipeline.not_mayStart_failed {i : Instr} {b : State → Res State Word} {e : List ErrCode} {n : Nat} {o : OpState}
    (h : Pipeline i b e n o) : mayStart i .failed = false := by
  cases h <;> rfl

/-- In FAILED no pipeline command may start, and no direct command but CLEAR writes OPSTATE or OPERR. -/
theorem exec_keeps_failed {i : Instr} {s t : State} (hf : s.opstate = .failed) (hi : i ≠ .clear)
    (h : exec i s = .next t) : t.opstate = .failed ∧ t.operr = s.operr := by
  rcases instr_kinds i with hd | ⟨b, e, n, o, hb⟩
  · obtain ⟨-, -, -, -, -, -, -, -, -, -, -, -, -, hop, -⟩ := directCommandsTouchNoDeviceAndNoTable i s t hd h
    obtain ⟨hopstate, hoperr⟩ := hop hi
    exact ⟨hopstate.trans hf, hoperr⟩
  · rw [exec_of_not_mayStart (hf ▸ hb.not_mayStart_failed)] at h
    cases h
    exact ⟨hf, rfl⟩

theorem engineTurn_from_failed {s t : State} (hf : s.opstate = .failed) (h : engineTurn s = .next t) :
    (t.opstate = .failed ∧ t.operr = s.operr) ∨
    (t.opstate = .idle ∧ t.operr = .none ∧ s.busy = true ∧ ∃ c, s.latch = some c ∧ decode c = .instr .clear) := by
  rcases engineTurn_latched_cases h with rfl | rfl | ⟨hbusy, c, i, hc, hd, hx⟩
  · exact .inl ⟨hf, rfl⟩
  · exact .inl ⟨hf, rfl⟩
  · by_cases hi : i = .clear
    · subst hi
      rw [exec_clear] at hx
      cases hx
      exact .inr ⟨rfl, rfl, hbusy, c, hc, hd⟩
    · exact .inl (exec_keeps_failed hf hi hx)

/-- 70_reset_and_hazards.md R169: the reset input keeps nothing of HCORE; a running command decides the devices only. -/
theorem hardReset_eq (k : Nat) (s : State) :
    hardReset k s = resetState { s with dev := if s.busy then devicesCutAt k s else s.dev } := by
  unfold hardReset
  split
  · rfl
  · rfl

/-- Settles O50: the three kinds of step; the host's writes neither OPSTATE nor OPERR, and reset writes both. -/
theorem failedIsLeftOnlyByClearOrReset : Obligations.FailedIsLeftOnlyByClearOrReset := by
  intro s t hf h
  rcases step_cases h with ⟨hturn, ms, h⟩ | ⟨k, ms, hm, rfl⟩ | ⟨ms, _, _, _, _, _, _, _, rfl⟩
  · refine (engineTurn_from_failed (s := { s with moves := ms }) hf h).imp_right fun ⟨ho, he, hbusy, hc⟩ => ?_
    exact ⟨ho, he, .inr ⟨hbusy, hturn, hc⟩⟩
  · rw [hardReset_eq]
    exact .inr ⟨rfl, rfl, .inl ⟨k, ms, hm⟩⟩
  · exact .inl ⟨hf, rfl⟩

/-! ## The reset input (70_reset_and_hazards.md R169) -/

theorem step_reset {s : State} {k : Nat} {ms : List Move} (hm : s.moves = .reset k :: ms) :
    step s = .next (hardReset k { s with moves := ms }) := by
  simp only [step, performNext, hm, perform]

/-- An empty latch holds no command, so no device call is made (log 12). -/
theorem devicesCutAt_of_latch_eq_none {s : State} (k : Nat) (h : s.latch = none) : devicesCutAt k s = s.dev := by
  unfold devicesCutAt engineTurn
  rw [h]
  cases s.busy
  · simp [Devices.replay]
  · rfl

/-- With no command running, reset leaves the devices as they are. -/
theorem hardReset_of_no_command {s : State} (k : Nat) (h : s.busy = false ∨ s.latch = none) :
    hardReset k s = resetState s := by
  rw [hardReset_eq]
  rcases h with hbusy | hlatch
  · rw [if_neg (by simp [hbusy])]
  · rw [devicesCutAt_of_latch_eq_none k hlatch, ite_self]

/-- Settles O60: reset cuts a running command to its first `k` device calls, and `Devices.after` says what those leave. -/
theorem resetInputKeepsTheDeviceEffects : Obligations.ResetInputKeepsTheDeviceEffects := by
  intro s ms k hm
  refine ⟨fun hidle => ?_, fun c hbusy hc => ?_⟩
  · rw [step_reset hm, hardReset_of_no_command (s := { s with moves := ms }) k hidle]
    rfl
  · obtain ⟨t, made, ht, hmade⟩ := engineTurn_latched (s := { s with moves := ms }) hc
    obtain ⟨hcut, hall⟩ := devicesCutAt_eq k ht hmade
    refine ⟨t, made, s.dev.after (made.reverse.take k), ht, hmade, ?_, rfl, rfl, rfl, rfl, ?_, fun hk => ?_⟩
    · rw [step_reset hm, hardReset_eq, if_pos hbusy, hcut]
      rfl
    · simp [Devices.after]
    · rw [List.take_of_length_le (by simpa using hk)]
      exact hall.symm

end Sys2Proof.Machine
